-- ==== Sys2Proof/Word.lean ====
section
/-! DEFINITION. The word types of HUFFCORE: a register or command word is 32 bits (spec 10_state.md R30, 30_encoding.md
R100), a symbol and a buffer entry 8 bits (00_scope.md R6). -/

namespace Sys2Proof

/-- A 32-bit register or command word (R30, R100). -/
abbrev Word := BitVec 32

/-- A byte: a symbol or one entry of a byte memory (R6, R9). -/
abbrev Byte := BitVec 8

/-- A bit sequence in the sense of R10: a finite list of bits, first bit at the head. -/
abbrev Bits := List Bool

end Sys2Proof
end

