-- ==== Sys2Proof/Syntax.lean ====
section
/-! DEFINITION. The sixteen commands of HUFFCORE (spec 30_encoding.md R104), the seven address spaces (20_memory.md R70)
and the operations of the host (46_system.md R232). -/

namespace Sys2Proof

/-- The commands of R104, one constructor per row of spec/opcode_table.json. The operand of PKPUT and UPGET is the
6-bit field N = w[5:0] (R103, R105). -/
inductive Instr where
  | nop
  | srst
  | count
  | build
  | walk
  | pkinit
  | pkput (n : BitVec 6)
  | pkflush
  | upinit
  | upget (n : BitVec 6)
  | encode
  | decode
  | ser
  | deser
  | compress
  | decompress
  deriving DecidableEq, Repr, Inhabited

/-- The address spaces of R70. -/
inductive Space where
  | csr
  | freq
  | node
  | code
  | src
  | dst
  | pay
  deriving DecidableEq, Repr, Inhabited

/-- What the host does in one step (R232): a write, a read, a hardware reset. `resetDuring w` is the reset of R280 and
R285 applied while the block is BUSY with the command word `w` the host has just written to CMD (log entry 8). -/
inductive HostOp where
  | wr (space : Space) (index : Nat) (value : Word)
  | rd (space : Space) (index : Nat)
  | reset
  | resetDuring (w : Word)
  deriving DecidableEq, Repr, Inhabited

/-- The upper-case mnemonic of R104, as host scripts write it (R108). -/
def Instr.mnemonic : Instr → String
  | .nop => "NOP"
  | .srst => "SRST"
  | .count => "COUNT"
  | .build => "BUILD"
  | .walk => "WALK"
  | .pkinit => "PKINIT"
  | .pkput _ => "PKPUT"
  | .pkflush => "PKFLUSH"
  | .upinit => "UPINIT"
  | .upget _ => "UPGET"
  | .encode => "ENCODE"
  | .decode => "DECODE"
  | .ser => "SER"
  | .deser => "DESER"
  | .compress => "COMPRESS"
  | .decompress => "DECOMPRESS"

end Sys2Proof
end

