-- ==== Sys2Proof/WellFormed.lean ====
section
/-! DEFINITION. Well-formed commands: the operand of PKPUT and UPGET is 1..32 (spec 30_encoding.md R103, R106). -/

namespace Sys2Proof

/-- The legal values of the operand N are 1..32 (R103). -/
def countLegal (n : BitVec 6) : Bool := decide (1 ≤ n.toNat) && decide (n.toNat ≤ 32)

/-- A command some word of R104 encodes. -/
def Instr.wf : Instr → Bool
  | .pkput n => countLegal n
  | .upget n => countLegal n
  | .nop | .srst | .count | .build | .walk | .pkinit | .pkflush | .upinit | .encode | .decode | .ser | .deser
  | .compress | .decompress => true

/-- `Instr.wf` as a proposition. -/
abbrev WellFormed (i : Instr) : Prop := i.wf = true

end Sys2Proof
end

