-- ==== Sys2Proof/Decode.lean ====
section
/-! DEFINITION. The decoder of command words and the encoder, from spec 30_encoding.md R102 to R107. -/

namespace Sys2Proof

/-- Why a word is no command: the sub-causes of IllegalCommand in the order R106 tests them. -/
inductive DecodeError where
  /-- Sub-cause 1: the opcode is not one of the sixteen of R104. -/
  | reservedOpcode
  /-- Sub-cause 2: a must-be-zero bit is set. -/
  | reservedBits
  /-- Sub-cause 3: N is outside 1..32. -/
  | badCount
  deriving DecidableEq, Repr

/-- The sub-cause number of R246. -/
def DecodeError.sub : DecodeError → Byte
  | .reservedOpcode => 1#8
  | .reservedBits => 2#8
  | .badCount => 3#8

/-- OPC = w[31:24] (R102, R103). -/
def opcField (w : Word) : Byte := w.extractLsb' 24 8

/-- N = w[5:0] (R103, R105). -/
def countField (w : Word) : BitVec 6 := w.extractLsb' 0 6

/-- Format Z (R102): bits 23:0 must be 0. -/
def decodeZ (w : Word) (i : Instr) : Except DecodeError Instr :=
  if w.extractLsb' 0 24 = 0#24 then .ok i else .error .reservedBits

/-- Format N (R103): bits 23:6 must be 0, then N must be 1..32. -/
def decodeN (w : Word) (f : BitVec 6 → Instr) : Except DecodeError Instr :=
  if w.extractLsb' 6 18 = 0#18 then
    if countLegal (countField w) then .ok (f (countField w)) else .error .badCount
  else .error .reservedBits

/-- The opcode map of R104: the row of an opcode value, as what reads the rest of the word. -/
def decodeWord (w : Word) : Except DecodeError Instr :=
  if opcField w = 0x00#8 then decodeZ w .nop
  else if opcField w = 0x01#8 then decodeZ w .srst
  else if opcField w = 0x10#8 then decodeZ w .count
  else if opcField w = 0x11#8 then decodeZ w .build
  else if opcField w = 0x12#8 then decodeZ w .walk
  else if opcField w = 0x20#8 then decodeZ w .pkinit
  else if opcField w = 0x21#8 then decodeN w .pkput
  else if opcField w = 0x22#8 then decodeZ w .pkflush
  else if opcField w = 0x23#8 then decodeZ w .upinit
  else if opcField w = 0x24#8 then decodeN w .upget
  else if opcField w = 0x28#8 then decodeZ w .encode
  else if opcField w = 0x29#8 then decodeZ w .decode
  else if opcField w = 0x30#8 then decodeZ w .ser
  else if opcField w = 0x31#8 then decodeZ w .deser
  else if opcField w = 0x40#8 then decodeZ w .compress
  else if opcField w = 0x41#8 then decodeZ w .decompress
  else .error .reservedOpcode

/-- The OPC of a command (R104). -/
def Instr.opcode : Instr → Byte
  | .nop => 0x00#8
  | .srst => 0x01#8
  | .count => 0x10#8
  | .build => 0x11#8
  | .walk => 0x12#8
  | .pkinit => 0x20#8
  | .pkput _ => 0x21#8
  | .pkflush => 0x22#8
  | .upinit => 0x23#8
  | .upget _ => 0x24#8
  | .encode => 0x28#8
  | .decode => 0x29#8
  | .ser => 0x30#8
  | .deser => 0x31#8
  | .compress => 0x40#8
  | .decompress => 0x41#8

/-- The low 24 bits of a command word: N for format N, 0 for format Z (R102, R103). -/
def Instr.low24 : Instr → BitVec 24
  | .pkput n => 0#18 ++ n
  | .upget n => 0#18 ++ n
  | .nop | .srst | .count | .build | .walk | .pkinit | .pkflush | .upinit | .encode | .decode | .ser | .deser
  | .compress | .decompress => 0#24

/-- The word of a command: OPC in bits 31:24 over the format's low bits (R102, R103). -/
def encode (i : Instr) : Word := i.opcode ++ i.low24

/-- A command word given by its bits, as spec/opcode_table.json numbers them: one 32-bit word, bits above `nbits` 0. -/
def tableWord (nbits w : Nat) : Word := BitVec.ofNat 32 (w % 2 ^ nbits)

/-- The command this decoder reads from a word of the opcode table. -/
def decodeTableWord (nbits w : Nat) : Option Instr :=
  match decodeWord (tableWord nbits w) with
  | .ok i => some i
  | .error _ => none

end Sys2Proof
end

