-- ==== Sys2Proof/Config.lean ====
section
/-! DEFINITION. The fixed parameters of HUFFCORE (spec 00_scope.md R6), the capacities the model's reset state is an
instance of, and the free values: constants with no body, so that no proof can lean on a value of theirs. -/

namespace Sys2Proof

/-- ALPHABET: the number of symbols (R6). -/
def Config.alphabet : Nat := 256

/-- NODE_MAX: the number of records of the node memory (R6). -/
def Config.nodeMax : Nat := 511

/-- CLEN_MAX: the longest code, in bits, of a codebook (R6). -/
def Config.clenMax : Nat := 255

/-- L_MAX = 2^32 - 1: the largest legal logical bit length (R6). -/
def Config.lMax : Nat := 4294967295

/-- TBL_VER: the version byte of the serialized codebook (R6, R112). -/
def Config.tblVer : Byte := 0x01#8

/-- The constant the ID register reads (R31). -/
def Config.idWord : Word := 0x48430101#32

/-- The SRC_CAP of the instance that `State.reset` describes. R6 leaves it OPEN: DESIGN CHOICE, log entry 1. -/
def Config.srcCap : Word := 64#32

/-- The DST_CAP of the instance that `State.reset` describes. R6 leaves it OPEN: DESIGN CHOICE, log entry 1. -/
def Config.dstCap : Word := 64#32

/-- The PAY_CAP of the instance that `State.reset` describes. R6 leaves it OPEN: DESIGN CHOICE, log entry 1. -/
def Config.payCap : Word := 64#32

/-- FREE VALUE (log entry 2): the `place`-th unspecified value of width `w` of the `draw`-th event after which the spec
leaves values unspecified (R24, R41, R43, R56, R81, R234, R253). -/
opaque Config.freeBits (w draw place : Nat) : BitVec w

/-- FREE VALUE (log entry 3): the byte that entry `index` of a byte memory holds as long as nothing has written it since
its contents became unspecified for the `epoch`-th time; epoch 0 is power-on (R56, R282, R285). -/
opaque Config.freeByte (space : Space) (epoch index : Nat) : Byte

end Sys2Proof
end

