-- ==== Sys2Proof/Machine/State.lean ====
section
/-! DEFINITION. The state of HUFFCORE as plain data: every register, flag, table and buffer of spec 10_state.md, with the
host's script (46_system.md R237), and the state after reset (70_reset_and_hazards.md R281). -/

namespace Sys2Proof.Machine

/-- Why the machine is stuck: it has no next state. -/
inductive Fault where
  /-- Raised by WALK (and by the WALK stage of COMPRESS) when the records below NODE[ROOT] form a cycle, so that the
  traversal of R161 has no end. SAFE: R164 and R165 say that no tree BUILD makes is one (log entry 6). -/
  | walkNeverEnds
  deriving DecidableEq, Repr

/-- Why the model has no meaning for what it is asked to do. -/
inductive Refusal where
  /-- An instruction whose meaning is not written: raised in exec's arm only. SAFE. -/
  | notModelled (mnemonic : String)
  /-- A host access other than a write to CMD, a read of STATUS or a reset while BUSY = 1: R81 and R291, "a model gives
  the host no such move". Raised by the host port. SAFE (log entry 7). -/
  | hostAccessWhileBusy
  deriving DecidableEq, Repr

/-- One record of the node memory (R41). -/
structure NodeRec where
  leaf : Bool
  sym : Byte
  weight : BitVec 40
  left : BitVec 9
  right : BitVec 9
  deriving DecidableEq, Repr, Inhabited

/-- One entry of the codebook memory (R43). The field len is the length of `bits`, which is stored once (log entry 9). -/
structure CodeEntry where
  valid : Bool
  bits : Bits
  deriving DecidableEq, Repr, Inhabited

/-- The frequency table FREQ (R40). -/
abbrev FreqTable := Vector Word 256

/-- The node memory NODE (R41). -/
abbrev NodeTable := Vector NodeRec 511

/-- The codebook memory CODE (R43). -/
abbrev CodeTable := Vector CodeEntry 256

/-- A byte memory (R53 to R55): the bytes written since its contents became unspecified for the `epoch`-th time, by
strictly rising index. An index that is not listed holds a free value (R56, log entry 3). -/
structure Memory where
  cells : List Host.Cell
  epoch : Nat
  deriving DecidableEq, Repr, Inhabited

/-- The flags of STATUS (R32). -/
structure Status where
  busy : Bool
  err : Bool
  treeValid : Bool
  codeValid : Bool
  payValid : Bool
  pkOpen : Bool
  upOpen : Bool
  deriving DecidableEq, Repr, Inhabited

/-- The fields of ERR (R33). -/
structure ErrReg where
  op : Byte
  cmd : Byte
  sub : Byte
  code : Byte
  deriving DecidableEq, Repr, Inhabited

/-- The block of 10_state.md, and below it the host's own state. -/
structure State where
  /-- SRC_LEN (R21). -/
  srcLen : Word
  /-- DST_LEN (R21). -/
  dstLen : Word
  /-- BITLEN (R21, R22). -/
  bitLen : Word
  /-- PAY_LEN (R21). -/
  payLen : Word
  /-- NSYM (R21). -/
  nsym : BitVec 9
  /-- NNODE (R21). -/
  nnode : BitVec 10
  /-- ROOT (R21). -/
  root : BitVec 9
  /-- NCODE (R21). -/
  ncode : BitVec 9
  /-- PKDATA (R21). -/
  pkData : Word
  /-- UPPOS (R21). -/
  upPos : Word
  /-- ACC, the packer's partial byte (R21, R26), not visible to the host. -/
  acc : Byte
  /-- STATUS (R32). -/
  status : Status
  /-- ERR (R33). -/
  err : ErrReg
  /-- ERRINFO (R34). -/
  errInfo : Word
  /-- SRC_CAP, a hard-wired register (R30): no step changes it. -/
  srcCap : Word
  /-- DST_CAP, a hard-wired register (R30): no step changes it. -/
  dstCap : Word
  /-- PAY_CAP, a hard-wired register (R30): no step changes it. -/
  payCap : Word
  /-- FREQ (R40). -/
  freq : FreqTable
  /-- NODE (R41). -/
  node : NodeTable
  /-- CODE (R43). -/
  code : CodeTable
  /-- SRC (R53). -/
  src : Memory
  /-- DST (R54). -/
  dst : Memory
  /-- PAY (R55). -/
  pay : Memory
  /-- The host's script (R237): not the block's. -/
  script : List HostOp
  /-- The index of the host's next operation in its script (R29, R237): not the block's. -/
  index : Nat
  /-- What the host's reads returned, oldest first (R234): not the block's. -/
  reads : List Word
  /-- The model's own counter of events that left values unspecified: the free values are read at it (log entry 2). -/
  draws : Nat
  deriving DecidableEq, Repr

/-- All flags 0 (R281). -/
def Status.reset : Status :=
  { busy := false, err := false, treeValid := false, codeValid := false, payValid := false, pkOpen := false
    upOpen := false }

/-- ERR = 0: no fault latched (R281). -/
def ErrReg.reset : ErrReg := { op := 0#8, cmd := 0#8, sub := 0#8, code := 0#8 }

/-- A NODE record at reset: R281 lets a model take all-zero (log entry 4). -/
def NodeRec.reset : NodeRec := { leaf := false, sym := 0#8, weight := 0#40, left := 0#9, right := 0#9 }

/-- A CODE entry at reset, and an entry that is not valid: R281 lets a model take all-zero (log entry 4). -/
def CodeEntry.invalid : CodeEntry := { valid := false, bits := [] }

/-- A byte memory at power-on: no byte of it is specified (R56, R282). -/
def Memory.powerOn : Memory := { cells := [], epoch := 0 }

/-- The state after power-on reset (R281), of the instance of Config's capacities (log entry 1), with an empty script. -/
def State.reset : State :=
  { srcLen := 0#32, dstLen := 0#32, bitLen := 0#32, payLen := 0#32
    nsym := 0#9, nnode := 0#10, root := 0#9, ncode := 0#9
    pkData := 0#32, upPos := 0#32, acc := 0#8
    status := Status.reset, err := ErrReg.reset, errInfo := 0#32
    srcCap := Config.srcCap, dstCap := Config.dstCap, payCap := Config.payCap
    freq := Vector.replicate 256 0#32
    node := Vector.replicate 511 NodeRec.reset
    code := Vector.replicate 256 CodeEntry.invalid
    src := Memory.powerOn, dst := Memory.powerOn, pay := Memory.powerOn
    script := [], index := 0, reads := [], draws := 0 }

end Sys2Proof.Machine
end

