-- ==== Sys2Proof/Machine/Flags.lean ====
section
/-! DEFINITION. The flags of STATUS and the words of STATUS and ERR (spec 10_state.md R32, R33): what sets and clears each
flag, and the flags a command requires (60_exceptions.md R247). -/

namespace Sys2Proof.Machine

/-- The STATUS register: bit 0 BUSY, 1 ERR, 2 TREE_VALID, 3 CODE_VALID, 4 PAY_VALID, 5 PK_OPEN, 6 UP_OPEN, 31:7 read 0
(R32). -/
def statusWord (f : Status) : Word :=
  0#25 ++ BitVec.ofBool f.upOpen ++ BitVec.ofBool f.pkOpen ++ BitVec.ofBool f.payValid ++ BitVec.ofBool f.codeValid ++
    BitVec.ofBool f.treeValid ++ BitVec.ofBool f.err ++ BitVec.ofBool f.busy

/-- The flags with the five that a fault or a running command leaves unspecified (R81, R253) taken from the bits of u. -/
def Status.withFreeFlags (f : Status) (u : Word) : Status :=
  { f with treeValid := u.getLsbD 2, codeValid := u.getLsbD 3, payValid := u.getLsbD 4, pkOpen := u.getLsbD 5
           upOpen := u.getLsbD 6 }

/-- The ERR register: OP in bits 31:24, CMD in 23:16, SUB in 15:8, CODE in 7:0 (R33). -/
def errWord (e : ErrReg) : Word := e.op ++ e.cmd ++ e.sub ++ e.code

/-- BUSY <- 1 (R101 step 3). -/
def Status.busyOn (f : Status) : Status := { f with busy := true }

/-- BUSY <- 0 (R101 step 7). -/
def Status.busyOff (f : Status) : Status := { f with busy := false }

/-- TREE_VALID <- 0: COUNT and a host write to FREQ (R32, R40, R141). -/
def Status.clearTree (f : Status) : Status := { f with treeValid := false }

/-- TREE_VALID <- 1: BUILD (R148). -/
def Status.setTree (f : Status) : Status := { f with treeValid := true }

/-- The flags WALK writes (R161): a new codebook, and no payload that goes with it. -/
def Status.walked (f : Status) : Status := { f with codeValid := true, payValid := false, upOpen := false }

/-- The flags PKINIT writes (R174). -/
def Status.packOpened (f : Status) : Status := { f with pkOpen := true, payValid := false, upOpen := false }

/-- The flags PKFLUSH writes (R177). -/
def Status.packClosed (f : Status) : Status := { f with pkOpen := false, payValid := true }

/-- The flag UPINIT writes (R178). -/
def Status.unpackOpened (f : Status) : Status := { f with upOpen := true }

/-- The flags ENCODE and DESER clear at their start (R195, R206). -/
def Status.payloadDropped (f : Status) : Status := { f with payValid := false, pkOpen := false, upOpen := false }

/-- PAY_VALID <- 1: the end of ENCODE (R206). -/
def Status.setPay (f : Status) : Status := { f with payValid := true }

/-- The flags DESER sets at its end (R195). -/
def Status.loaded (f : Status) : Status := { f with codeValid := true, payValid := true }

/-- The flag DECODE clears (R208). -/
def Status.unpackClosed (f : Status) : Status := { f with upOpen := false }

/-- The flags of the empty-input path of COMPRESS (R212). -/
def Status.emptyPacked (f : Status) : Status :=
  { f with codeValid := true, payValid := true, pkOpen := false, upOpen := false }

/-- The flags a command requires (R247). -/
def prerequisite (i : Instr) (f : Status) : Bool :=
  match i with
  | .nop | .srst | .count | .build | .pkinit | .deser | .compress | .decompress => true
  | .walk => f.treeValid
  | .encode => f.codeValid
  | .pkput _ | .pkflush => f.pkOpen
  | .upinit => f.payValid
  | .upget _ => f.upOpen
  | .ser | .decode => f.codeValid && f.payValid

end Sys2Proof.Machine
end

