-- ==== Sys2Proof/Machine/Operands.lean ====
section
/-! DEFINITION. Bit sequences, their values and their layout in bytes, big-endian fields, and the operand of PKPUT and
UPGET (spec 00_scope.md R7 to R11, 20_memory.md R74, R75, R90, 43_bitpack.md R175, R179). -/

namespace Sys2Proof.Machine

/-- ceil(n / 8) (R7). -/
def ceil8 (n : Nat) : Nat := (n + 7) / 8

/-- The padding bits of a sequence of n bits, (8 - n mod 8) mod 8 (R169, R172). -/
def padding (n : Nat) : Nat := (8 - n % 8) % 8

/-- val(b): the unsigned integer whose numeral is b, first bit most significant (R10). -/
def bitsVal (b : Bits) : Nat := b.foldl (fun a x => 2 * a + x.toNat) 0

/-- The n low bits of v, the most significant of them first: v[n-1], ..., v[0] (R175). -/
def lowBits (n v : Nat) : Bits := (List.range n).map fun j => v.testBit (n - 1 - j)

/-- The group of `width` bits of b that starts at bit k, positions past its end read as 0 (R90, R113, R121). -/
def bitGroup (b : Bits) (k width : Nat) : Bits := (List.range width).map fun j => b.getD (k + j) false

/-- Bytes(b): b padded with zero bits to whole bytes, first bit in bit 7 of the first byte (R9, R90). -/
def bytesOf (b : Bits) : List Byte :=
  (List.range (ceil8 b.length)).map fun i => BitVec.ofNat 8 (bitsVal (bitGroup b (8 * i) 8))

/-- The n-byte big-endian form of v (R11, R89). -/
def bigEndian (n v : Nat) : List Byte :=
  (List.range n).map fun i => BitVec.ofNat 8 (v / 256 ^ (n - 1 - i) % 256)

/-- The bit sequence PKPUT n appends: PKDATA[n-1], ..., PKDATA[0] (R175). -/
def putOperand (n : BitVec 6) (pkData : Word) : Bits := lowBits n.toNat pkData.toNat

/-- The value UPGET leaves in PKDATA: zext_32(val(b)) (R179). -/
def getResult (b : Bits) : Word := BitVec.ofNat 32 (bitsVal b)

end Sys2Proof.Machine
end

