-- ==== Sys2Proof/Machine/Ops.lean ====
section
/-! DEFINITION. The operations the meanings share: the byte memories (spec 20_memory.md R88 to R90), the tables, a raise
and the fault entry (60_exceptions.md R241, R250, R253), the reset (70_reset_and_hazards.md R281, R282, R285), and the
acceptance of a command (30_encoding.md R101). -/

namespace Sys2Proof.Machine

/-! ## Byte memories -/

/-- The byte listed at index a. -/
def cellAt : List Host.Cell → Nat → Option Byte
  | [], _ => none
  | (b, v) :: rest, a => if b = a then some v else cellAt rest a

/-- The cells with v at index a, in rising order of index. -/
def putCell : List Host.Cell → Nat → Byte → List Host.Cell
  | [], a, v => [(a, v)]
  | (b, w) :: rest, a, v =>
    if a < b then (a, v) :: (b, w) :: rest
    else if a = b then (a, v) :: rest
    else (b, w) :: putCell rest a v

/-- The indices of the cells, which all are at least `low`, rise strictly. -/
def risingFrom : Nat → List Host.Cell → Bool
  | _, [] => true
  | low, (a, _) :: rest => decide (low ≤ a) && risingFrom (a + 1) rest

/-- The canonical form of a byte memory: strictly rising indices. No cell equals what an unlisted index reads as, since
that holds no value of its own (log entry 3). -/
def Memory.wf (m : Memory) : Bool := risingFrom 0 m.cells

/-- Every listed index is below the capacity of the memory (R70). -/
def Memory.within (m : Memory) (cap : Nat) : Bool := m.cells.all fun c => decide (c.1 < cap)

/-- M[a] (R12, R88): what the memory of a space holds at index a, a free value where nothing has been written (R56). -/
def readByte (space : Space) (m : Memory) (a : Nat) : Byte := (cellAt m.cells a).getD (Config.freeByte space m.epoch a)

/-- M[a] <- v (R12, R89). -/
def writeByte (m : Memory) (a : Nat) (v : Byte) : Memory := { m with cells := putCell m.cells a v }

/-- The bytes bs written from index a upward (R89). -/
def writeBytes (m : Memory) (a : Nat) : List Byte → Memory
  | [] => m
  | b :: rest => writeBytes (writeByte m a b) (a + 1) rest

/-- The n bytes from index a, in rising order (R88). -/
def readBytes (space : Space) (m : Memory) (a n : Nat) : List Byte :=
  (List.range n).map fun i => readByte space m (a + i)

/-- The unsigned integer a byte sequence is the big-endian form of (R88). -/
def bytesVal (bs : List Byte) : Nat := bs.foldl (fun acc b => 256 * acc + b.toNat) 0

/-- MemRead(M, a, n) (R88). -/
def memRead (space : Space) (m : Memory) (a n : Nat) : Nat := bytesVal (readBytes space m a n)

/-- MemWrite(M, a, n, v) (R89). -/
def memWrite (m : Memory) (a n v : Nat) : Memory := writeBytes m a (bigEndian n v)

/-- BitRead(M, a, k): bit 7 - (k mod 8) of M[a + (k div 8)] (R90). -/
def bitRead (space : Space) (m : Memory) (a k : Nat) : Bool := (readByte space m (a + k / 8)).getLsbD (7 - k % 8)

/-- BitsRead(M, a, k, n) (R90). -/
def bitsRead (space : Space) (m : Memory) (a k n : Nat) : Bits :=
  (List.range n).map fun j => bitRead space m a (k + j)

/-- A memory whose contents have become unspecified (R253, R285). -/
def Memory.forgotten (draw : Nat) : Memory := { cells := [], epoch := draw + 1 }

/-- SRC[0..SRC_LEN) (R53). -/
def srcBytes (s : State) : List Byte := readBytes .src s.src 0 s.srcLen.toNat

/-- PAY[0..PAY_LEN) (R55). -/
def payBytes (s : State) : List Byte := readBytes .pay s.pay 0 s.payLen.toNat

/-- DST[0..DST_LEN) (R54). -/
def dstBytes (s : State) : List Byte := readBytes .dst s.dst 0 s.dstLen.toNat

/-! ## Tables -/

/-- T[i] (R12). -/
def entryAt {α : Type} [Inhabited α] {n : Nat} (t : Vector α n) (i : Nat) : α := t[i]?.getD default

/-- T[i] <- v (R12). -/
def putEntry {α : Type} {n : Nat} (t : Vector α n) (i : Nat) (v : α) : Vector α n := t.setIfInBounds i v

/-- A table given by its entries. -/
def tableOf {α : Type} (n : Nat) (f : Nat → α) : Vector α n := ⟨⟨(List.range n).map f⟩, by simp⟩

/-- FREQ with every entry 0 (R141). -/
def zeroFreq : FreqTable := Vector.replicate 256 0#32

/-- CODE with no valid entry (R161, R195, R212). -/
def emptyCode : CodeTable := Vector.replicate 256 CodeEntry.invalid

/-! ## Raising a fault -/

/-- The seven causes of R241. -/
inductive Cause where
  | emptyInput
  | sizeLimitExceeded
  | corruptTable
  | truncatedStream
  | illegalCommand
  | badSequence
  | capacityExceeded
  deriving DecidableEq, Repr

/-- ERR.CODE of a cause (R241). -/
def causeCode : Cause → Byte
  | .emptyInput => 1#8
  | .sizeLimitExceeded => 2#8
  | .corruptTable => 3#8
  | .truncatedStream => 4#8
  | .illegalCommand => 5#8
  | .badSequence => 6#8
  | .capacityExceeded => 7#8

/-- What a `raise` tells the fault entry: the opcode of the unit command or stage executing (ERR.OP), the cause, its
sub-cause and the information word (R12, R33, R250). -/
structure Raised where
  op : Byte
  cause : Cause
  sub : Byte
  info : Word
  deriving DecidableEq, Repr

/-- How the body of a command ends before its last line: at a `raise`, or never. -/
inductive Stop where
  | raised (r : Raised)
  | stuck (f : Fault)
  deriving DecidableEq, Repr

/-- `raise cause(sub, info)` in the command or stage whose opcode is op; info is stored mod 2^32 (R250). -/
def raise {α : Type} (op : Byte) (cause : Cause) (sub : Byte) (info : Nat) : Except Stop α :=
  .error (.raised { op := op, cause := cause, sub := sub, info := BitVec.ofNat 32 info })

/-! ## Fault entry and reset -/

/-- A free flag (R253). -/
def freeFlag (draw place : Nat) : Bool := Config.freeBits 1 draw place = 1#1

/-- A free NODE record (R253). -/
def freeNode (draw i : Nat) : NodeRec :=
  { leaf := freeFlag draw (1000 + 5 * i), sym := Config.freeBits 8 draw (1001 + 5 * i)
    weight := Config.freeBits 40 draw (1002 + 5 * i), left := Config.freeBits 9 draw (1003 + 5 * i)
    right := Config.freeBits 9 draw (1004 + 5 * i) }

/-- A free CODE entry (R253): a free length of at most 255 and that many free bits. -/
def freeCode (draw i : Nat) : CodeEntry :=
  { valid := freeFlag draw (4000 + 3 * i)
    bits := (lowBits 255 (Config.freeBits 255 draw (4001 + 3 * i)).toNat).take
      (Config.freeBits 8 draw (4002 + 3 * i)).toNat }

/-- Fault entry (R250): ERR, ERRINFO, STATUS.ERR and STATUS.BUSY are written; SRC, SRC_LEN and the capacities keep their
values; every other register, flag, table and buffer of the block takes a free value (R253, log entry 5). -/
def faultEntry (cmd : Byte) (r : Raised) (s : State) : State :=
  { s with
    err := { op := r.op, cmd := cmd, sub := r.sub, code := causeCode r.cause }
    errInfo := r.info
    status :=
      { busy := false, err := true
        treeValid := freeFlag s.draws 0, codeValid := freeFlag s.draws 1, payValid := freeFlag s.draws 2
        pkOpen := freeFlag s.draws 3, upOpen := freeFlag s.draws 4 }
    dstLen := Config.freeBits 32 s.draws 5
    bitLen := Config.freeBits 32 s.draws 6
    payLen := Config.freeBits 32 s.draws 7
    nsym := Config.freeBits 9 s.draws 8
    nnode := Config.freeBits 10 s.draws 9
    root := Config.freeBits 9 s.draws 10
    ncode := Config.freeBits 9 s.draws 11
    pkData := Config.freeBits 32 s.draws 12
    upPos := Config.freeBits 32 s.draws 13
    acc := Config.freeBits 8 s.draws 14
    freq := tableOf 256 fun i => Config.freeBits 32 s.draws (100 + i)
    node := tableOf 511 (freeNode s.draws)
    code := tableOf 256 (freeCode s.draws)
    dst := Memory.forgotten s.draws
    pay := Memory.forgotten s.draws
    draws := s.draws + 1 }

/-- The reset of R281: every register, flag and table at its reset value; SRC, DST and PAY are not written (R282), the
capacities are the instance's constants, and the host's own state is the host's. -/
def resetBlock (s : State) : State :=
  { State.reset with
    srcCap := s.srcCap, dstCap := s.dstCap, payCap := s.payCap
    src := s.src, dst := s.dst, pay := s.pay
    script := s.script, index := s.index, reads := s.reads, draws := s.draws }

/-- A hardware reset while a command runs (R285): the reset state, with DST and PAY unspecified. -/
def abandonCommand (s : State) : State :=
  { resetBlock s with
    dst := Memory.forgotten s.draws, pay := Memory.forgotten s.draws, draws := s.draws + 1 }

/-- Hardware reset (R280): at any point, the one that abandons a running command included. -/
def hardReset (s : State) : State := if s.status.busy then abandonCommand s else resetBlock s

/-! ## Acceptance of a command -/

/-- Whether a CMD write other than SRST is taken at all: not while BUSY = 1, not while ERR = 1 (R101 steps 1 and 2,
R252). -/
def accepting (s : State) : Bool := !s.status.busy && !s.status.err

/-- BUSY <- 1 (R101 step 3). -/
def begin (s : State) : State := { s with status := s.status.busyOn }

/-- BUSY <- 0 (R101 step 7). -/
def finish (s : State) : State := { s with status := s.status.busyOff }

/-- Steps 4 to 6 of R101 for a command: its operand, its prerequisites (R247), then its rule. -/
def runRule (i : Instr) (body : State → Except Stop State) (s : State) : Except Stop State :=
  if i.wf = false then raise i.opcode .illegalCommand 3#8 (encode i).toNat
  else if prerequisite i s.status = false then raise i.opcode .badSequence 0#8 (encode i).toNat
  else body s

/-- A command presented to the block (R101): dropped while BUSY or ERR is set; else its rule runs as one atomic step, to
its end or to its first raise (R80, R250). -/
def command (i : Instr) (body : State → Except Stop State) (s : State) : Host.Outcome State Fault Refusal :=
  if accepting s then
    match runRule i body (begin s) with
    | .ok t => .next (finish t)
    | .error (.raised r) => .next (faultEntry i.opcode r s)
    | .error (.stuck f) => .fault f
  else .next s

/-- A word that is no command, presented to the block: IllegalCommand (R106, R246). -/
def illegalWord (w : Word) (e : DecodeError) (s : State) : State :=
  if accepting s then
    faultEntry (opcField w) { op := opcField w, cause := .illegalCommand, sub := e.sub, info := w } s
  else s

/-- The test of every command that scans SRC (R27, R248). -/
def needSrcFits (op : Byte) (s : State) : Except Stop Unit :=
  if s.srcLen.toNat ≤ s.srcCap.toNat then .ok () else raise op .capacityExceeded 1#8 s.srcLen.toNat

end Sys2Proof.Machine
end

