-- ==== Sys2Proof/Machine/BitPack.lean ====
section
/-! DEFINITION. Unit BP: the packer and unpacker primitives and PKINIT, PKPUT, PKFLUSH, UPINIT, UPGET (spec
43_bitpack.md R169 to R181). -/

namespace Sys2Proof.Machine

/-- pk_init() (R170). -/
def pkInit (s : State) : State := { s with bitLen := 0#32, acc := 0#8, payLen := 0#32 }

/-- ACC with bit b in its next free position, most significant first (R171). -/
def accWith (acc : Byte) (r : Nat) (b : Bool) : Byte := acc ||| (BitVec.ofBool b).setWidth 8 <<< (7 - r)

/-- One pass of the loop of pk_push (R171): the bit goes into ACC, and a full ACC goes into PAY. -/
def pkBit (s : State) (b : Bool) : State :=
  let acc := accWith s.acc (s.bitLen.toNat % 8) b
  let len := s.bitLen.toNat + 1
  if len % 8 = 0 then
    { s with pay := writeByte s.pay (len / 8 - 1) acc, acc := 0#8, bitLen := BitVec.ofNat 32 len }
  else { s with acc := acc, bitLen := BitVec.ofNat 32 len }

/-- pk_push(b) (R171), in the command or stage whose opcode is op. -/
def pkPush (op : Byte) (b : Bits) (s : State) : Except Stop State :=
  if Config.lMax < s.bitLen.toNat + b.length then raise op .sizeLimitExceeded 0#8 s.bitLen.toNat
  else if s.payCap.toNat < ceil8 (s.bitLen.toNat + b.length) then raise op .capacityExceeded 2#8 0
  else .ok (b.foldl pkBit s)

/-- pk_flush() (R172). -/
def pkFlush (s : State) : State :=
  { s with
    pay := if s.bitLen.toNat % 8 = 0 then s.pay else writeByte s.pay (s.bitLen.toNat / 8) s.acc
    payLen := BitVec.ofNat 32 (ceil8 s.bitLen.toNat)
    acc := 0#8 }

/-- up_init() (R176), in the command or stage whose opcode is op. -/
def upInit (op : Byte) (s : State) : Except Stop State :=
  if ceil8 s.bitLen.toNat ≤ s.payLen.toNat then .ok { s with upPos := 0#32 }
  else raise op .truncatedStream 1#8 s.payLen.toNat

/-- The bits up_bits(n) returns (R180). -/
def upBits (n : Nat) (s : State) : Bits := bitsRead .pay s.pay 0 s.upPos.toNat n

/-- The rule of PKINIT (R174). -/
def pkinitRule (s : State) : Except Stop State := .ok { pkInit s with status := s.status.packOpened }

/-- PKINIT (R174). -/
def execPkinit (s : State) : Host.Outcome State Fault Refusal := command .pkinit pkinitRule s

/-- The rule of PKPUT n (R175). -/
def pkputRule (n : BitVec 6) (s : State) : Except Stop State := pkPush 0x21#8 (putOperand n s.pkData) s

/-- PKPUT n (R175). -/
def execPkput (n : BitVec 6) (s : State) : Host.Outcome State Fault Refusal := command (.pkput n) (pkputRule n) s

/-- The rule of PKFLUSH (R177). -/
def pkflushRule (s : State) : Except Stop State := .ok { pkFlush s with status := s.status.packClosed }

/-- PKFLUSH (R177). -/
def execPkflush (s : State) : Host.Outcome State Fault Refusal := command .pkflush pkflushRule s

/-- The rule of UPINIT (R178). -/
def upinitRule (s : State) : Except Stop State :=
  match upInit 0x23#8 s with
  | .error e => .error e
  | .ok t => .ok { t with status := t.status.unpackOpened }

/-- UPINIT (R178). -/
def execUpinit (s : State) : Host.Outcome State Fault Refusal := command .upinit upinitRule s

/-- The rule of UPGET n (R179). -/
def upgetRule (n : BitVec 6) (s : State) : Except Stop State :=
  if s.upPos.toNat + n.toNat ≤ s.bitLen.toNat then
    .ok { s with pkData := getResult (upBits n.toNat s), upPos := BitVec.ofNat 32 (s.upPos.toNat + n.toNat) }
  else raise 0x24#8 .truncatedStream 3#8 s.upPos.toNat

/-- UPGET n (R179). -/
def execUpget (n : BitVec 6) (s : State) : Host.Outcome State Fault Refusal := command (.upget n) (upgetRule n) s

end Sys2Proof.Machine
end

