-- ==== Sys2Proof/Machine/Codebook.lean ====
section
/-! DEFINITION. Unit CG: WALK (spec 42_codebook.md R160 to R165). -/

namespace Sys2Proof.Machine

/-- The depth-first walk of R160 and R161 from node i, reached by `path`: left subtree first, each leaf's path stored as
its symbol's code. `fuel` bounds the depth; a walk deeper than there are nodes has met a cycle and has no end: none. -/
def walkFrom (node : NodeTable) : Nat → Nat → Bits → CodeTable → Option CodeTable
  | 0, _, _, _ => none
  | fuel + 1, i, path, code =>
    if (entryAt node i).leaf then
      some (putEntry code (entryAt node i).sym.toNat { valid := true, bits := path })
    else
      match walkFrom node fuel (entryAt node i).left.toNat (path ++ [false]) code with
      | none => none
      | some code' => walkFrom node fuel (entryAt node i).right.toNat (path ++ [true]) code'

/-- The codebook of a tree (R161): the one-symbol tree gets the code "0" (R162). -/
def walkTree (node : NodeTable) (root : Nat) : Option CodeTable :=
  if (entryAt node root).leaf then
    some (putEntry emptyCode (entryAt node root).sym.toNat { valid := true, bits := [false] })
  else walkFrom node (Config.nodeMax + 1) root [] emptyCode

/-- The rule of WALK (R161). -/
def walkRule (s : State) : Except Stop State :=
  match walkTree s.node s.root.toNat with
  | none => .error (.stuck .walkNeverEnds)
  | some code => .ok { s with code := code, ncode := s.nsym, status := s.status.walked }

/-- WALK (R161). -/
def execWalk (s : State) : Host.Outcome State Fault Refusal := command .walk walkRule s

end Sys2Proof.Machine
end

