-- ==== Sys2Proof/Machine/Container.lean ====
section
/-! DEFINITION. Unit CS: SER and DESER (spec 44_container.md R190 to R200, 30_encoding.md R110 to R114). -/

namespace Sys2Proof.Machine

/-- The table records of the entries from symbol s upward: SYM, CLEN, CBITS for each valid one (R112, R113, R192). -/
def serRecords : List CodeEntry → Nat → List Byte
  | [], _ => []
  | e :: rest, s =>
    if e.valid then
      BitVec.ofNat 8 s :: BitVec.ofNat 8 e.bits.length :: (bytesOf e.bits ++ serRecords rest (s + 1))
    else serRecords rest (s + 1)

/-- SerTable(CODE) (R192). -/
def serTable (code : CodeTable) (ncode : BitVec 9) : List Byte :=
  Config.tblVer :: (bigEndian 2 ncode.toNat ++ serRecords code.toList 0)

/-- The rule of SER (R191). -/
def serRule (s : State) : Except Stop State :=
  let t := serTable s.code s.ncode
  let total := 4 + t.length + 4 + s.payLen.toNat
  if total ≤ s.dstCap.toNat then
    let d0 := memWrite s.dst 0 4 t.length
    let d1 := writeBytes d0 4 t
    let d2 := memWrite d1 (4 + t.length) 4 s.bitLen.toNat
    let d3 := writeBytes d2 (8 + t.length) (payBytes s)
    .ok { s with dst := d3, dstLen := BitVec.ofNat 32 total }
  else raise 0x30#8 .capacityExceeded 3#8 0

/-- SER (R191). -/
def execSer (s : State) : Host.Outcome State Fault Refusal := command .ser serRule s

/-- Neither bit sequence is a prefix of the other (R10, R196). -/
def unrelated (b c : Bits) : Bool := !b.isPrefixOf c && !c.isPrefixOf b

/-- No listed sequence is a prefix of another listed one (R196). -/
def prefixFreeList : List Bits → Bool
  | [] => true
  | b :: rest => rest.all (unrelated b) && prefixFreeList rest

/-- The codes of the valid entries, by ascending symbol (R43). -/
def validCodes (code : CodeTable) : List Bits := (code.toList.filter (·.valid)).map (·.bits)

/-- PrefixFree(CODE) (R196). -/
def prefixFree (code : CodeTable) : Bool := prefixFreeList (validCodes code)

/-- What the record loop of DESER works on: the parse pointer p, the least symbol the next record may have (prev + 1),
the entries read so far (R195). -/
structure Parse where
  p : Nat
  least : Nat
  code : CodeTable
  deriving DecidableEq, Repr

/-- One pass of the record loop of R195; e is the index of the first byte after the table. -/
def deserRecord (src : Memory) (e : Nat) (t : Parse) : Except Stop Parse :=
  if e - t.p < 2 then raise 0x31#8 .corruptTable 6#8 t.p
  else
    let s := (readByte .src src t.p).toNat
    let cl := (readByte .src src (t.p + 1)).toNat
    if s < t.least then raise 0x31#8 .corruptTable 7#8 t.p
    else if cl = 0 then raise 0x31#8 .corruptTable 8#8 (t.p + 1)
    else if e - (t.p + 2) < ceil8 cl then raise 0x31#8 .corruptTable 6#8 (t.p + 2)
    else if (bitsRead .src src (t.p + 2) cl (8 * ceil8 cl - cl)).any id then
      raise 0x31#8 .corruptTable 9#8 (t.p + 2 + ceil8 cl - 1)
    else
      .ok
        { p := t.p + 2 + ceil8 cl, least := s + 1
          code := putEntry t.code s { valid := true, bits := bitsRead .src src (t.p + 2) 0 cl } }

/-- The record loop of R195 for `cnt` records. -/
def deserRecords (src : Memory) (e : Nat) : Nat → Parse → Except Stop Parse
  | 0, t => .ok t
  | cnt + 1, t =>
    match deserRecord src e t with
    | .error x => .error x
    | .ok t' => deserRecords src e cnt t'

/-- The table of a container in SRC (R195): from its first byte, index 4, to e = 4 + T. Its entries and their number. -/
def deserTable (src : Memory) (e : Nat) : Except Stop (CodeTable × Nat) :=
  if e - 4 < 3 then raise 0x31#8 .corruptTable 3#8 4
  else if readByte .src src 4 ≠ Config.tblVer then raise 0x31#8 .corruptTable 4#8 4
  else
    let cnt := memRead .src src 5 2
    if 256 < cnt then raise 0x31#8 .corruptTable 5#8 5
    else
      match deserRecords src e cnt { p := 7, least := 0, code := emptyCode } with
      | .error x => .error x
      | .ok t =>
        if t.p ≠ e then raise 0x31#8 .corruptTable 10#8 t.p
        else if prefixFree t.code = false then raise 0x31#8 .corruptTable 11#8 e
        else .ok (t.code, cnt)

/-- The rule of DESER (R195). -/
def deserRule (s : State) : Except Stop State :=
  match needSrcFits 0x31#8 s with
  | .error x => .error x
  | .ok _ =>
    let n := s.srcLen.toNat
    if n < 4 then raise 0x31#8 .corruptTable 1#8 n
    else
      let size := memRead .src s.src 0 4
      if n - 4 < size then raise 0x31#8 .corruptTable 2#8 4
      else
        let e := 4 + size
        match deserTable s.src e with
        | .error x => .error x
        | .ok (code, cnt) =>
          if n - e < 4 then raise 0x31#8 .corruptTable 12#8 e
          else
            let m := n - e - 4
            if s.payCap.toNat < m then raise 0x31#8 .capacityExceeded 2#8 0
            else
              .ok
                { s with
                  code := code
                  ncode := BitVec.ofNat 9 cnt
                  bitLen := BitVec.ofNat 32 (memRead .src s.src e 4)
                  pay := writeBytes s.pay 0 (readBytes .src s.src (e + 4) m)
                  payLen := BitVec.ofNat 32 m
                  acc := 0#8
                  status := s.status.payloadDropped.loaded }

/-- DESER (R195). -/
def execDeser (s : State) : Host.Outcome State Fault Refusal := command .deser deserRule s

end Sys2Proof.Machine
end

