-- ==== Sys2Proof/Machine/Frequency.lean ====
section
/-! DEFINITION. Unit FM: COUNT (spec 40_frequency.md R140 to R142). -/

namespace Sys2Proof.Machine

/-- FREQ[b] <- FREQ[b] + 1 (R141). -/
def countByte (t : FreqTable) (b : Byte) : FreqTable := putEntry t b.toNat (entryAt t b.toNat + 1#32)

/-- The rule of COUNT (R141). -/
def countRule (s : State) : Except Stop State :=
  match needSrcFits 0x10#8 s with
  | .error e => .error e
  | .ok _ => .ok { s with freq := (srcBytes s).foldl countByte zeroFreq, status := s.status.clearTree }

/-- COUNT (R141). -/
def execCount (s : State) : Host.Outcome State Fault Refusal := command .count countRule s

end Sys2Proof.Machine
end

