-- ==== Sys2Proof/Machine/TreeBuilder.lean ====
section
/-! DEFINITION. Unit TB: BUILD (spec 41_tree_builder.md R145 to R155). -/

namespace Sys2Proof.Machine

/-- One pass of the leaf loop of R148 for symbol s: a leaf at the next free index when FREQ[s] is not 0 (R146). -/
def addLeaf (freq : FreqTable) (acc : Nat × NodeTable) (s : Nat) : Nat × NodeTable :=
  if entryAt freq s = 0#32 then acc
  else
    (acc.1 + 1,
      putEntry acc.2 acc.1
        { leaf := true, sym := BitVec.ofNat 8 s, weight := (entryAt freq s).setWidth 40, left := 0#9, right := 0#9 })

/-- The leaves BUILD creates, in ascending symbol order, and how many (R146, R148). -/
def makeLeaves (freq : FreqTable) (node : NodeTable) : Nat × NodeTable :=
  (List.range Config.alphabet).foldl (addLeaf freq) (0, node)

/-- Node i comes before node j: the order on (weight, index), weight first (R147). -/
def nodeBefore (node : NodeTable) (i j : Nat) : Bool :=
  decide ((entryAt node i).weight.toNat < (entryAt node j).weight.toNat) ||
    (decide ((entryAt node i).weight.toNat = (entryAt node j).weight.toNat) && decide (i < j))

/-- The first in the order of R147 of the candidate `best` and the listed nodes. -/
def leastNode (node : NodeTable) (best : Nat) : List Nat → Nat
  | [] => best
  | i :: rest => leastNode node (if nodeBefore node i best then i else best) rest

/-- Removes a lowest-weight node from the active set (R147): the node, and the rest. -/
def takeLeast (node : NodeTable) : List Nat → Option (Nat × List Nat)
  | [] => none
  | i :: rest => some (leastNode node i rest, (i :: rest).erase (leastNode node i rest))

/-- The internal node with children a and b (R147, R148). -/
def mergedNode (node : NodeTable) (a b : Nat) : NodeRec :=
  { leaf := false, sym := 0#8, weight := (entryAt node a).weight + (entryAt node b).weight
    left := BitVec.ofNat 9 a, right := BitVec.ofNat 9 b }

/-- What the merge loop works on: the node memory, the active set, the next free index. -/
structure Merge where
  node : NodeTable
  active : List Nat
  next : Nat
  deriving DecidableEq, Repr

/-- The merge loop of R148, for at most `fuel` merges: it ends when fewer than two nodes are active. -/
def mergeLoop : Nat → Merge → Merge
  | 0, m => m
  | fuel + 1, m =>
    match takeLeast m.node m.active with
    | none => m
    | some (a, rest) =>
      match takeLeast m.node rest with
      | none => m
      | some (b, rest') =>
        mergeLoop fuel
          { node := putEntry m.node m.next (mergedNode m.node a b), active := rest' ++ [m.next], next := m.next + 1 }

/-- The rule of BUILD (R148); the loop over n active nodes merges n - 1 times (R149). -/
def buildRule (s : State) : Except Stop State :=
  let leaves := makeLeaves s.freq s.node
  if leaves.1 = 0 then raise 0x11#8 .emptyInput 0#8 0
  else
    let m := mergeLoop leaves.1 { node := leaves.2, active := List.range leaves.1, next := leaves.1 }
    .ok
      { s with
        node := m.node
        nsym := BitVec.ofNat 9 leaves.1
        nnode := BitVec.ofNat 10 m.next
        root := BitVec.ofNat 9 (m.active.headD 0)
        status := s.status.setTree }

/-- BUILD (R148). -/
def execBuild (s : State) : Host.Outcome State Fault Refusal := command .build buildRule s

end Sys2Proof.Machine
end

