-- ==== Sys2Proof/Machine/Codec.lean ====
section
/-! DEFINITION. Unit SQ: ENCODE, DECODE and the composites COMPRESS and DECOMPRESS (spec 45_codec.md R205 to R219). -/

namespace Sys2Proof.Machine

/-- The loop of ENCODE from input byte i on (R206). -/
def encodeLoop : List Byte → Nat → State → Except Stop State
  | [], _, s => .ok s
  | b :: rest, i, s =>
    if (entryAt s.code b.toNat).valid then
      match pkPush 0x28#8 (entryAt s.code b.toNat).bits s with
      | .error x => .error x
      | .ok t => encodeLoop rest (i + 1) t
    else raise 0x28#8 .corruptTable 13#8 i

/-- The rule of ENCODE (R206). -/
def encodeRule (s : State) : Except Stop State :=
  match needSrcFits 0x28#8 s with
  | .error x => .error x
  | .ok _ =>
    match encodeLoop (srcBytes s) 0 (pkInit { s with status := s.status.payloadDropped }) with
    | .error x => .error x
    | .ok t => .ok { pkFlush t with status := t.status.setPay }

/-- ENCODE (R206). -/
def execEncode (s : State) : Host.Outcome State Fault Refusal := command .encode encodeRule s

/-- The first symbol from s upward whose valid code is `cand`. -/
def revFrom (cand : Bits) : List CodeEntry → Nat → Option Byte
  | [], _ => none
  | e :: rest, s => if e.valid && e.bits == cand then some (BitVec.ofNat 8 s) else revFrom cand rest (s + 1)

/-- rev(cand), the reverse codebook (R52, R209). -/
def rev (code : CodeTable) (cand : Bits) : Option Byte := revFrom cand code.toList 0

/-- The loop of DECODE (R208) over the bits still to come: `cand` is the candidate buffer, `out` the symbols emitted. The
result is the symbols DST holds at the end. -/
def decodeLoop (code : CodeTable) (cap : Nat) : Bits → Bits → List Byte → Except Stop (List Byte)
  | [], cand, out => if cand = [] then .ok out else raise 0x29#8 .truncatedStream 2#8 cand.length
  | b :: rest, cand, out =>
    match rev code (cand ++ [b]) with
    | none => decodeLoop code cap rest (cand ++ [b]) out
    | some sym =>
      if out.length < cap then decodeLoop code cap rest [] (out ++ [sym])
      else raise 0x29#8 .capacityExceeded 3#8 0

/-- The rule of DECODE (R208): every bit of the payload is delivered, so UPPOS ends at BITLEN (R180). -/
def decodeRule (s : State) : Except Stop State :=
  match upInit 0x29#8 { s with status := s.status.unpackClosed } with
  | .error x => .error x
  | .ok t =>
    match decodeLoop t.code t.dstCap.toNat (upBits t.bitLen.toNat t) [] [] with
    | .error x => .error x
    | .ok out =>
      .ok { t with dst := writeBytes t.dst 0 out, dstLen := BitVec.ofNat 32 out.length, upPos := t.bitLen }

/-- DECODE (R208). -/
def execDecode (s : State) : Host.Outcome State Fault Refusal := command .decode decodeRule s

/-- The empty-input path of COMPRESS (R212, R214). -/
def compressEmpty (s : State) : State :=
  { pkFlush (pkInit s) with
    code := emptyCode, ncode := 0#9, nsym := 0#9, nnode := 0#10, root := 0#9, status := s.status.emptyPacked }

/-- The stages of COMPRESS between COUNT and SER (R212). -/
def compressMiddle (s : State) : Except Stop State :=
  if s.srcLen = 0#32 then .ok (compressEmpty s)
  else
    match buildRule s with
    | .error x => .error x
    | .ok t =>
      match walkRule t with
      | .error x => .error x
      | .ok u => encodeRule u

/-- The rule of COMPRESS (R212): the stages in order, each without its prerequisite step. -/
def compressRule (s : State) : Except Stop State :=
  match countRule s with
  | .error x => .error x
  | .ok t =>
    match compressMiddle t with
    | .error x => .error x
    | .ok u => serRule u

/-- COMPRESS (R212). -/
def execCompress (s : State) : Host.Outcome State Fault Refusal := command .compress compressRule s

/-- The rule of DECOMPRESS (R216). -/
def decompressRule (s : State) : Except Stop State :=
  match deserRule s with
  | .error x => .error x
  | .ok t => decodeRule t

/-- DECOMPRESS (R216). -/
def execDecompress (s : State) : Host.Outcome State Fault Refusal := command .decompress decompressRule s

end Sys2Proof.Machine
end

