-- ==== Sys2Proof/Machine/System.lean ====
section
/-! DEFINITION. The system commands NOP and SRST (spec 46_system.md R227, R228). -/

namespace Sys2Proof.Machine

/-- The rule of NOP (R227): nothing. -/
def nopRule (s : State) : Except Stop State := .ok s

/-- NOP (R227). -/
def execNop (s : State) : Host.Outcome State Fault Refusal := command .nop nopRule s

/-- SRST (R228): the reset of R281, also while ERR = 1 (R101 step 2); dropped only while BUSY = 1 (R101 step 1). -/
def execSrst (s : State) : Host.Outcome State Fault Refusal :=
  if s.status.busy then .next s else .next (resetBlock s)

end Sys2Proof.Machine
end

