-- ==== Sys2Proof/Machine/HostPort.lean ====
section
/-! DEFINITION. The host's side of the block: writes, reads, resets, presenting a command word (spec 46_system.md R232 to
R237, 30_encoding.md R101, R120 to R122, 10_state.md R30), and the pseudo-operations of host scripts (30_encoding.md
R109). -/

namespace Sys2Proof.Machine

/-! ## Writes -/

/-- A write of w to CMD (R101): a command runs its meaning, any other word raises IllegalCommand. -/
def presentWord (w : Word) (s : State) : Host.Outcome State Fault Refusal :=
  match decodeWord w with
  | .ok i => exec i s
  | .error e => .next (illegalWord w e s)

/-- WR space[index], value, other than to CMD, while BUSY = 0 (R233). What R233 does not name is ignored (R30, R71). -/
def hostWrite (space : Space) (index : Nat) (value : Word) (s : State) : State :=
  match space with
  | .csr =>
    if index = 0x14 then { s with srcLen := value }
    else if index = 0x34 then { s with pkData := value }
    else s
  | .freq =>
    if index < 256 then { s with freq := putEntry s.freq index value, status := s.status.clearTree } else s
  | .src => if index < s.srcCap.toNat then { s with src := writeByte s.src index (value.setWidth 8) } else s
  | .node | .code | .dst | .pay => s

/-! ## Reads -/

/-- A register of width w as the host reads it, zero-extended (R21): while a fault is latched its value is unspecified
(R253), and is taken from u. -/
def regRead {w : Nat} (s : State) (u : Word) (v : BitVec w) : Word :=
  if s.status.err then (u.setWidth w).setWidth 32 else v.setWidth 32

/-- STATUS as the host reads it: after a fault, and while BUSY, only BUSY and ERR are specified (R81, R253); while BUSY
not even ERR is. -/
def statusRead (s : State) (u : Word) : Word :=
  if s.status.busy then statusWord ({ s.status with err := u.getLsbD 1 }.withFreeFlags u)
  else if s.status.err then statusWord (s.status.withFreeFlags u)
  else statusWord s.status

/-- The CSR map of R30. -/
def csrRead (s : State) (u : Word) (offset : Nat) : Word :=
  if offset = 0x00 then Config.idWord
  else if offset = 0x08 then statusRead s u
  else if offset = 0x0C then errWord s.err
  else if offset = 0x10 then s.errInfo
  else if offset = 0x14 then s.srcLen
  else if offset = 0x18 then regRead s u s.dstLen
  else if offset = 0x1C then regRead s u s.bitLen
  else if offset = 0x20 then regRead s u s.payLen
  else if offset = 0x24 then regRead s u s.nsym
  else if offset = 0x28 then regRead s u s.nnode
  else if offset = 0x2C then regRead s u s.root
  else if offset = 0x30 then regRead s u s.ncode
  else if offset = 0x34 then regRead s u s.pkData
  else if offset = 0x38 then regRead s u s.upPos
  else if offset = 0x40 then s.srcCap
  else if offset = 0x44 then s.dstCap
  else if offset = 0x48 then s.payCap
  else 0#32

/-- Word w of a NODE record (R120). -/
def nodeWord (r : NodeRec) (w : Nat) : Word :=
  if w = 0 then BitVec.ofBool r.leaf ++ 0#23 ++ r.sym
  else if w = 1 then 0#7 ++ r.right ++ 0#7 ++ r.left
  else if w = 2 then r.weight.setWidth 32
  else if w = 3 then 0#24 ++ r.weight.extractLsb' 32 8
  else 0#32

/-- Word w of a CODE entry (R71, R121): valid and len, then the code left-aligned in words 1 to 8. -/
def codeWord (e : CodeEntry) (w : Nat) : Word :=
  if w = 0 then BitVec.ofBool e.valid ++ 0#23 ++ BitVec.ofNat 8 e.bits.length
  else if w ≤ 8 then BitVec.ofNat 32 (bitsVal (bitGroup e.bits (32 * (w - 1)) 32))
  else 0#32

/-- RD space[index] (R234); u is the value of whatever the spec leaves unspecified there (R56, R253). -/
def hostRead (space : Space) (index : Nat) (u : Word) (s : State) : Word :=
  match space with
  | .csr => csrRead s u index
  | .freq => if index < 256 then regRead s u (entryAt s.freq index) else 0#32
  | .node =>
    if index < 4 * Config.nodeMax then
      if s.status.err = false ∧ s.status.treeValid = true ∧ index / 4 < s.nnode.toNat then
        nodeWord (entryAt s.node (index / 4)) (index % 4)
      else u
    else 0#32
  | .code =>
    if index < 16 * 256 ∧ index % 16 ≤ 8 then
      if s.status.err = false ∧ s.status.codeValid = true then codeWord (entryAt s.code (index / 16)) (index % 16)
      else u
    else 0#32
  | .src =>
    if index < s.srcCap.toNat then
      if index < s.srcLen.toNat then (readByte .src s.src index).setWidth 32 else (u.setWidth 8).setWidth 32
    else 0#32
  | .dst =>
    if index < s.dstCap.toNat then
      if s.status.err = false ∧ index < s.dstLen.toNat then (readByte .dst s.dst index).setWidth 32
      else (u.setWidth 8).setWidth 32
    else 0#32
  | .pay =>
    if index < s.payCap.toNat then
      if s.status.err = false ∧ s.status.payValid = true ∧ index < s.payLen.toNat then
        (readByte .pay s.pay index).setWidth 32
      else (u.setWidth 8).setWidth 32
    else 0#32

/-- The host's record of a read: the value returned, a free value where it is unspecified (log entry 2). The block does
not change (R83). -/
def recordRead (space : Space) (index : Nat) (s : State) : State :=
  { s with
    reads := s.reads ++ [hostRead space index (Config.freeBits 32 s.draws 0) s]
    draws := s.draws + 1 }

/-! ## One host operation -/

/-- A hardware reset while the command word, just written to CMD, runs (R280, R285): a word the block takes, whether it
decodes or not, has set BUSY (R101 step 3) and is abandoned; when the block drops the word there is nothing to abandon. -/
def resetDuring (_w : Word) (s : State) : State := hardReset (if accepting s then begin s else s)

/-- One operation of the host (R232). While BUSY = 1 a CMD write is dropped, STATUS may be read and a reset may come; the
model has no other move there (R81, R291, log entry 7). -/
def hostStep (op : HostOp) (s : State) : Host.Outcome State Fault Refusal :=
  match op with
  | .wr space index value =>
    if space = .csr ∧ index = 0x04 then presentWord value s
    else if s.status.busy then .refused .hostAccessWhileBusy
    else .next (hostWrite space index value s)
  | .rd space index =>
    if s.status.busy = true ∧ ¬(space = .csr ∧ index = 0x08) then .refused .hostAccessWhileBusy
    else .next (recordRead space index s)
  | .reset => .next (hardReset s)
  | .resetDuring w => .next (resetDuring w s)

/-! ## The pseudo-operations of host scripts -/

/-- `WR CSR[CMD], w` (R101). -/
def cmdWrite (w : Word) : HostOp := .wr .csr 0x04 w

/-- `CMD m`: the word of the command, then a read of STATUS, which in an atomic model already shows BUSY = 0 (R108,
R235). -/
def scriptCmd (i : Instr) : List HostOp := [cmdWrite (encode i), .rd .csr 0x08]

/-- `LDSRC b0 b1 ...` (R109). -/
def scriptLdsrc (bs : List Byte) : List HostOp :=
  ((List.range bs.length).map fun k => HostOp.wr .src k ((bs.getD k 0#8).setWidth 32)) ++
    [.wr .csr 0x14 (BitVec.ofNat 32 bs.length)]

/-- `LDFREQ s1:c1, s2:c2, ...`: 0 for each symbol that is not listed (R109). -/
def scriptLdfreq (counts : List (Byte × Word)) : List HostOp :=
  ((List.range 256).filterMap fun s =>
      if counts.any (fun c => c.1.toNat == s) then none else some (HostOp.wr .freq s 0#32)) ++
    counts.map fun c => HostOp.wr .freq c.1.toNat c.2

/-- `PUTBITS b`, for 1 to 32 bits (R109). -/
def scriptPutbits (b : Bits) : List HostOp :=
  .wr .csr 0x34 (BitVec.ofNat 32 (bitsVal b)) :: scriptCmd (.pkput (BitVec.ofNat 6 b.length))

/-- `GETBITS n` (R109). -/
def scriptGetbits (n : BitVec 6) : List HostOp := scriptCmd (.upget n) ++ [.rd .csr 0x34]

/-- `MOVDS`, for a host that reads `bs` from DST[0..DST_LEN) (R109). -/
def scriptMovds (bs : List Byte) : List HostOp :=
  .rd .csr 0x18 ::
    (((List.range bs.length).flatMap fun k => [HostOp.rd .dst k, HostOp.wr .src k ((bs.getD k 0#8).setWidth 32)]) ++
      [.wr .csr 0x14 (BitVec.ofNat 32 bs.length)])

end Sys2Proof.Machine
end

