-- ==== Sys2Proof/Machine/Step.lean ====
section
/-! DEFINITION. One step of the machine: the host's next operation, with the command it presents (spec 46_system.md R237,
20_memory.md R80, R81). -/

namespace Sys2Proof.Machine

/-- The host moves to the next operation of its script (R29, R237). -/
def State.advance (s : State) : State := { s with index := s.index + 1 }

/-- One step: the host performs the operation at its index, and a command it presents runs as one atomic step (R80,
R237). Past the last operation the block is idle and holds its state (R237, R270). -/
def step (s : State) : Host.Outcome State Fault Refusal :=
  match s.script[s.index]? with
  | none => .next s
  | some op => hostStep op s.advance

/-- s with the host about to write a command word to CMD: a script of that one operation (R101, R237, log entry 10). -/
def State.withFetchWord (s : State) (nbits w : Nat) : State :=
  { s with script := [cmdWrite (tableWord nbits w)], index := 0 }

end Sys2Proof.Machine
end

