-- ==== Sys2Proof/Safety.lean ====
section
/-! DEFINITION. The terms claims about HUFFCORE are stated in: a latched fault, the packer's bit sequence, a Huffman tree,
a codebook, a container, and the invariants of the states between commands (spec 10_state.md R26, R32, R33, R42, R44). -/

namespace Sys2Proof.Machine

/-! ## Commands and faults -/

/-- The block takes a command and every flag that command requires is set (R101 steps 1, 2 and 5, R247). -/
def Ready (i : Instr) (s : State) : Prop := accepting s = true ∧ prerequisite i s.status = true

/-- What R250 and R253 fix of the state t after a raise in state s during a command whose word has cmd in bits 31:24.
Nothing else of the block is fixed there. -/
structure FaultLatched (cmd : Byte) (r : Raised) (s t : State) : Prop where
  errFlag : t.status.err = true
  busyFlag : t.status.busy = false
  record : t.err = { op := r.op, cmd := cmd, sub := r.sub, code := causeCode r.cause }
  info : t.errInfo = r.info
  src : t.src = s.src
  srcLen : t.srcLen = s.srcLen
  srcCap : t.srcCap = s.srcCap
  dstCap : t.dstCap = s.dstCap
  payCap : t.payCap = s.payCap
  script : t.script = s.script
  index : t.index = s.index
  reads : t.reads = s.reads

/-- The command i, run in state s, ends in the fault r (R250). -/
def Raises (i : Instr) (s : State) (r : Raised) : Prop :=
  ∃ t, exec i s = .next t ∧ FaultLatched i.opcode r s t

/-- `raise cause(sub, info)` in the unit command or stage with opcode op, as a record (R250). -/
def faultOf (op : Byte) (cause : Cause) (sub : Byte) (info : Nat) : Raised :=
  { op := op, cause := cause, sub := sub, info := BitVec.ofNat 32 info }

/-! ## The packer -/

/-- The block holds the packed sequence b (R26): its whole bytes in PAY, the rest of it left-aligned in ACC. -/
structure Packed (s : State) (b : Bits) : Prop where
  length : s.bitLen.toNat = b.length
  bytes : ∀ i, i < b.length / 8 →
    readByte .pay s.pay i = BitVec.ofNat 8 (bitsVal (bitGroup b (8 * i) 8))
  rest : s.acc = BitVec.ofNat 8 (bitsVal (bitGroup b (8 * (b.length / 8)) 8))

/-! ## Trees -/

/-- Record p is internal among the records nsym to k - 1 and c is a child of it. -/
def ParentOf (node : NodeTable) (nsym k p c : Nat) : Prop :=
  nsym ≤ p ∧ p < k ∧ ((entryAt node p).left.toNat = c ∨ (entryAt node p).right.toNat = c)

/-- NODE, NSYM, NNODE and ROOT hold a strict binary tree whose leaves are the symbols of nonzero count in FREQ (R41, R42,
R149). -/
structure TreeOk (s : State) : Prop where
  some_leaf : 1 ≤ s.nsym.toNat
  few_leaves : s.nsym.toNat ≤ 256
  size : s.nnode.toNat = 2 * s.nsym.toNat - 1
  root : s.root.toNat = s.nnode.toNat - 1
  leaves : ∀ k, k < s.nsym.toNat →
    (entryAt s.node k).leaf = true ∧ (entryAt s.node k).left = 0#9 ∧ (entryAt s.node k).right = 0#9
  counts : ∀ k, k < s.nsym.toNat →
    (entryAt s.node k).weight.toNat = (entryAt s.freq (entryAt s.node k).sym.toNat).toNat ∧
      (entryAt s.node k).weight ≠ 0#40
  ascending : ∀ j k, j < k → k < s.nsym.toNat → (entryAt s.node j).sym.toNat < (entryAt s.node k).sym.toNat
  complete : ∀ x, x < 256 → entryAt s.freq x ≠ 0#32 → ∃ k, k < s.nsym.toNat ∧ (entryAt s.node k).sym.toNat = x
  internal : ∀ k, s.nsym.toNat ≤ k → k < s.nnode.toNat →
    (entryAt s.node k).leaf = false ∧ (entryAt s.node k).sym = 0#8 ∧ (entryAt s.node k).left.toNat < k ∧
      (entryAt s.node k).right.toNat < k ∧ (entryAt s.node k).left ≠ (entryAt s.node k).right ∧
      (entryAt s.node k).weight.toNat =
        (entryAt s.node (entryAt s.node k).left.toNat).weight.toNat +
          (entryAt s.node (entryAt s.node k).right.toNat).weight.toNat
  parent : ∀ c, c < s.root.toNat → ∃ p, ParentOf s.node s.nsym.toNat s.nnode.toNat p c
  one_parent : ∀ c p q, ParentOf s.node s.nsym.toNat s.nnode.toNat p c →
    ParentOf s.node s.nsym.toNat s.nnode.toNat q c → p = q

/-- Node j has no parent among the records made before record k: it is active when record k is made (R147). -/
def ActiveAt (node : NodeTable) (nsym k j : Nat) : Prop := j < k ∧ ∀ p, ¬ParentOf node nsym k p j

/-- Node i precedes node j in the order of R147: by weight, then by index. -/
def Precedes (node : NodeTable) (i j : Nat) : Prop :=
  (entryAt node i).weight.toNat < (entryAt node j).weight.toNat ∨
    ((entryAt node i).weight.toNat = (entryAt node j).weight.toNat ∧ i < j)

/-- Every internal record joins the two least nodes that were active when it was made, the least on the left (R147). -/
def GreedyTree (s : State) : Prop :=
  ∀ k, s.nsym.toNat ≤ k → k < s.nnode.toNat →
    ActiveAt s.node s.nsym.toNat k (entryAt s.node k).left.toNat ∧
      ActiveAt s.node s.nsym.toNat k (entryAt s.node k).right.toNat ∧
      Precedes s.node (entryAt s.node k).left.toNat (entryAt s.node k).right.toNat ∧
      ∀ j, ActiveAt s.node s.nsym.toNat k j → j ≠ (entryAt s.node k).left.toNat →
        j ≠ (entryAt s.node k).right.toNat → Precedes s.node (entryAt s.node k).right.toNat j

/-- The node reached from node i by the edge labels of a path, "0" left and "1" right, through internal nodes only
(R160). -/
def follow (node : NodeTable) : Nat → Bits → Option Nat
  | i, [] => some i
  | i, b :: rest =>
    if (entryAt node i).leaf then none
    else follow node (if b then (entryAt node i).right.toNat else (entryAt node i).left.toNat) rest

/-! ## Codebooks -/

/-- The number of valid entries of a codebook (R44). -/
def numValid (code : CodeTable) : Nat := (validCodes code).length

/-- A codebook (R43, R44): codes of 1 to 255 bits, none a prefix of another; an entry that is not valid is empty. -/
structure CodeOk (code : CodeTable) : Prop where
  lengths : ∀ x, x < 256 → (entryAt code x).valid = true →
    1 ≤ (entryAt code x).bits.length ∧ (entryAt code x).bits.length ≤ 255
  empties : ∀ x, x < 256 → (entryAt code x).valid = false → (entryAt code x).bits = []
  prefix_free : ∀ x y, x < 256 → y < 256 → x ≠ y → (entryAt code x).valid = true → (entryAt code y).valid = true →
    ¬(entryAt code x).bits <+: (entryAt code y).bits

/-- Every byte of a sequence has a code. -/
def Covers (code : CodeTable) (bs : List Byte) : Prop := ∀ b, b ∈ bs → (entryAt code b.toNat).valid = true

/-- The concatenation of the codes of a byte sequence, in input order (R206). -/
def encodeAll (code : CodeTable) (bs : List Byte) : Bits := bs.flatMap fun b => (entryAt code b.toNat).bits

/-- The sum of 2^(255 - len) over the valid codes: 2^255 times the Kraft sum (R163). -/
def kraftSum (code : CodeTable) : Nat := ((validCodes code).map fun b => 2 ^ (255 - b.length)).sum

/-- The codebook BUILD and WALK derive from the counts of a byte sequence; the empty one for the empty sequence (R213,
R214, R218). -/
def huffmanCode (bs : List Byte) : Option CodeTable :=
  if bs = [] then some emptyCode
  else
    let leaves := makeLeaves (bs.foldl countByte zeroFreq) (Vector.replicate 511 NodeRec.reset)
    let m := mergeLoop leaves.1 { node := leaves.2, active := List.range leaves.1, next := leaves.1 }
    walkTree m.node (m.active.headD 0)

/-! ## Containers -/

/-- The serialized codebook (R112, R113): version, be16 of the number of records, the records by ascending symbol. -/
def tableBytes (code : CodeTable) (count : Nat) : List Byte :=
  0x01#8 :: (bigEndian 2 count ++
    (List.range 256).flatMap fun x =>
      if (entryAt code x).valid then
        BitVec.ofNat 8 x :: BitVec.ofNat 8 (entryAt code x).bits.length :: bytesOf (entryAt code x).bits
      else [])

/-- A container (R110): be32 of the table's size, the table, be32 of the bit length, the payload. -/
def containerBytes (table : List Byte) (bitLen : Nat) (payload : List Byte) : List Byte :=
  bigEndian 4 table.length ++ table ++ bigEndian 4 bitLen ++ payload

/-- The table records of a list of symbols with their codes: SYM, CLEN, CBITS for each (R112, R113). -/
def recordBytes (recs : List (Byte × Bits)) : List Byte :=
  recs.flatMap fun r => r.1 :: BitVec.ofNat 8 r.2.length :: bytesOf r.2

/-- SRC[0..SRC_LEN) passes DESER's tests before the records, and its table, which ends before index
4 + `table_byte_length`, begins with the well-formed records `recs`, in strictly ascending order (R195). -/
structure ParsedSoFar (s : State) (recs : List (Byte × Bits)) : Prop where
  fits : s.srcLen.toNat ≤ s.srcCap.toNat
  room : 4 + memRead .src s.src 0 4 ≤ s.srcLen.toNat
  header : 3 ≤ memRead .src s.src 0 4
  version : readByte .src s.src 4 = 0x01#8
  count : memRead .src s.src 5 2 ≤ 256
  records : readBytes .src s.src 7 (recordBytes recs).length = recordBytes recs
  inside : 7 + (recordBytes recs).length ≤ 4 + memRead .src s.src 0 4
  ascending : recs.Pairwise fun r q => r.1.toNat < q.1.toNat
  lengths : ∀ r ∈ recs, 1 ≤ r.2.length ∧ r.2.length ≤ 255

/-! ## Invariants of the states between commands -/

/-- The fault latch (R32, R33, R34, R80): BUSY = 0; STATUS.ERR equals ERR.CODE ≠ 0; no fault, no record. -/
structure LatchInv (s : State) : Prop where
  idle : s.status.busy = false
  errFlag : s.status.err = true ↔ s.err.code ≠ 0#8
  noRecord : s.status.err = false → s.err = ErrReg.reset ∧ s.errInfo = 0#32

/-- The capacities lie in the ranges of R6. -/
structure CapsInv (s : State) : Prop where
  src : 1 ≤ s.srcCap.toNat
  dst : 11 ≤ s.dstCap.toNat
  pay_low : 1 ≤ s.payCap.toNat
  pay_high : s.payCap.toNat ≤ 2 ^ 29

/-- The byte memories are in their canonical form. -/
structure MemInv (s : State) : Prop where
  src : s.src.wf = true
  dst : s.dst.wf = true
  pay : s.pay.wf = true

/-- The sessions and the buffers while no fault is latched (R21, R26, R32): the two invariants of R32; an open pack
session holds a bit sequence that fits PAY; an open unpack session lies inside its payload; no length exceeds its
buffer. -/
structure SessionOk (s : State) : Prop where
  pack_alone : s.status.pkOpen = true → s.status.payValid = false ∧ s.status.upOpen = false
  unpack_has_payload : s.status.upOpen = true → s.status.payValid = true
  pack_holds : s.status.pkOpen = true → (∃ b, Packed s b) ∧ ceil8 s.bitLen.toNat ≤ s.payCap.toNat
  unpack_inside : s.status.upOpen = true →
    s.upPos.toNat ≤ s.bitLen.toNat ∧ ceil8 s.bitLen.toNat ≤ s.payLen.toNat
  dst_len : s.dstLen.toNat ≤ s.dstCap.toNat
  pay_len : s.payLen.toNat ≤ s.payCap.toNat

/-- No byte outside a buffer is ever written (R70, R89), and `SessionOk` while no fault is latched. -/
structure BufferInv (s : State) : Prop where
  src : s.src.within s.srcCap.toNat = true
  dst : s.dst.within s.dstCap.toNat = true
  pay : s.pay.within s.payCap.toNat = true
  sessions : s.status.err = false → SessionOk s

/-- While no fault is latched, TREE_VALID = 1 says that the node memory holds the tree BUILD makes from the current FREQ:
its leaves are the counted symbols, and every internal record is the one R147 makes (R32, R42). -/
def TreeInv (s : State) : Prop := s.status.err = false → s.status.treeValid = true → TreeOk s ∧ GreedyTree s

/-- While no fault is latched, CODE_VALID = 1 says that CODE and NCODE hold a codebook (R32, R44). -/
def CodeInv (s : State) : Prop :=
  s.status.err = false → s.status.codeValid = true → CodeOk s.code ∧ s.ncode.toNat = numValid s.code

end Sys2Proof.Machine
end

