-- ==== Sys2Proof/Certificates/Slice0/Obligations.lean ====
section
/-! DEFINITION. The statements for the provers, from the numbered rules of spec/. -/

open Sys2Proof Sys2Proof.Machine

/-! ## Encodings and the acceptance of a command word -/

/-- The words of R104, and of PKPUT and UPGET at the ends of the operand's range, decode to the commands they stand for. -/
def Obligations.TabulatedWordsDecode : Prop :=
  ∀ p ∈ [(0x00000000#32, Instr.nop), (0x01000000#32, Instr.srst), (0x10000000#32, Instr.count),
      (0x11000000#32, Instr.build), (0x12000000#32, Instr.walk), (0x20000000#32, Instr.pkinit),
      (0x21000001#32, Instr.pkput 1#6), (0x21000020#32, Instr.pkput 32#6), (0x22000000#32, Instr.pkflush),
      (0x23000000#32, Instr.upinit), (0x24000001#32, Instr.upget 1#6), (0x24000020#32, Instr.upget 32#6),
      (0x28000000#32, Instr.encode), (0x29000000#32, Instr.decode), (0x30000000#32, Instr.ser),
      (0x31000000#32, Instr.deser), (0x40000000#32, Instr.compress), (0x41000000#32, Instr.decompress)],
    decodeWord p.1 = .ok p.2

/-- R107: the match and mask of each command, and the range of the operand, say exactly which words it has. -/
def Obligations.WordIsCommandIffTabulated : Prop :=
  ∀ w : Word,
    (∀ p ∈ [(0x00#32, Instr.nop), (0x01#32, Instr.srst), (0x10#32, Instr.count), (0x11#32, Instr.build),
        (0x12#32, Instr.walk), (0x20#32, Instr.pkinit), (0x22#32, Instr.pkflush), (0x23#32, Instr.upinit),
        (0x28#32, Instr.encode), (0x29#32, Instr.decode), (0x30#32, Instr.ser), (0x31#32, Instr.deser),
        (0x40#32, Instr.compress), (0x41#32, Instr.decompress)],
      decodeWord w = .ok p.2 ↔ w &&& 0xFFFFFFFF#32 = p.1 <<< 24) ∧
    (∀ n : BitVec 6, decodeWord w = .ok (.pkput n) ↔
      w &&& 0xFFFFFFC0#32 = 0x21#32 <<< 24 ∧ 1 ≤ (w &&& 0x3F#32).toNat ∧ (w &&& 0x3F#32).toNat ≤ 32 ∧
        n.toNat = (w &&& 0x3F#32).toNat) ∧
    ∀ n : BitVec 6, decodeWord w = .ok (.upget n) ↔
      w &&& 0xFFFFFFC0#32 = 0x24#32 <<< 24 ∧ 1 ≤ (w &&& 0x3F#32).toNat ∧ (w &&& 0x3F#32).toNat ≤ 32 ∧
        n.toNat = (w &&& 0x3F#32).toNat

/-- The decoder and the encoder agree in both directions, on every command and every word. -/
def Obligations.DecodeEncodeAgree : Prop :=
  (∀ i : Instr, WellFormed i → decodeWord (encode i) = .ok i) ∧
    ∀ (w : Word) (i : Instr), decodeWord w = .ok i → WellFormed i ∧ encode i = w

/-- R106, R246: a word that is no command raises IllegalCommand, with the first of the three sub-causes that applies and
the word itself as information, when the block takes commands. -/
def Obligations.UndecodableWordsRaiseIllegalCommand : Prop :=
  ∀ (w : Word) (s : State), accepting s = true →
    let opc := w.extractLsb' 24 8
    let formatZ := opc ∈ [0x00#8, 0x01#8, 0x10#8, 0x11#8, 0x12#8, 0x20#8, 0x22#8, 0x23#8, 0x28#8, 0x29#8, 0x30#8,
      0x31#8, 0x40#8, 0x41#8]
    let formatN := opc ∈ [0x21#8, 0x24#8]
    let illegal := fun sub : Byte => ∃ t, presentWord w s = .next t ∧
      FaultLatched opc { op := opc, cause := .illegalCommand, sub := sub, info := w } s t
    (¬formatZ → ¬formatN → illegal 1#8) ∧
    (formatZ → w.extractLsb' 0 24 ≠ 0#24 → illegal 2#8) ∧
    (formatN → w.extractLsb' 6 18 ≠ 0#18 → illegal 2#8) ∧
    (formatN → w.extractLsb' 6 18 = 0#18 → w.extractLsb' 0 6 = 0#6 ∨ 32 < (w.extractLsb' 0 6).toNat → illegal 3#8)

/-- A step whose host operation writes a command word to CMD is the meaning of that command, after the host has moved to
its next operation. Past the end of the script a step changes nothing: that clause is the model's choice (log entry 15),
no rule of the spec. -/
def Obligations.StepRunsTheDecodedCommand : Prop :=
  (∀ (s : State) (w : Word) (i : Instr), s.script[s.index]? = some (.wr .csr 0x04 w) → decodeWord w = .ok i →
      step s = exec i { s with index := s.index + 1 }) ∧
    ∀ s : State, s.script[s.index]? = none → step s = .next s

/-- R101 steps 1 and 2, R252: while a fault is latched, a CMD write of any word but SRST's changes nothing of the block;
while BUSY = 1 a CMD write of any word, SRST's among them, changes nothing. -/
def Obligations.DroppedCommandWordsChangeNothing : Prop :=
  (∀ (s : State) (w : Word), s.status.err = true → s.status.busy = false →
    s.script[s.index]? = some (.wr .csr 0x04 w) → w ≠ 0x01000000#32 →
      step s = .next { s with index := s.index + 1 }) ∧
    ∀ (s : State) (w : Word), s.status.busy = true → s.script[s.index]? = some (.wr .csr 0x04 w) →
      step s = .next { s with index := s.index + 1 }

/-- R250, R252, R253: a step from a state with a latched fault keeps ERR and ERRINFO, unless it is a reset. -/
def Obligations.FirstFaultIsKeptUntilReset : Prop :=
  ∀ s t : State, s.status.err = true → s.status.busy = false → step s = .next t →
    (t.status.err = true ∧ t.status.busy = false ∧ t.err = s.err ∧ t.errInfo = s.errInfo) ∨
      (t.status.err = false ∧ t.err = ErrReg.reset ∧ t.errInfo = 0#32 ∧
        (s.script[s.index]? = some (.wr .csr 0x04 0x01000000#32) ∨ s.script[s.index]? = some .reset ∨
          ∃ w, s.script[s.index]? = some (.resetDuring w)))

/-! ## Host reads and writes -/

/-- R83, R233: what a host write other than to CMD changes, and that it changes nothing else. -/
def Obligations.HostWriteChangesOnlyItsTarget : Prop :=
  ∀ (s : State) (space : Space) (i : Nat) (v : Word), s.status.busy = false → ¬(space = .csr ∧ i = 0x04) →
    s.script[s.index]? = some (.wr space i v) →
      ∃ t, step s = .next t ∧
        t.srcLen = (if space = .csr ∧ i = 0x14 then v else s.srcLen) ∧
        t.pkData = (if space = .csr ∧ i = 0x34 then v else s.pkData) ∧
        t.status = (if space = .freq ∧ i < 256 then { s.status with treeValid := false } else s.status) ∧
        (∀ k, k < 256 → entryAt t.freq k = if space = .freq ∧ i = k then v else entryAt s.freq k) ∧
        (∀ a, readByte .src t.src a =
          if space = .src ∧ i < s.srcCap.toNat ∧ a = i then v.extractLsb' 0 8 else readByte .src s.src a) ∧
        t = { s with
          index := s.index + 1, srcLen := t.srcLen, pkData := t.pkData, status := t.status, freq := t.freq, src := t.src }

/-- R83, R234: a host read of any entry of any space completes, adds to the values the host has read what `hostRead` gives
in this state, and changes nothing of the block. The value u of whatever the spec leaves unspecified there, and the counter
of free values that has moved on by one, are the model's (log entry 2), as is the list of the values read (log entry
15). -/
def Obligations.HostReadChangesNothing : Prop :=
  ∀ (s : State) (space : Space) (i : Nat), s.status.busy = false → s.script[s.index]? = some (.rd space i) →
    ∃ u, step s = .next
      { s with index := s.index + 1, reads := s.reads ++ [hostRead space i u s], draws := s.draws + 1 }

/-- R30, R31: the CSR map, as the host reads it while the block is idle and no fault is latched, with the STATUS bits of
R32; and while a fault is latched, the registers R253 fixes: ID, ERR, ERRINFO, SRC_LEN, the capacities, BUSY = 0 and
ERR = 1. -/
def Obligations.CsrMapReadsTheRegisters : Prop :=
  (∀ (s : State) (u : Word), accepting s = true →
    (∀ p ∈ [(0x00, 0x48430101#32), (0x04, 0#32), (0x0C, s.err.op ++ s.err.cmd ++ s.err.sub ++ s.err.code),
        (0x10, s.errInfo), (0x14, s.srcLen), (0x18, s.dstLen), (0x1C, s.bitLen), (0x20, s.payLen),
        (0x24, s.nsym.setWidth 32), (0x28, s.nnode.setWidth 32), (0x2C, s.root.setWidth 32),
        (0x30, s.ncode.setWidth 32), (0x34, s.pkData), (0x38, s.upPos), (0x3C, 0#32), (0x40, s.srcCap),
        (0x44, s.dstCap), (0x48, s.payCap)], hostRead .csr p.1 u s = p.2) ∧
    (∀ offset, 0x48 < offset → hostRead .csr offset u s = 0#32) ∧
    (∀ k, k < 32 → (hostRead .csr 0x08 u s).getLsbD k =
      [false, false, s.status.treeValid, s.status.codeValid, s.status.payValid, s.status.pkOpen,
        s.status.upOpen].getD k false)) ∧
    ∀ (s : State) (u : Word), s.status.busy = false → s.status.err = true →
      (∀ p ∈ [(0x00, 0x48430101#32), (0x0C, s.err.op ++ s.err.cmd ++ s.err.sub ++ s.err.code), (0x10, s.errInfo),
          (0x14, s.srcLen), (0x40, s.srcCap), (0x44, s.dstCap), (0x48, s.payCap)], hostRead .csr p.1 u s = p.2) ∧
      (hostRead .csr 0x08 u s).getLsbD 0 = false ∧ (hostRead .csr 0x08 u s).getLsbD 1 = true

/-- R71: a read at an index outside a space, and of words 9 to 15 of a CODE entry, returns 0 whatever is unspecified. -/
def Obligations.OutOfRangeReadsReturnZero : Prop :=
  ∀ (s : State) (u : Word) (i : Nat),
    (255 < i → hostRead .freq i u s = 0#32) ∧ (510 < i / 4 → hostRead .node i u s = 0#32) ∧
    (255 < i / 16 → hostRead .code i u s = 0#32) ∧ (9 ≤ i % 16 → hostRead .code i u s = 0#32) ∧
    (s.srcCap.toNat ≤ i → hostRead .src i u s = 0#32) ∧ (s.dstCap.toNat ≤ i → hostRead .dst i u s = 0#32) ∧
    (s.payCap.toNat ≤ i → hostRead .pay i u s = 0#32)

/-- R120 to R122: the words of the table windows, bit by bit, while the tables are valid; an entry of CODE that is not
valid (and so, by R43, empty) reads 0. R56, R234: inside its meaningful range a byte memory reads its byte,
zero-extended; SRC also while a fault is latched. -/
def Obligations.TableWindowsShowTheTables : Prop :=
  (∀ (s : State) (u : Word), accepting s = true →
    (∀ x, x < 256 → hostRead .freq x u s = entryAt s.freq x) ∧
    (s.status.treeValid = true → ∀ i k, i < s.nnode.toNat → i < 511 → k < 32 →
      let r := entryAt s.node i
      (hostRead .node (4 * i) u s).getLsbD k = (if k = 31 then r.leaf else if k < 8 then r.sym.getLsbD k else false) ∧
      (hostRead .node (4 * i + 1) u s).getLsbD k =
        (if 16 ≤ k then r.right.getLsbD (k - 16) else r.left.getLsbD k) ∧
      (hostRead .node (4 * i + 2) u s).getLsbD k = r.weight.getLsbD k ∧
      (hostRead .node (4 * i + 3) u s).getLsbD k = (if k < 8 then r.weight.getLsbD (32 + k) else false)) ∧
    (s.status.codeValid = true → ∀ x k, x < 256 → k < 32 →
      let e := entryAt s.code x
      (hostRead .code (16 * x) u s).getLsbD k =
        (if k = 31 then e.valid else if k < 8 then e.bits.length.testBit k else false) ∧
      ∀ w, 1 ≤ w → w ≤ 8 →
        (hostRead .code (16 * x + w) u s).getLsbD k = e.bits.getD (32 * (w - 1) + (31 - k)) false) ∧
    (s.status.codeValid = true → ∀ x w, x < 256 → w ≤ 8 → entryAt s.code x = { valid := false, bits := [] } →
      hostRead .code (16 * x + w) u s = 0#32) ∧
    (∀ i, i < s.dstLen.toNat → i < s.dstCap.toNat → hostRead .dst i u s = (readByte .dst s.dst i).setWidth 32) ∧
    (s.status.payValid = true → ∀ i, i < s.payLen.toNat → i < s.payCap.toNat →
      hostRead .pay i u s = (readByte .pay s.pay i).setWidth 32)) ∧
    ∀ (s : State) (u : Word) (i : Nat), s.status.busy = false → i < s.srcLen.toNat → i < s.srcCap.toNat →
      hostRead .src i u s = (readByte .src s.src i).setWidth 32

/-! ## System commands, faults -/

/-- R227: NOP changes nothing, in any state in which the block is not BUSY. -/
def Obligations.NopChangesNothing : Prop :=
  ∀ s : State, s.status.busy = false → exec .nop s = .next s

/-- R228, R281, R282: SRST, also while a fault is latched, puts every register, flag and table at its reset value and
writes no byte memory; the host's own state and the model's counter are not the block's. NODE and CODE are not named:
R281 leaves their contents unspecified. -/
def Obligations.SrstResetsAllButByteMemories : Prop :=
  ∀ s : State, s.status.busy = false →
    ∃ t, exec .srst s = .next t ∧
      t.srcLen = 0#32 ∧ t.dstLen = 0#32 ∧ t.bitLen = 0#32 ∧ t.payLen = 0#32 ∧ t.nsym = 0#9 ∧ t.nnode = 0#10 ∧
      t.root = 0#9 ∧ t.ncode = 0#9 ∧ t.pkData = 0#32 ∧ t.upPos = 0#32 ∧ t.acc = 0#8 ∧ statusWord t.status = 0#32 ∧
      errWord t.err = 0#32 ∧ t.errInfo = 0#32 ∧ (∀ x, x < 256 → entryAt t.freq x = 0#32) ∧
      t.src = s.src ∧ t.dst = s.dst ∧ t.pay = s.pay ∧ t.srcCap = s.srcCap ∧ t.dstCap = s.dstCap ∧
      t.payCap = s.payCap ∧ t.script = s.script ∧ t.index = s.index ∧ t.reads = s.reads ∧ t.draws = s.draws

/-- R280, R282, R285: a hardware reset of an idle block does what SRST does; one that comes while a command runs does the
same, but that it leaves DST and PAY entirely unspecified, whatever word the block had taken, decodable or not. How the
model presents such a reset, and its counter and forgotten memories, are log entries 8, 2 and 3. -/
def Obligations.HardwareResetDoesWhatSrstDoes : Prop :=
  ∀ s : State,
    (s.status.busy = false → s.script[s.index]? = some .reset → step s = exec .srst { s with index := s.index + 1 }) ∧
    (∀ w, s.status.busy = false → s.script[s.index]? = some (.resetDuring w) →
      ∃ t u, step s = .next t ∧ exec .srst { s with index := s.index + 1 } = .next u ∧
        (s.status.err = true → t = u) ∧
        (s.status.err = false →
          t = { u with
            dst := Memory.forgotten s.draws, pay := Memory.forgotten s.draws, draws := s.draws + 1 })) ∧
    (s.status.busy = true → s.script[s.index]? = some .reset →
      ∃ t u, step s = .next t ∧
        exec .srst { s with index := s.index + 1, status := { s.status with busy := false } } = .next u ∧
        t = { u with dst := Memory.forgotten s.draws, pay := Memory.forgotten s.draws, draws := s.draws + 1 })

/-- R281: the values the spec gives for reset, of the state the model starts from. -/
def Obligations.ResetStateValues : Prop :=
  State.reset.srcLen = 0#32 ∧ State.reset.dstLen = 0#32 ∧ State.reset.bitLen = 0#32 ∧ State.reset.payLen = 0#32 ∧
    State.reset.nsym = 0#9 ∧ State.reset.nnode = 0#10 ∧ State.reset.root = 0#9 ∧ State.reset.ncode = 0#9 ∧
    State.reset.pkData = 0#32 ∧ State.reset.upPos = 0#32 ∧ State.reset.acc = 0#8 ∧
    statusWord State.reset.status = 0#32 ∧ errWord State.reset.err = 0#32 ∧ State.reset.errInfo = 0#32 ∧
    ∀ x, x < 256 → entryAt State.reset.freq x = 0#32

/-- R247: a command whose prerequisite flag is 0 raises BadSequence(0, w) with its own opcode, w its word; the commands
without a prerequisite never raise BadSequence. -/
def Obligations.MissingPrerequisiteRaisesBadSequence : Prop :=
  ∀ s : State, accepting s = true →
    (s.status.treeValid = false → Raises .walk s (faultOf 0x12#8 .badSequence 0#8 0x12000000)) ∧
    (s.status.codeValid = false → Raises .encode s (faultOf 0x28#8 .badSequence 0#8 0x28000000)) ∧
    (∀ n, WellFormed (.pkput n) → s.status.pkOpen = false →
      Raises (.pkput n) s (faultOf 0x21#8 .badSequence 0#8 (0x21000000 + n.toNat))) ∧
    (s.status.pkOpen = false → Raises .pkflush s (faultOf 0x22#8 .badSequence 0#8 0x22000000)) ∧
    (s.status.payValid = false → Raises .upinit s (faultOf 0x23#8 .badSequence 0#8 0x23000000)) ∧
    (∀ n, WellFormed (.upget n) → s.status.upOpen = false →
      Raises (.upget n) s (faultOf 0x24#8 .badSequence 0#8 (0x24000000 + n.toNat))) ∧
    (s.status.codeValid = false ∨ s.status.payValid = false →
      Raises .ser s (faultOf 0x30#8 .badSequence 0#8 0x30000000) ∧
        Raises .decode s (faultOf 0x29#8 .badSequence 0#8 0x29000000)) ∧
    ∀ i ∈ [Instr.nop, .srst, .count, .build, .pkinit, .deser, .compress, .decompress], ∀ t, exec i s = .next t →
      t.status.err = true → t.err.code ≠ 6#8

/-- R249: the (code, sub-cause) pairs a command word may raise, by its opcode; the last line is that of the reserved
opcodes. -/
def Obligations.EachCommandRaisesOnlyItsFaults : Prop :=
  ∀ (w : Word) (s t : State), accepting s = true → presentWord w s = .next t → t.status.err = true →
    let corrupt : List (Nat × Nat) := (List.range 12).map fun k => (3, k + 1)
    let table : List (Nat × List (Nat × Nat)) :=
      [(0x00, [(5, 2)]), (0x01, [(5, 2)]), (0x20, [(5, 2)]), (0x10, [(5, 2), (7, 1)]), (0x11, [(1, 0), (5, 2)]),
        (0x12, [(5, 2), (6, 0)]), (0x21, [(2, 0), (5, 2), (5, 3), (6, 0), (7, 2)]), (0x22, [(5, 2), (6, 0)]),
        (0x23, [(4, 1), (5, 2), (6, 0)]), (0x24, [(4, 3), (5, 2), (5, 3), (6, 0)]),
        (0x28, [(2, 0), (3, 13), (5, 2), (6, 0), (7, 1), (7, 2)]),
        (0x29, [(4, 1), (4, 2), (5, 2), (6, 0), (7, 3)]), (0x30, [(5, 2), (6, 0), (7, 3)]),
        (0x31, corrupt ++ [(5, 2), (7, 1), (7, 2)]), (0x40, [(2, 0), (5, 2), (7, 1), (7, 2), (7, 3)]),
        (0x41, corrupt ++ [(4, 1), (4, 2), (5, 2), (7, 1), (7, 2), (7, 3)])]
    (t.err.code.toNat, t.err.sub.toNat) ∈ ((table.lookup (w.extractLsb' 24 8).toNat).getD [(5, 1)])

/-- R250, R253: whatever command faults, in whatever state that accepts it, the fault record is latched with the
command's own opcode in ERR.CMD, SRC, SRC_LEN and the capacities keep their values, and BUSY is 0. -/
def Obligations.FaultKeepsSourceAndLatchesRecord : Prop :=
  ∀ (i : Instr) (s t : State), accepting s = true → exec i s = .next t → t.status.err = true →
    t.status.busy = false ∧ t.err.code ≠ 0#8 ∧ t.err.cmd = i.opcode ∧ t.src = s.src ∧ t.srcLen = s.srcLen ∧
      t.srcCap = s.srcCap ∧ t.dstCap = s.dstCap ∧ t.payCap = s.payCap ∧ t.script = s.script ∧ t.index = s.index

/-! ## COUNT -/

/-- R141: COUNT, when SRC_LEN ≤ SRC_CAP, leaves in FREQ[x] the number of occurrences of x in SRC[0..SRC_LEN), for every x,
clears TREE_VALID and changes nothing else; otherwise it raises CapacityExceeded(1, SRC_LEN). -/
def Obligations.CountWritesTheHistogram : Prop :=
  ∀ s : State, accepting s = true →
    (s.srcLen.toNat ≤ s.srcCap.toNat → ∃ t, exec .count s = .next t ∧
      (∀ x, x < 256 → (entryAt t.freq x).toNat =
        ((List.range s.srcLen.toNat).filter fun i => (readByte .src s.src i).toNat == x).length) ∧
      t = { s with freq := t.freq, status := { s.status with treeValid := false } }) ∧
    (s.srcCap.toNat < s.srcLen.toNat →
      Raises .count s (faultOf 0x10#8 .capacityExceeded 1#8 s.srcLen.toNat))

/-! ## BUILD -/

/-- R146, R147, R148 (with R149, R150): BUILD on a table with a nonzero count completes; the tree it leaves is strict, its
leaves are the counted symbols in ascending order with their counts, every internal record joins the two least active
nodes, the least on the left, and the root weighs the sum of all counts, so no weight wraps; BUILD sets TREE_VALID, and
changes no other state. On an all-zero table BUILD raises EmptyInput(0, 0) (R151, R242). -/
def Obligations.BuildMakesTheGreedyTree : Prop :=
  ∀ s : State, accepting s = true →
    ((∃ x, x < 256 ∧ entryAt s.freq x ≠ 0#32) → ∃ t, exec .build s = .next t ∧ TreeOk t ∧ GreedyTree t ∧
      (entryAt t.node t.root.toNat).weight.toNat = ((List.range 256).map fun x => (entryAt s.freq x).toNat).sum ∧
      t = { s with
        node := t.node, nsym := t.nsym, nnode := t.nnode, root := t.root
        status := { s.status with treeValid := true } }) ∧
    ((∀ x, x < 256 → entryAt s.freq x = 0#32) → Raises .build s (faultOf 0x11#8 .emptyInput 0#8 0))

/-- R153: what BUILD leaves in the node memory depends on FREQ alone. -/
def Obligations.BuildDependsOnFreqAlone : Prop :=
  ∀ s₁ s₂ t₁ : State, accepting s₁ = true → accepting s₂ = true → s₁.freq = s₂.freq →
    exec .build s₁ = .next t₁ → t₁.status.err = false →
      ∃ t₂, exec .build s₂ = .next t₂ ∧ t₂.status.err = false ∧ t₂.nsym = t₁.nsym ∧ t₂.nnode = t₁.nnode ∧
        t₂.root = t₁.root ∧ ∀ i, i < t₁.nnode.toNat → entryAt t₂.node i = entryAt t₁.node i

/-! ## WALK -/

/-- R161, R162: WALK of a tree gives each leaf's symbol the edge labels from the root to the leaf as its code ("0" when
the tree is one leaf), leaves every other symbol without one, sets NCODE and the flags, and changes nothing else. -/
def Obligations.WalkGivesEachLeafItsPath : Prop :=
  ∀ s : State, Ready .walk s → TreeOk s →
    ∃ t, exec .walk s = .next t ∧
      (∀ k, k < s.nsym.toNat → ∃ path, follow s.node s.root.toNat path = some k ∧
        entryAt t.code (entryAt s.node k).sym.toNat =
          { valid := true, bits := if s.nsym.toNat = 1 then [false] else path }) ∧
      (∀ x, x < 256 → (∀ k, k < s.nsym.toNat → (entryAt s.node k).sym.toNat ≠ x) →
        entryAt t.code x = { valid := false, bits := [] }) ∧
      t = { s with
        code := t.code, ncode := s.nsym
        status := { s.status with codeValid := true, payValid := false, upOpen := false } }

/-- R163: the codebook WALK makes satisfies the codebook invariant, NCODE counts its entries, and for two symbols or more
the Kraft sum is exactly 1, for one symbol 1/2. -/
def Obligations.WalkedCodebookIsPrefixFreeAndFull : Prop :=
  ∀ s t : State, Ready .walk s → TreeOk s → exec .walk s = .next t →
    CodeOk t.code ∧ t.ncode.toNat = numValid t.code ∧ (2 ≤ s.nsym.toNat → kraftSum t.code = 2 ^ 255) ∧
      (s.nsym.toNat = 1 → kraftSum t.code = 2 ^ 254)

/-- R152, R162: one nonzero count z gives the tree that is the leaf z alone, and then WALK gives z the code "0" and no
other symbol a code. -/
def Obligations.OneSymbolGetsTheCodeZero : Prop :=
  ∀ (s : State) (z : Byte), accepting s = true → entryAt s.freq z.toNat ≠ 0#32 →
    (∀ x, x < 256 → x ≠ z.toNat → entryAt s.freq x = 0#32) →
      ∃ t u, exec .build s = .next t ∧ t.nsym = 1#9 ∧ t.nnode = 1#10 ∧ t.root = 0#9 ∧
        entryAt t.node 0 = { leaf := true, sym := z, weight := (entryAt s.freq z.toNat).setWidth 40, left := 0#9, right := 0#9 } ∧
        exec .walk t = .next u ∧ u.ncode = 1#9 ∧
        ∀ x, x < 256 →
          entryAt u.code x = if x = z.toNat then { valid := true, bits := [false] } else { valid := false, bits := [] }

/-! ## The packer and the unpacker -/

/-- R174: PKINIT opens a session on the empty sequence and changes nothing else. -/
def Obligations.PkinitOpensAnEmptySession : Prop :=
  ∀ s : State, accepting s = true →
    ∃ t, exec .pkinit s = .next t ∧ Packed t [] ∧
      t = { s with
        bitLen := 0#32, acc := 0#8, payLen := 0#32
        status := { s.status with pkOpen := true, payValid := false, upOpen := false } }

/-- R171, R175: PKPUT n appends PKDATA[n-1], ..., PKDATA[0] to the packed sequence when it fits, writes only the bytes of
PAY that become complete, and changes no register but BITLEN and ACC. -/
def Obligations.PkputAppendsItsOperand : Prop :=
  ∀ (s : State) (n : BitVec 6) (b : Bits), WellFormed (.pkput n) → Ready (.pkput n) s → Packed s b →
    b.length + n.toNat ≤ 2 ^ 32 - 1 → ceil8 (b.length + n.toNat) ≤ s.payCap.toNat →
      ∃ t, exec (.pkput n) s = .next t ∧
        Packed t (b ++ (List.range n.toNat).map fun j => s.pkData.getLsbD (n.toNat - 1 - j)) ∧
        (∀ a, a < b.length / 8 ∨ (b.length + n.toNat) / 8 ≤ a → readByte .pay t.pay a = readByte .pay s.pay a) ∧
        t = { s with pay := t.pay, acc := t.acc, bitLen := t.bitLen }

/-- R171, R175, R243, R248: PKPUT of more bits than L_MAX or PAY_CAP leave room for faults, the size limit tested
first. -/
def Obligations.PkputBeyondItsLimitsFaults : Prop :=
  ∀ (s : State) (n : BitVec 6), WellFormed (.pkput n) → Ready (.pkput n) s →
    (2 ^ 32 - 1 < s.bitLen.toNat + n.toNat →
      Raises (.pkput n) s (faultOf 0x21#8 .sizeLimitExceeded 0#8 s.bitLen.toNat)) ∧
    (s.bitLen.toNat + n.toNat ≤ 2 ^ 32 - 1 → s.payCap.toNat < ceil8 (s.bitLen.toNat + n.toNat) →
      Raises (.pkput n) s (faultOf 0x21#8 .capacityExceeded 2#8 0))

/-- R172, R177: PKFLUSH leaves the packed sequence, padded with zero bits, in PAY[0..PAY_LEN), closes the session, and
changes nothing else: no byte of PAY but the last, partial one, and BITLEN stays. -/
def Obligations.PkflushLeavesThePaddedPayload : Prop :=
  ∀ (s : State) (b : Bits), Ready .pkflush s → Packed s b →
    ∃ t, exec .pkflush s = .next t ∧ t.payLen.toNat = (b.length + 7) / 8 ∧ payBytes t = bytesOf b ∧
      (∀ a, a ≠ b.length / 8 ∨ b.length % 8 = 0 → readByte .pay t.pay a = readByte .pay s.pay a) ∧
      t = { s with
        pay := t.pay, payLen := t.payLen, acc := 0#8
        status := { s.status with pkOpen := false, payValid := true } }

/-- R178: UPINIT opens an unpack session at bit 0 when PAY holds all BITLEN bits, and raises TruncatedStream(1, PAY_LEN)
otherwise. -/
def Obligations.UpinitOpensAtBitZero : Prop :=
  ∀ s : State, Ready .upinit s →
    ((s.bitLen.toNat + 7) / 8 ≤ s.payLen.toNat →
      exec .upinit s = .next { s with upPos := 0#32, status := { s.status with upOpen := true } }) ∧
    (s.payLen.toNat < (s.bitLen.toNat + 7) / 8 →
      Raises .upinit s (faultOf 0x23#8 .truncatedStream 1#8 s.payLen.toNat))

/-- R179, R180: UPGET n returns the next n bits of the payload in PKDATA, first bit most significant, and moves UPPOS on by
n; it raises TruncatedStream(3, UPPOS) when fewer than n bits remain before BITLEN. -/
def Obligations.UpgetReturnsTheNextBits : Prop :=
  ∀ (s : State) (n : BitVec 6), WellFormed (.upget n) → Ready (.upget n) s →
    (s.upPos.toNat + n.toNat ≤ s.bitLen.toNat → ∃ t, exec (.upget n) s = .next t ∧
      (∀ k, k < n.toNat → t.pkData.getLsbD (n.toNat - 1 - k) =
        (readByte .pay s.pay ((s.upPos.toNat + k) / 8)).getLsbD (7 - (s.upPos.toNat + k) % 8)) ∧
      (∀ k, n.toNat ≤ k → t.pkData.getLsbD k = false) ∧ t.upPos.toNat = s.upPos.toNat + n.toNat ∧
      t = { s with pkData := t.pkData, upPos := t.upPos }) ∧
    (s.bitLen.toNat < s.upPos.toNat + n.toNat →
      Raises (.upget n) s (faultOf 0x24#8 .truncatedStream 3#8 s.upPos.toNat))

/-- R179: PKPUT n of a value on a fresh session, then PKFLUSH, UPINIT and UPGET n, returns the value mod 2^n. -/
def Obligations.PutThenGetReturnsTheValue : Prop :=
  ∀ (s : State) (n : BitVec 6), accepting s = true → WellFormed (.pkput n) → ceil8 n.toNat ≤ s.payCap.toNat →
    ∃ t₁ t₂ t₃ t₄ t₅, exec .pkinit s = .next t₁ ∧ exec (.pkput n) t₁ = .next t₂ ∧ exec .pkflush t₂ = .next t₃ ∧
      exec .upinit t₃ = .next t₄ ∧ exec (.upget n) t₄ = .next t₅ ∧ t₅.status.err = false ∧
      t₅.pkData.toNat = s.pkData.toNat % 2 ^ n.toNat

/-! ## ENCODE and DECODE -/

/-- R206: ENCODE of an input that the codebook covers and that fits leaves in PAY the packed concatenation of the codes in
input order, with BITLEN its length, and changes nothing else. -/
def Obligations.EncodePacksTheConcatenatedCodes : Prop :=
  ∀ s : State, Ready .encode s → s.srcLen.toNat ≤ s.srcCap.toNat → Covers s.code (srcBytes s) →
    (encodeAll s.code (srcBytes s)).length ≤ 2 ^ 32 - 1 →
    ceil8 (encodeAll s.code (srcBytes s)).length ≤ s.payCap.toNat →
      ∃ t, exec .encode s = .next t ∧
        t.bitLen.toNat = ((srcBytes s).map fun b => (entryAt s.code b.toNat).bits.length).sum ∧
        t.payLen.toNat = (t.bitLen.toNat + 7) / 8 ∧ payBytes t = bytesOf (encodeAll s.code (srcBytes s)) ∧
        (∀ a, t.payLen.toNat ≤ a → readByte .pay t.pay a = readByte .pay s.pay a) ∧
        t = { s with
          pay := t.pay, payLen := t.payLen, bitLen := t.bitLen, acc := 0#8
          status := { s.status with payValid := true, pkOpen := false, upOpen := false } }

/-- R206, R248: ENCODE of an input longer than SRC_CAP raises CapacityExceeded(1, SRC_LEN). Otherwise the first input byte
at which one of three tests fails decides the fault: no code, then L_MAX, then PAY_CAP. The bytes before it are covered
and fit. -/
def Obligations.EncodeFaultsAtTheFirstBadByte : Prop :=
  (∀ s : State, Ready .encode s → s.srcCap.toNat < s.srcLen.toNat →
    Raises .encode s (faultOf 0x28#8 .capacityExceeded 1#8 s.srcLen.toNat)) ∧
  ∀ (s : State) (before after : List Byte) (c : Byte), Ready .encode s → s.srcLen.toNat ≤ s.srcCap.toNat →
    srcBytes s = before ++ c :: after → Covers s.code before →
    (encodeAll s.code before).length ≤ 2 ^ 32 - 1 → ceil8 (encodeAll s.code before).length ≤ s.payCap.toNat →
      let sofar := (encodeAll s.code before).length
      let next := sofar + (entryAt s.code c.toNat).bits.length
      ((entryAt s.code c.toNat).valid = false → Raises .encode s (faultOf 0x28#8 .corruptTable 13#8 before.length)) ∧
      ((entryAt s.code c.toNat).valid = true → 2 ^ 32 - 1 < next →
        Raises .encode s (faultOf 0x28#8 .sizeLimitExceeded 0#8 sofar)) ∧
      ((entryAt s.code c.toNat).valid = true → next ≤ 2 ^ 32 - 1 → s.payCap.toNat < ceil8 next →
        Raises .encode s (faultOf 0x28#8 .capacityExceeded 2#8 0))

/-- R208, R211: DECODE of a payload whose BITLEN bits are the concatenated codes of a sequence emits exactly that
sequence, with no premise on how the codebook was made but the codebook invariant, and changes nothing else. -/
def Obligations.DecodeInvertsEncoding : Prop :=
  ∀ (s : State) (out : List Byte), Ready .decode s → CodeOk s.code → Covers s.code out →
    ceil8 s.bitLen.toNat ≤ s.payLen.toNat →
    bitsRead .pay s.pay 0 0 s.bitLen.toNat = encodeAll s.code out → out.length ≤ s.dstCap.toNat →
      ∃ t, exec .decode s = .next t ∧ t.dstLen.toNat = out.length ∧ dstBytes t = out ∧
        (∀ a, out.length ≤ a → readByte .dst t.dst a = readByte .dst s.dst a) ∧
        t = { s with
          dst := t.dst, dstLen := t.dstLen, upPos := s.bitLen, status := { s.status with upOpen := false } }

/-- R208: DECODE's three faults, in the order it tests them: a payload shorter than BITLEN; the first symbol that does not
fit DST; bits left over at the end, of which no prefix is a code, with their number. -/
def Obligations.DecodeFaultsInOrder : Prop :=
  ∀ s : State, Ready .decode s → CodeOk s.code →
    (s.payLen.toNat < ceil8 s.bitLen.toNat →
      Raises .decode s (faultOf 0x29#8 .truncatedStream 1#8 s.payLen.toNat)) ∧
    ∀ (out : List Byte) (left : Bits), ceil8 s.bitLen.toNat ≤ s.payLen.toNat → Covers s.code out →
      bitsRead .pay s.pay 0 0 s.bitLen.toNat = encodeAll s.code out ++ left →
        (s.dstCap.toNat < out.length → Raises .decode s (faultOf 0x29#8 .capacityExceeded 3#8 0)) ∧
        (out.length ≤ s.dstCap.toNat → left ≠ [] →
          (∀ x, x < 256 → (entryAt s.code x).valid = true → ¬(entryAt s.code x).bits <+: left) →
            Raises .decode s (faultOf 0x29#8 .truncatedStream 2#8 left.length))

/-! ## Containers -/

/-- R191, R192, R110 to R113: SER writes the container of the codebook, BITLEN and the payload to DST when it fits, and
changes nothing else; otherwise it raises CapacityExceeded(3, 0). -/
def Obligations.SerWritesTheContainer : Prop :=
  ∀ s : State, Ready .ser s →
    let c := containerBytes (tableBytes s.code s.ncode.toNat) s.bitLen.toNat (payBytes s)
    (c.length ≤ s.dstCap.toNat → ∃ t, exec .ser s = .next t ∧ t.dstLen.toNat = c.length ∧ dstBytes t = c ∧
      (∀ a, c.length ≤ a → readByte .dst t.dst a = readByte .dst s.dst a) ∧
      t = { s with dst := t.dst, dstLen := t.dstLen }) ∧
    (s.dstCap.toNat < c.length → Raises .ser s (faultOf 0x30#8 .capacityExceeded 3#8 0))

/-- R195, R199 (a): DESER of a container of a codebook restores the codebook, the bit length and the payload, whatever
their relation, and changes nothing else but the payload flags. -/
def Obligations.DeserRestoresWhatAContainerHolds : Prop :=
  ∀ (s : State) (code : CodeTable) (bitLen : Nat) (payload : List Byte), accepting s = true →
    s.srcLen.toNat ≤ s.srcCap.toNat → CodeOk code → bitLen < 2 ^ 32 →
    srcBytes s = containerBytes (tableBytes code (numValid code)) bitLen payload →
    payload.length ≤ s.payCap.toNat →
      ∃ t, exec .deser s = .next t ∧ t.code = code ∧ t.ncode.toNat = numValid code ∧ t.bitLen.toNat = bitLen ∧
        t.payLen.toNat = payload.length ∧ payBytes t = payload ∧
        (∀ a, payload.length ≤ a → readByte .pay t.pay a = readByte .pay s.pay a) ∧
        t = { s with
          code := t.code, ncode := t.ncode, bitLen := t.bitLen, pay := t.pay, payLen := t.payLen, acc := 0#8
          status := { s.status with codeValid := true, payValid := true, pkOpen := false, upOpen := false } }

/-- R199 (b), R114: whatever container DESER accepts, SER after it reproduces byte for byte, when it fits DST. -/
def Obligations.SerAfterDeserReproducesTheContainer : Prop :=
  ∀ s t : State, accepting s = true → exec .deser s = .next t → t.status.err = false →
    s.srcLen.toNat ≤ s.dstCap.toNat →
      ∃ u, exec .ser t = .next u ∧ u.status.err = false ∧ u.dstLen = s.srcLen ∧ dstBytes u = srcBytes s

/-- R195, R197, R244, R248: DESER's tests, in their order, each with its sub-cause and information word. Before the
records: SRC_LEN against SRC_CAP, then CorruptTable 1 to 5. At the record after well-formed ones: CorruptTable 6 (header),
7, 8, 6 (code bits), 9. After the last record: CorruptTable 10, 11, 12, then CapacityExceeded(2). -/
def Obligations.DeserRefusesMalformedPrefixes : Prop :=
  (∀ s : State, accepting s = true →
    let n := s.srcLen.toNat
    let size := memRead .src s.src 0 4
    (s.srcCap.toNat < n → Raises .deser s (faultOf 0x31#8 .capacityExceeded 1#8 n)) ∧
    (n ≤ s.srcCap.toNat → n < 4 → Raises .deser s (faultOf 0x31#8 .corruptTable 1#8 n)) ∧
    (n ≤ s.srcCap.toNat → 4 ≤ n → n < size + 4 → Raises .deser s (faultOf 0x31#8 .corruptTable 2#8 4)) ∧
    (n ≤ s.srcCap.toNat → size + 4 ≤ n → size < 3 → Raises .deser s (faultOf 0x31#8 .corruptTable 3#8 4)) ∧
    (n ≤ s.srcCap.toNat → size + 4 ≤ n → 3 ≤ size → readByte .src s.src 4 ≠ 0x01#8 →
      Raises .deser s (faultOf 0x31#8 .corruptTable 4#8 4)) ∧
    (n ≤ s.srcCap.toNat → size + 4 ≤ n → 3 ≤ size → readByte .src s.src 4 = 0x01#8 →
      256 < 256 * (readByte .src s.src 5).toNat + (readByte .src s.src 6).toNat →
        Raises .deser s (faultOf 0x31#8 .corruptTable 5#8 5))) ∧
  ∀ (s : State) (recs : List (Byte × Bits)), accepting s = true → ParsedSoFar s recs →
    let n := s.srcLen.toNat
    let e := 4 + memRead .src s.src 0 4
    let cnt := memRead .src s.src 5 2
    let p := 7 + (recordBytes recs).length
    let sym := (readByte .src s.src p).toNat
    let cl := (readByte .src s.src (p + 1)).toNat
    (recs.length < cnt →
      (e < p + 2 → Raises .deser s (faultOf 0x31#8 .corruptTable 6#8 p)) ∧
      (p + 2 ≤ e → (∃ r ∈ recs, sym ≤ r.1.toNat) → Raises .deser s (faultOf 0x31#8 .corruptTable 7#8 p)) ∧
      (p + 2 ≤ e → (∀ r ∈ recs, r.1.toNat < sym) →
        (cl = 0 → Raises .deser s (faultOf 0x31#8 .corruptTable 8#8 (p + 1))) ∧
        (cl ≠ 0 → e < p + 2 + (cl + 7) / 8 → Raises .deser s (faultOf 0x31#8 .corruptTable 6#8 (p + 2))) ∧
        (cl ≠ 0 → p + 2 + (cl + 7) / 8 ≤ e →
          (∃ j, cl ≤ j ∧ j < 8 * ((cl + 7) / 8) ∧ bitRead .src s.src (p + 2) j = true) →
            Raises .deser s (faultOf 0x31#8 .corruptTable 9#8 (p + 2 + (cl + 7) / 8 - 1))))) ∧
    (recs.length = cnt →
      (p < e → Raises .deser s (faultOf 0x31#8 .corruptTable 10#8 p)) ∧
      (p = e → (∃ r ∈ recs, ∃ q ∈ recs, r.1 ≠ q.1 ∧ r.2 <+: q.2) →
        Raises .deser s (faultOf 0x31#8 .corruptTable 11#8 e)) ∧
      (p = e → (∀ r ∈ recs, ∀ q ∈ recs, r.1 ≠ q.1 → ¬r.2 <+: q.2) →
        (n < e + 4 → Raises .deser s (faultOf 0x31#8 .corruptTable 12#8 e)) ∧
        (e + 4 ≤ n → s.payCap.toNat < n - e - 4 → Raises .deser s (faultOf 0x31#8 .capacityExceeded 2#8 0))))

/-- R195, R196, R244: a container of a table whose codes have 1 to 255 bits but are not prefix-free, duplicate codes
included, is refused with CorruptTable(11, e). -/
def Obligations.DeserRefusesTablesThatAreNotPrefixFree : Prop :=
  ∀ (s : State) (code : CodeTable) (bitLen x y : Nat) (payload : List Byte), accepting s = true →
    s.srcLen.toNat ≤ s.srcCap.toNat →
    srcBytes s = containerBytes (tableBytes code (numValid code)) bitLen payload →
    (∀ z, z < 256 → (entryAt code z).valid = true →
      1 ≤ (entryAt code z).bits.length ∧ (entryAt code z).bits.length ≤ 255) →
    x < 256 → y < 256 → x ≠ y → (entryAt code x).valid = true → (entryAt code y).valid = true →
    (entryAt code x).bits <+: (entryAt code y).bits →
      Raises .deser s (faultOf 0x31#8 .corruptTable 11#8 (4 + (tableBytes code (numValid code)).length))

/-! ## Composites and the round trip -/

/-- R214: COMPRESS of an empty input succeeds with the 11-byte container, an empty codebook and an empty payload. -/
def Obligations.CompressOfEmptyInput : Prop :=
  ∀ s : State, accepting s = true → s.srcLen = 0#32 → 11 ≤ s.dstCap.toNat →
    ∃ t, exec .compress s = .next t ∧
      dstBytes t = [0#8, 0#8, 0#8, 3#8, 1#8, 0#8, 0#8, 0#8, 0#8, 0#8, 0#8] ∧ t.dstLen = 11#32 ∧
      (∀ x, x < 256 → entryAt t.freq x = 0#32 ∧ entryAt t.code x = { valid := false, bits := [] }) ∧
      (∀ a, 11 ≤ a → readByte .dst t.dst a = readByte .dst s.dst a) ∧
      t = { s with
        freq := t.freq, code := t.code, ncode := 0#9, nsym := 0#9, nnode := 0#10, root := 0#9
        bitLen := 0#32, payLen := 0#32, acc := 0#8, dst := t.dst, dstLen := 11#32
        status := { s.status with
          treeValid := false, codeValid := true, payValid := true, pkOpen := false, upOpen := false } }

/-- R213: for SRC_LEN > 0, COMPRESS leaves exactly the state that COUNT, BUILD, WALK, ENCODE and SER leave one after the
other, and faults exactly when one of them does, with the same OP, SUB, CODE and ERRINFO and its own opcode in ERR.CMD. -/
def Obligations.CompressIsItsFiveStages : Prop :=
  ∀ s t₁ t₂ t₃ t₄ t₅ : State, accepting s = true → s.srcLen ≠ 0#32 → exec .count s = .next t₁ →
    exec .build t₁ = .next t₂ → exec .walk t₂ = .next t₃ → exec .encode t₃ = .next t₄ → exec .ser t₄ = .next t₅ →
      ∃ t, exec .compress s = .next t ∧ (t₅.status.err = false → t = t₅) ∧
        (t₅.status.err = true → t.status.err = true ∧ t.err = { t₅.err with cmd := 0x40#8 } ∧ t.errInfo = t₅.errInfo)

/-- R217: DECOMPRESS leaves exactly the state that DESER and DECODE leave, and faults exactly when one of them does, with
the same OP, SUB, CODE and ERRINFO and its own opcode in ERR.CMD. -/
def Obligations.DecompressIsItsTwoStages : Prop :=
  ∀ s t₁ t₂ : State, accepting s = true → exec .deser s = .next t₁ → exec .decode t₁ = .next t₂ →
    ∃ t, exec .decompress s = .next t ∧ (t₂.status.err = false → t = t₂) ∧
      (t₂.status.err = true → t.status.err = true ∧ t.err = { t₂.err with cmd := 0x41#8 } ∧ t.errInfo = t₂.errInfo)

/-- R153, R163, R213: the counts of any byte sequence shorter than 2^32 give a codebook: BUILD and WALK succeed on them,
and the codebook satisfies the codebook invariant and covers the sequence. -/
def Obligations.EverySequenceHasACodebook : Prop :=
  ∀ bs : List Byte, bs.length < 2 ^ 32 → ∃ code, huffmanCode bs = some code ∧ CodeOk code ∧ Covers code bs

/-- R206, R212: COMPRESS of an input that fits writes the container of its Huffman codebook, the length of its encoding
and the packed encoding; BITLEN, PAY and CODE hold the same. -/
def Obligations.CompressWritesTheHuffmanContainer : Prop :=
  ∀ (s : State) (code : CodeTable), accepting s = true → s.srcLen.toNat ≤ s.srcCap.toNat →
    huffmanCode (srcBytes s) = some code →
    let b := encodeAll code (srcBytes s)
    let c := containerBytes (tableBytes code (numValid code)) b.length (bytesOf b)
    b.length ≤ 2 ^ 32 - 1 → ceil8 b.length ≤ s.payCap.toNat → c.length ≤ s.dstCap.toNat →
      ∃ t, exec .compress s = .next t ∧ t.status.err = false ∧ dstBytes t = c ∧ t.dstLen.toNat = c.length ∧
        t.code = code ∧ t.ncode.toNat = numValid code ∧ t.bitLen.toNat = b.length ∧ payBytes t = bytesOf b ∧
        (∀ a, c.length ≤ a → readByte .dst t.dst a = readByte .dst s.dst a) ∧
        (∀ a, ceil8 b.length ≤ a → readByte .pay t.pay a = readByte .pay s.pay a) ∧
        t = { s with
          freq := t.freq, node := t.node, nsym := t.nsym, nnode := t.nnode, root := t.root, code := t.code
          ncode := t.ncode, bitLen := t.bitLen, pay := t.pay, payLen := t.payLen, acc := 0#8, dst := t.dst
          dstLen := t.dstLen
          status := { s.status with
            treeValid := decide (s.srcLen ≠ 0#32), codeValid := true, payValid := true, pkOpen := false
            upOpen := false } }

/-- R211, R216: DECOMPRESS of a container that holds a codebook and the packed encoding of a sequence the codebook covers
leaves exactly that sequence in DST. -/
def Obligations.DecompressRecoversTheSequence : Prop :=
  ∀ (s : State) (code : CodeTable) (out : List Byte), accepting s = true → s.srcLen.toNat ≤ s.srcCap.toNat →
    CodeOk code → Covers code out →
    let b := encodeAll code out
    b.length ≤ 2 ^ 32 - 1 → ceil8 b.length ≤ s.payCap.toNat → out.length ≤ s.dstCap.toNat →
    srcBytes s = containerBytes (tableBytes code (numValid code)) b.length (bytesOf b) →
      ∃ t, exec .decompress s = .next t ∧ t.status.err = false ∧ dstBytes t = out ∧ t.dstLen.toNat = out.length ∧
        t.code = code ∧ t.bitLen.toNat = b.length ∧
        (∀ a, out.length ≤ a → readByte .dst t.dst a = readByte .dst s.dst a) ∧
        (∀ a, ceil8 b.length ≤ a → readByte .pay t.pay a = readByte .pay s.pay a) ∧
        t = { s with
          code := t.code, ncode := t.ncode, bitLen := t.bitLen, pay := t.pay, payLen := t.payLen, acc := 0#8
          upPos := t.bitLen, dst := t.dst, dstLen := t.dstLen
          status := { s.status with codeValid := true, payValid := true, pkOpen := false, upOpen := false } }

/-- R218, the round trip: compress, move DST to SRC, decompress, and DST holds the input again, for every input that fits,
from any state without a latched fault. -/
def Obligations.CompressThenDecompressIsIdentity : Prop :=
  ∀ (s : State) (code : CodeTable), accepting s = true → s.srcLen.toNat ≤ s.srcCap.toNat →
    s.srcLen.toNat ≤ s.dstCap.toNat → huffmanCode (srcBytes s) = some code →
    let b := encodeAll code (srcBytes s)
    let c := containerBytes (tableBytes code (numValid code)) b.length (bytesOf b)
    b.length ≤ 2 ^ 32 - 1 → ceil8 b.length ≤ s.payCap.toNat → c.length ≤ s.dstCap.toNat →
    c.length ≤ s.srcCap.toNat →
      ∃ t, exec .compress s = .next t ∧ t.status.err = false ∧
        ∀ u : State, u = { t with src := u.src, srcLen := t.dstLen } → srcBytes u = dstBytes t →
          ∃ v, exec .decompress u = .next v ∧ v.status.err = false ∧ v.dstLen = s.srcLen ∧
            dstBytes v = srcBytes s

/-- R215: k copies of one byte z: the tree is a single leaf, z has the code "0", and they compress to k zero bits under the
table with that one record. -/
def Obligations.CompressOfOneRepeatedSymbol : Prop :=
  ∀ (s : State) (z : Byte) (k : Nat), accepting s = true → 1 ≤ k → s.srcLen.toNat = k → k ≤ s.srcCap.toNat →
    srcBytes s = List.replicate k z → ceil8 k ≤ s.payCap.toNat → 14 + ceil8 k ≤ s.dstCap.toNat →
      ∃ t, exec .compress s = .next t ∧ t.status.err = false ∧ t.nsym = 1#9 ∧ t.nnode = 1#10 ∧
        (entryAt t.node 0).leaf = true ∧ (entryAt t.node 0).sym = z ∧
        entryAt t.code z.toNat = { valid := true, bits := [false] } ∧ t.bitLen.toNat = k ∧
        payBytes t = List.replicate (ceil8 k) 0#8 ∧
        dstBytes t = [0#8, 0#8, 0#8, 6#8, 1#8, 0#8, 1#8, z, 1#8, 0#8] ++ bigEndian 4 k ++
          List.replicate (ceil8 k) 0#8

/-- R25: the result of COMPRESS depends on SRC[0..SRC_LEN), SRC_LEN and the capacities only: two states that agree on
them, whatever else earlier commands left in them, fault alike, with the same record, or give the same output, payload,
codebook, tree and counts. -/
def Obligations.CompressDependsOnItsInputAlone : Prop :=
  ∀ s₁ s₂ t₁ : State, accepting s₁ = true → accepting s₂ = true → s₁.srcLen = s₂.srcLen →
    srcBytes s₁ = srcBytes s₂ → s₁.srcCap = s₂.srcCap → s₁.dstCap = s₂.dstCap → s₁.payCap = s₂.payCap →
    exec .compress s₁ = .next t₁ →
      ∃ t₂, exec .compress s₂ = .next t₂ ∧ t₂.status.err = t₁.status.err ∧
        (t₁.status.err = true → t₂.err = t₁.err ∧ t₂.errInfo = t₁.errInfo) ∧
        (t₁.status.err = false →
          t₂.dstLen = t₁.dstLen ∧ dstBytes t₂ = dstBytes t₁ ∧ t₂.bitLen = t₁.bitLen ∧ t₂.payLen = t₁.payLen ∧
            payBytes t₂ = payBytes t₁ ∧ t₂.code = t₁.code ∧ t₂.ncode = t₁.ncode ∧ t₂.freq = t₁.freq ∧
            t₂.nsym = t₁.nsym ∧ t₂.nnode = t₁.nnode ∧ t₂.root = t₁.root ∧
            ∀ i, i < t₁.nnode.toNat → entryAt t₂.node i = entryAt t₁.node i)

/-- R25: the result of DECOMPRESS depends on SRC[0..SRC_LEN), SRC_LEN and the capacities only: the same fault with the
same record, or the same output, codebook and payload. -/
def Obligations.DecompressDependsOnItsInputAlone : Prop :=
  ∀ s₁ s₂ t₁ : State, accepting s₁ = true → accepting s₂ = true → s₁.srcLen = s₂.srcLen →
    srcBytes s₁ = srcBytes s₂ → s₁.srcCap = s₂.srcCap → s₁.dstCap = s₂.dstCap → s₁.payCap = s₂.payCap →
    exec .decompress s₁ = .next t₁ →
      ∃ t₂, exec .decompress s₂ = .next t₂ ∧ t₂.status.err = t₁.status.err ∧
        (t₁.status.err = true → t₂.err = t₁.err ∧ t₂.errInfo = t₁.errInfo) ∧
        (t₁.status.err = false →
          t₂.dstLen = t₁.dstLen ∧ dstBytes t₂ = dstBytes t₁ ∧ t₂.bitLen = t₁.bitLen ∧ t₂.payLen = t₁.payLen ∧
            payBytes t₂ = payBytes t₁ ∧ t₂.code = t₁.code ∧ t₂.ncode = t₁.ncode ∧ t₂.upPos = t₁.upPos)

/-! ## Whole-machine rules -/

/-- R53, R21: no command writes SRC, or the capacities; none but SRST writes SRC_LEN. -/
def Obligations.NoCommandWritesTheSource : Prop :=
  ∀ (i : Instr) (s t : State), exec i s = .next t →
    t.src = s.src ∧ t.srcCap = s.srcCap ∧ t.dstCap = s.dstCap ∧ t.payCap = s.payCap ∧
      (i ≠ .srst → t.srcLen = s.srcLen)

/-- R21, R40, R41, R43, R54, R55: each register, table and buffer changes only in the commands the spec lists as its
writers, and no command that completes writes ERR or ERRINFO (SRST and faults apart; SRC and SRC_LEN are the subject of
`NoCommandWritesTheSource`, STATUS of `FlagsFollowTheirSetAndClearEvents`). -/
def Obligations.EachTableHasItsListedWriters : Prop :=
  ∀ (i : Instr) (s t : State), exec i s = .next t → t.status.err = false → i ≠ .srst →
    t.err = s.err ∧ t.errInfo = s.errInfo ∧
    (i ∉ [Instr.count, .compress] → t.freq = s.freq) ∧
    (i ∉ [Instr.build, .compress] → t.node = s.node ∧ t.nsym = s.nsym ∧ t.nnode = s.nnode ∧ t.root = s.root) ∧
    (i ∉ [Instr.walk, .deser, .compress, .decompress] → t.code = s.code ∧ t.ncode = s.ncode) ∧
    (i ∉ [Instr.ser, .decode, .compress, .decompress] → t.dst = s.dst ∧ t.dstLen = s.dstLen) ∧
    ((∀ n, i ≠ .pkput n) → i ∉ [Instr.pkflush, .encode, .deser, .compress, .decompress] → t.pay = s.pay) ∧
    (i ∉ [Instr.pkinit, .pkflush, .encode, .deser, .compress, .decompress] → t.payLen = s.payLen) ∧
    ((∀ n, i ≠ .pkput n) → i ∉ [Instr.pkinit, .encode, .deser, .compress, .decompress] → t.bitLen = s.bitLen) ∧
    ((∀ n, i ≠ .pkput n) → i ∉ [Instr.pkinit, .pkflush, .encode, .deser, .compress, .decompress] → t.acc = s.acc) ∧
    ((∀ n, i ≠ .upget n) → t.pkData = s.pkData) ∧
    ((∀ n, i ≠ .upget n) → i ∉ [Instr.upinit, .decode, .decompress] → t.upPos = s.upPos)

/-- R32: the events that set and clear each flag, over all commands that complete: TREE_VALID, CODE_VALID, PAY_VALID,
PK_OPEN and UP_OPEN change exactly as the table's columns say. -/
def Obligations.FlagsFollowTheirSetAndClearEvents : Prop :=
  ∀ (i : Instr) (s t : State), accepting s = true → exec i s = .next t → t.status.err = false → i ≠ .srst →
    t.status.busy = false ∧
    t.status.treeValid =
      (if i = .build then true else if i = .count then false
        else if i = .compress then decide (s.srcLen ≠ 0#32) else s.status.treeValid) ∧
    t.status.codeValid =
      (if i ∈ [Instr.walk, .deser, .compress, .decompress] then true else s.status.codeValid) ∧
    t.status.payValid =
      (if i ∈ [Instr.pkflush, .encode, .deser, .compress, .decompress] then true
        else if i ∈ [Instr.pkinit, .walk] then false else s.status.payValid) ∧
    t.status.pkOpen =
      (if i = .pkinit then true
        else if i ∈ [Instr.pkflush, .encode, .deser, .compress, .decompress] then false else s.status.pkOpen) ∧
    t.status.upOpen =
      (if i = .upinit then true
        else if i ∈ [Instr.pkinit, .walk, .encode, .deser, .decode, .compress, .decompress] then false
        else s.status.upOpen)

/-- R80, R236, R300: every command ends, and every host operation of an idle block has its next state, from every state
in which TREE_VALID = 1 says that a tree is there (part of the invariant `TreeInv`). -/
def Obligations.NoCommandHangs : Prop :=
  ∀ s : State, (s.status.err = false → s.status.treeValid = true → TreeOk s) →
    (∀ i : Instr, ∃ t, exec i s = .next t) ∧ (s.status.busy = false → ∃ t, step s = .next t)

/-! ## Invariants -/

/-- The state after reset meets every invariant. -/
def Obligations.ResetMeetsTheInvariants : Prop :=
  LatchInv State.reset ∧ CapsInv State.reset ∧ MemInv State.reset ∧ BufferInv State.reset ∧ TreeInv State.reset ∧
    CodeInv State.reset

/-- R32 to R34, R80: every step keeps the fault latch consistent: BUSY = 0 between operations, STATUS.ERR equals
ERR.CODE ≠ 0, and without a fault ERR and ERRINFO are 0. -/
def Obligations.StepKeepsTheFaultLatch : Prop :=
  ∀ s t : State, LatchInv s → step s = .next t → LatchInv t

/-- Every step keeps the byte memories in their canonical form and the capacities in their ranges. -/
def Obligations.StepKeepsMemoriesCanonical : Prop :=
  ∀ s t : State, MemInv s → CapsInv s → step s = .next t → MemInv t ∧ CapsInv t

/-- R21, R26, R32: every step keeps the sessions and buffers as `BufferInv` says: the interlocks of R32, the packed
sequence of R26, every length and every written byte inside its buffer. -/
def Obligations.StepKeepsSessionsAndBuffers : Prop :=
  ∀ s t : State, BufferInv s → step s = .next t → BufferInv t

/-- R32, R42, R44: every step keeps TREE_VALID and CODE_VALID true to their meaning: the greedy tree BUILD makes from the
current FREQ, a prefix-free codebook that NCODE counts. -/
def Obligations.StepKeepsTreeAndCodebook : Prop :=
  ∀ s t : State, TreeInv s → CodeInv s → step s = .next t → TreeInv t ∧ CodeInv t
end

