-- ==== Sys2Proof/Laws/State.lean ====
section
/-! SUPPORT. The fields of a state after each shared update, one lemma a field, so that no later proof unfolds a record
update. -/

namespace Sys2Proof.Machine

/-! ## State.advance -/

@[simp] theorem State.advance_srcLen (s : State) : (s.advance).srcLen = s.srcLen := rfl
@[simp] theorem State.advance_dstLen (s : State) : (s.advance).dstLen = s.dstLen := rfl
@[simp] theorem State.advance_bitLen (s : State) : (s.advance).bitLen = s.bitLen := rfl
@[simp] theorem State.advance_payLen (s : State) : (s.advance).payLen = s.payLen := rfl
@[simp] theorem State.advance_nsym (s : State) : (s.advance).nsym = s.nsym := rfl
@[simp] theorem State.advance_nnode (s : State) : (s.advance).nnode = s.nnode := rfl
@[simp] theorem State.advance_root (s : State) : (s.advance).root = s.root := rfl
@[simp] theorem State.advance_ncode (s : State) : (s.advance).ncode = s.ncode := rfl
@[simp] theorem State.advance_pkData (s : State) : (s.advance).pkData = s.pkData := rfl
@[simp] theorem State.advance_upPos (s : State) : (s.advance).upPos = s.upPos := rfl
@[simp] theorem State.advance_acc (s : State) : (s.advance).acc = s.acc := rfl
@[simp] theorem State.advance_status (s : State) : (s.advance).status = s.status := rfl
@[simp] theorem State.advance_err (s : State) : (s.advance).err = s.err := rfl
@[simp] theorem State.advance_errInfo (s : State) : (s.advance).errInfo = s.errInfo := rfl
@[simp] theorem State.advance_srcCap (s : State) : (s.advance).srcCap = s.srcCap := rfl
@[simp] theorem State.advance_dstCap (s : State) : (s.advance).dstCap = s.dstCap := rfl
@[simp] theorem State.advance_payCap (s : State) : (s.advance).payCap = s.payCap := rfl
@[simp] theorem State.advance_freq (s : State) : (s.advance).freq = s.freq := rfl
@[simp] theorem State.advance_node (s : State) : (s.advance).node = s.node := rfl
@[simp] theorem State.advance_code (s : State) : (s.advance).code = s.code := rfl
@[simp] theorem State.advance_src (s : State) : (s.advance).src = s.src := rfl
@[simp] theorem State.advance_dst (s : State) : (s.advance).dst = s.dst := rfl
@[simp] theorem State.advance_pay (s : State) : (s.advance).pay = s.pay := rfl
@[simp] theorem State.advance_script (s : State) : (s.advance).script = s.script := rfl
@[simp] theorem State.advance_index (s : State) : (s.advance).index = s.index + 1 := rfl
@[simp] theorem State.advance_reads (s : State) : (s.advance).reads = s.reads := rfl
@[simp] theorem State.advance_draws (s : State) : (s.advance).draws = s.draws := rfl

/-! ## begin -/

@[simp] theorem begin_srcLen (s : State) : (begin s).srcLen = s.srcLen := rfl
@[simp] theorem begin_dstLen (s : State) : (begin s).dstLen = s.dstLen := rfl
@[simp] theorem begin_bitLen (s : State) : (begin s).bitLen = s.bitLen := rfl
@[simp] theorem begin_payLen (s : State) : (begin s).payLen = s.payLen := rfl
@[simp] theorem begin_nsym (s : State) : (begin s).nsym = s.nsym := rfl
@[simp] theorem begin_nnode (s : State) : (begin s).nnode = s.nnode := rfl
@[simp] theorem begin_root (s : State) : (begin s).root = s.root := rfl
@[simp] theorem begin_ncode (s : State) : (begin s).ncode = s.ncode := rfl
@[simp] theorem begin_pkData (s : State) : (begin s).pkData = s.pkData := rfl
@[simp] theorem begin_upPos (s : State) : (begin s).upPos = s.upPos := rfl
@[simp] theorem begin_acc (s : State) : (begin s).acc = s.acc := rfl
@[simp] theorem begin_status (s : State) : (begin s).status = s.status.busyOn := rfl
@[simp] theorem begin_err (s : State) : (begin s).err = s.err := rfl
@[simp] theorem begin_errInfo (s : State) : (begin s).errInfo = s.errInfo := rfl
@[simp] theorem begin_srcCap (s : State) : (begin s).srcCap = s.srcCap := rfl
@[simp] theorem begin_dstCap (s : State) : (begin s).dstCap = s.dstCap := rfl
@[simp] theorem begin_payCap (s : State) : (begin s).payCap = s.payCap := rfl
@[simp] theorem begin_freq (s : State) : (begin s).freq = s.freq := rfl
@[simp] theorem begin_node (s : State) : (begin s).node = s.node := rfl
@[simp] theorem begin_code (s : State) : (begin s).code = s.code := rfl
@[simp] theorem begin_src (s : State) : (begin s).src = s.src := rfl
@[simp] theorem begin_dst (s : State) : (begin s).dst = s.dst := rfl
@[simp] theorem begin_pay (s : State) : (begin s).pay = s.pay := rfl
@[simp] theorem begin_script (s : State) : (begin s).script = s.script := rfl
@[simp] theorem begin_index (s : State) : (begin s).index = s.index := rfl
@[simp] theorem begin_reads (s : State) : (begin s).reads = s.reads := rfl
@[simp] theorem begin_draws (s : State) : (begin s).draws = s.draws := rfl

/-! ## finish -/

@[simp] theorem finish_srcLen (s : State) : (finish s).srcLen = s.srcLen := rfl
@[simp] theorem finish_dstLen (s : State) : (finish s).dstLen = s.dstLen := rfl
@[simp] theorem finish_bitLen (s : State) : (finish s).bitLen = s.bitLen := rfl
@[simp] theorem finish_payLen (s : State) : (finish s).payLen = s.payLen := rfl
@[simp] theorem finish_nsym (s : State) : (finish s).nsym = s.nsym := rfl
@[simp] theorem finish_nnode (s : State) : (finish s).nnode = s.nnode := rfl
@[simp] theorem finish_root (s : State) : (finish s).root = s.root := rfl
@[simp] theorem finish_ncode (s : State) : (finish s).ncode = s.ncode := rfl
@[simp] theorem finish_pkData (s : State) : (finish s).pkData = s.pkData := rfl
@[simp] theorem finish_upPos (s : State) : (finish s).upPos = s.upPos := rfl
@[simp] theorem finish_acc (s : State) : (finish s).acc = s.acc := rfl
@[simp] theorem finish_status (s : State) : (finish s).status = s.status.busyOff := rfl
@[simp] theorem finish_err (s : State) : (finish s).err = s.err := rfl
@[simp] theorem finish_errInfo (s : State) : (finish s).errInfo = s.errInfo := rfl
@[simp] theorem finish_srcCap (s : State) : (finish s).srcCap = s.srcCap := rfl
@[simp] theorem finish_dstCap (s : State) : (finish s).dstCap = s.dstCap := rfl
@[simp] theorem finish_payCap (s : State) : (finish s).payCap = s.payCap := rfl
@[simp] theorem finish_freq (s : State) : (finish s).freq = s.freq := rfl
@[simp] theorem finish_node (s : State) : (finish s).node = s.node := rfl
@[simp] theorem finish_code (s : State) : (finish s).code = s.code := rfl
@[simp] theorem finish_src (s : State) : (finish s).src = s.src := rfl
@[simp] theorem finish_dst (s : State) : (finish s).dst = s.dst := rfl
@[simp] theorem finish_pay (s : State) : (finish s).pay = s.pay := rfl
@[simp] theorem finish_script (s : State) : (finish s).script = s.script := rfl
@[simp] theorem finish_index (s : State) : (finish s).index = s.index := rfl
@[simp] theorem finish_reads (s : State) : (finish s).reads = s.reads := rfl
@[simp] theorem finish_draws (s : State) : (finish s).draws = s.draws := rfl

/-! ## resetBlock -/

@[simp] theorem resetBlock_srcLen (s : State) : (resetBlock s).srcLen = State.reset.srcLen := rfl
@[simp] theorem resetBlock_dstLen (s : State) : (resetBlock s).dstLen = State.reset.dstLen := rfl
@[simp] theorem resetBlock_bitLen (s : State) : (resetBlock s).bitLen = State.reset.bitLen := rfl
@[simp] theorem resetBlock_payLen (s : State) : (resetBlock s).payLen = State.reset.payLen := rfl
@[simp] theorem resetBlock_nsym (s : State) : (resetBlock s).nsym = State.reset.nsym := rfl
@[simp] theorem resetBlock_nnode (s : State) : (resetBlock s).nnode = State.reset.nnode := rfl
@[simp] theorem resetBlock_root (s : State) : (resetBlock s).root = State.reset.root := rfl
@[simp] theorem resetBlock_ncode (s : State) : (resetBlock s).ncode = State.reset.ncode := rfl
@[simp] theorem resetBlock_pkData (s : State) : (resetBlock s).pkData = State.reset.pkData := rfl
@[simp] theorem resetBlock_upPos (s : State) : (resetBlock s).upPos = State.reset.upPos := rfl
@[simp] theorem resetBlock_acc (s : State) : (resetBlock s).acc = State.reset.acc := rfl
@[simp] theorem resetBlock_status (s : State) : (resetBlock s).status = State.reset.status := rfl
@[simp] theorem resetBlock_err (s : State) : (resetBlock s).err = State.reset.err := rfl
@[simp] theorem resetBlock_errInfo (s : State) : (resetBlock s).errInfo = State.reset.errInfo := rfl
@[simp] theorem resetBlock_srcCap (s : State) : (resetBlock s).srcCap = s.srcCap := rfl
@[simp] theorem resetBlock_dstCap (s : State) : (resetBlock s).dstCap = s.dstCap := rfl
@[simp] theorem resetBlock_payCap (s : State) : (resetBlock s).payCap = s.payCap := rfl
@[simp] theorem resetBlock_freq (s : State) : (resetBlock s).freq = State.reset.freq := rfl
@[simp] theorem resetBlock_node (s : State) : (resetBlock s).node = State.reset.node := rfl
@[simp] theorem resetBlock_code (s : State) : (resetBlock s).code = State.reset.code := rfl
@[simp] theorem resetBlock_src (s : State) : (resetBlock s).src = s.src := rfl
@[simp] theorem resetBlock_dst (s : State) : (resetBlock s).dst = s.dst := rfl
@[simp] theorem resetBlock_pay (s : State) : (resetBlock s).pay = s.pay := rfl
@[simp] theorem resetBlock_script (s : State) : (resetBlock s).script = s.script := rfl
@[simp] theorem resetBlock_index (s : State) : (resetBlock s).index = s.index := rfl
@[simp] theorem resetBlock_reads (s : State) : (resetBlock s).reads = s.reads := rfl
@[simp] theorem resetBlock_draws (s : State) : (resetBlock s).draws = s.draws := rfl

/-! ## abandonCommand -/

@[simp] theorem abandonCommand_srcLen (s : State) : (abandonCommand s).srcLen = State.reset.srcLen := rfl
@[simp] theorem abandonCommand_dstLen (s : State) : (abandonCommand s).dstLen = State.reset.dstLen := rfl
@[simp] theorem abandonCommand_bitLen (s : State) : (abandonCommand s).bitLen = State.reset.bitLen := rfl
@[simp] theorem abandonCommand_payLen (s : State) : (abandonCommand s).payLen = State.reset.payLen := rfl
@[simp] theorem abandonCommand_nsym (s : State) : (abandonCommand s).nsym = State.reset.nsym := rfl
@[simp] theorem abandonCommand_nnode (s : State) : (abandonCommand s).nnode = State.reset.nnode := rfl
@[simp] theorem abandonCommand_root (s : State) : (abandonCommand s).root = State.reset.root := rfl
@[simp] theorem abandonCommand_ncode (s : State) : (abandonCommand s).ncode = State.reset.ncode := rfl
@[simp] theorem abandonCommand_pkData (s : State) : (abandonCommand s).pkData = State.reset.pkData := rfl
@[simp] theorem abandonCommand_upPos (s : State) : (abandonCommand s).upPos = State.reset.upPos := rfl
@[simp] theorem abandonCommand_acc (s : State) : (abandonCommand s).acc = State.reset.acc := rfl
@[simp] theorem abandonCommand_status (s : State) : (abandonCommand s).status = State.reset.status := rfl
@[simp] theorem abandonCommand_err (s : State) : (abandonCommand s).err = State.reset.err := rfl
@[simp] theorem abandonCommand_errInfo (s : State) : (abandonCommand s).errInfo = State.reset.errInfo := rfl
@[simp] theorem abandonCommand_srcCap (s : State) : (abandonCommand s).srcCap = s.srcCap := rfl
@[simp] theorem abandonCommand_dstCap (s : State) : (abandonCommand s).dstCap = s.dstCap := rfl
@[simp] theorem abandonCommand_payCap (s : State) : (abandonCommand s).payCap = s.payCap := rfl
@[simp] theorem abandonCommand_freq (s : State) : (abandonCommand s).freq = State.reset.freq := rfl
@[simp] theorem abandonCommand_node (s : State) : (abandonCommand s).node = State.reset.node := rfl
@[simp] theorem abandonCommand_code (s : State) : (abandonCommand s).code = State.reset.code := rfl
@[simp] theorem abandonCommand_src (s : State) : (abandonCommand s).src = s.src := rfl
@[simp] theorem abandonCommand_dst (s : State) : (abandonCommand s).dst = Memory.forgotten s.draws := rfl
@[simp] theorem abandonCommand_pay (s : State) : (abandonCommand s).pay = Memory.forgotten s.draws := rfl
@[simp] theorem abandonCommand_script (s : State) : (abandonCommand s).script = s.script := rfl
@[simp] theorem abandonCommand_index (s : State) : (abandonCommand s).index = s.index := rfl
@[simp] theorem abandonCommand_reads (s : State) : (abandonCommand s).reads = s.reads := rfl
@[simp] theorem abandonCommand_draws (s : State) : (abandonCommand s).draws = s.draws + 1 := rfl

/-! ## faultEntry -/

@[simp] theorem faultEntry_srcLen (cmd : Byte) (r : Raised) (s : State) : (faultEntry cmd r s).srcLen = s.srcLen := rfl
@[simp] theorem faultEntry_err (cmd : Byte) (r : Raised) (s : State) : (faultEntry cmd r s).err = { op := r.op, cmd := cmd, sub := r.sub, code := causeCode r.cause } := rfl
@[simp] theorem faultEntry_errInfo (cmd : Byte) (r : Raised) (s : State) : (faultEntry cmd r s).errInfo = r.info := rfl
@[simp] theorem faultEntry_srcCap (cmd : Byte) (r : Raised) (s : State) : (faultEntry cmd r s).srcCap = s.srcCap := rfl
@[simp] theorem faultEntry_dstCap (cmd : Byte) (r : Raised) (s : State) : (faultEntry cmd r s).dstCap = s.dstCap := rfl
@[simp] theorem faultEntry_payCap (cmd : Byte) (r : Raised) (s : State) : (faultEntry cmd r s).payCap = s.payCap := rfl
@[simp] theorem faultEntry_src (cmd : Byte) (r : Raised) (s : State) : (faultEntry cmd r s).src = s.src := rfl
@[simp] theorem faultEntry_dst (cmd : Byte) (r : Raised) (s : State) : (faultEntry cmd r s).dst = Memory.forgotten s.draws := rfl
@[simp] theorem faultEntry_pay (cmd : Byte) (r : Raised) (s : State) : (faultEntry cmd r s).pay = Memory.forgotten s.draws := rfl
@[simp] theorem faultEntry_script (cmd : Byte) (r : Raised) (s : State) : (faultEntry cmd r s).script = s.script := rfl
@[simp] theorem faultEntry_index (cmd : Byte) (r : Raised) (s : State) : (faultEntry cmd r s).index = s.index := rfl
@[simp] theorem faultEntry_reads (cmd : Byte) (r : Raised) (s : State) : (faultEntry cmd r s).reads = s.reads := rfl
@[simp] theorem faultEntry_draws (cmd : Byte) (r : Raised) (s : State) : (faultEntry cmd r s).draws = s.draws + 1 := rfl

@[simp] theorem faultEntry_busy (cmd : Byte) (r : Raised) (s : State) : (faultEntry cmd r s).status.busy = false := rfl
@[simp] theorem faultEntry_errFlag (cmd : Byte) (r : Raised) (s : State) : (faultEntry cmd r s).status.err = true := rfl

/-! ## pkInit -/

@[simp] theorem pkInit_srcLen (s : State) : (pkInit s).srcLen = s.srcLen := rfl
@[simp] theorem pkInit_dstLen (s : State) : (pkInit s).dstLen = s.dstLen := rfl
@[simp] theorem pkInit_bitLen (s : State) : (pkInit s).bitLen = 0#32 := rfl
@[simp] theorem pkInit_payLen (s : State) : (pkInit s).payLen = 0#32 := rfl
@[simp] theorem pkInit_nsym (s : State) : (pkInit s).nsym = s.nsym := rfl
@[simp] theorem pkInit_nnode (s : State) : (pkInit s).nnode = s.nnode := rfl
@[simp] theorem pkInit_root (s : State) : (pkInit s).root = s.root := rfl
@[simp] theorem pkInit_ncode (s : State) : (pkInit s).ncode = s.ncode := rfl
@[simp] theorem pkInit_pkData (s : State) : (pkInit s).pkData = s.pkData := rfl
@[simp] theorem pkInit_upPos (s : State) : (pkInit s).upPos = s.upPos := rfl
@[simp] theorem pkInit_acc (s : State) : (pkInit s).acc = 0#8 := rfl
@[simp] theorem pkInit_status (s : State) : (pkInit s).status = s.status := rfl
@[simp] theorem pkInit_err (s : State) : (pkInit s).err = s.err := rfl
@[simp] theorem pkInit_errInfo (s : State) : (pkInit s).errInfo = s.errInfo := rfl
@[simp] theorem pkInit_srcCap (s : State) : (pkInit s).srcCap = s.srcCap := rfl
@[simp] theorem pkInit_dstCap (s : State) : (pkInit s).dstCap = s.dstCap := rfl
@[simp] theorem pkInit_payCap (s : State) : (pkInit s).payCap = s.payCap := rfl
@[simp] theorem pkInit_freq (s : State) : (pkInit s).freq = s.freq := rfl
@[simp] theorem pkInit_node (s : State) : (pkInit s).node = s.node := rfl
@[simp] theorem pkInit_code (s : State) : (pkInit s).code = s.code := rfl
@[simp] theorem pkInit_src (s : State) : (pkInit s).src = s.src := rfl
@[simp] theorem pkInit_dst (s : State) : (pkInit s).dst = s.dst := rfl
@[simp] theorem pkInit_pay (s : State) : (pkInit s).pay = s.pay := rfl
@[simp] theorem pkInit_script (s : State) : (pkInit s).script = s.script := rfl
@[simp] theorem pkInit_index (s : State) : (pkInit s).index = s.index := rfl
@[simp] theorem pkInit_reads (s : State) : (pkInit s).reads = s.reads := rfl
@[simp] theorem pkInit_draws (s : State) : (pkInit s).draws = s.draws := rfl

/-! ## pkFlush -/

@[simp] theorem pkFlush_srcLen (s : State) : (pkFlush s).srcLen = s.srcLen := rfl
@[simp] theorem pkFlush_dstLen (s : State) : (pkFlush s).dstLen = s.dstLen := rfl
@[simp] theorem pkFlush_bitLen (s : State) : (pkFlush s).bitLen = s.bitLen := rfl
@[simp] theorem pkFlush_payLen (s : State) : (pkFlush s).payLen = BitVec.ofNat 32 (ceil8 s.bitLen.toNat) := rfl
@[simp] theorem pkFlush_nsym (s : State) : (pkFlush s).nsym = s.nsym := rfl
@[simp] theorem pkFlush_nnode (s : State) : (pkFlush s).nnode = s.nnode := rfl
@[simp] theorem pkFlush_root (s : State) : (pkFlush s).root = s.root := rfl
@[simp] theorem pkFlush_ncode (s : State) : (pkFlush s).ncode = s.ncode := rfl
@[simp] theorem pkFlush_pkData (s : State) : (pkFlush s).pkData = s.pkData := rfl
@[simp] theorem pkFlush_upPos (s : State) : (pkFlush s).upPos = s.upPos := rfl
@[simp] theorem pkFlush_acc (s : State) : (pkFlush s).acc = 0#8 := rfl
@[simp] theorem pkFlush_status (s : State) : (pkFlush s).status = s.status := rfl
@[simp] theorem pkFlush_err (s : State) : (pkFlush s).err = s.err := rfl
@[simp] theorem pkFlush_errInfo (s : State) : (pkFlush s).errInfo = s.errInfo := rfl
@[simp] theorem pkFlush_srcCap (s : State) : (pkFlush s).srcCap = s.srcCap := rfl
@[simp] theorem pkFlush_dstCap (s : State) : (pkFlush s).dstCap = s.dstCap := rfl
@[simp] theorem pkFlush_payCap (s : State) : (pkFlush s).payCap = s.payCap := rfl
@[simp] theorem pkFlush_freq (s : State) : (pkFlush s).freq = s.freq := rfl
@[simp] theorem pkFlush_node (s : State) : (pkFlush s).node = s.node := rfl
@[simp] theorem pkFlush_code (s : State) : (pkFlush s).code = s.code := rfl
@[simp] theorem pkFlush_src (s : State) : (pkFlush s).src = s.src := rfl
@[simp] theorem pkFlush_dst (s : State) : (pkFlush s).dst = s.dst := rfl
@[simp] theorem pkFlush_pay (s : State) : (pkFlush s).pay = if s.bitLen.toNat % 8 = 0 then s.pay else writeByte s.pay (s.bitLen.toNat / 8) s.acc := rfl
@[simp] theorem pkFlush_script (s : State) : (pkFlush s).script = s.script := rfl
@[simp] theorem pkFlush_index (s : State) : (pkFlush s).index = s.index := rfl
@[simp] theorem pkFlush_reads (s : State) : (pkFlush s).reads = s.reads := rfl
@[simp] theorem pkFlush_draws (s : State) : (pkFlush s).draws = s.draws := rfl

/-! ## compressEmpty -/

@[simp] theorem compressEmpty_srcLen (s : State) : (compressEmpty s).srcLen = s.srcLen := rfl
@[simp] theorem compressEmpty_dstLen (s : State) : (compressEmpty s).dstLen = s.dstLen := rfl
@[simp] theorem compressEmpty_bitLen (s : State) : (compressEmpty s).bitLen = 0#32 := rfl
@[simp] theorem compressEmpty_payLen (s : State) : (compressEmpty s).payLen = 0#32 := by simp [compressEmpty, pkFlush, ceil8]
@[simp] theorem compressEmpty_nsym (s : State) : (compressEmpty s).nsym = 0#9 := rfl
@[simp] theorem compressEmpty_nnode (s : State) : (compressEmpty s).nnode = 0#10 := rfl
@[simp] theorem compressEmpty_root (s : State) : (compressEmpty s).root = 0#9 := rfl
@[simp] theorem compressEmpty_ncode (s : State) : (compressEmpty s).ncode = 0#9 := rfl
@[simp] theorem compressEmpty_pkData (s : State) : (compressEmpty s).pkData = s.pkData := rfl
@[simp] theorem compressEmpty_upPos (s : State) : (compressEmpty s).upPos = s.upPos := rfl
@[simp] theorem compressEmpty_acc (s : State) : (compressEmpty s).acc = 0#8 := rfl
@[simp] theorem compressEmpty_status (s : State) : (compressEmpty s).status = s.status.emptyPacked := rfl
@[simp] theorem compressEmpty_err (s : State) : (compressEmpty s).err = s.err := rfl
@[simp] theorem compressEmpty_errInfo (s : State) : (compressEmpty s).errInfo = s.errInfo := rfl
@[simp] theorem compressEmpty_srcCap (s : State) : (compressEmpty s).srcCap = s.srcCap := rfl
@[simp] theorem compressEmpty_dstCap (s : State) : (compressEmpty s).dstCap = s.dstCap := rfl
@[simp] theorem compressEmpty_payCap (s : State) : (compressEmpty s).payCap = s.payCap := rfl
@[simp] theorem compressEmpty_freq (s : State) : (compressEmpty s).freq = s.freq := rfl
@[simp] theorem compressEmpty_node (s : State) : (compressEmpty s).node = s.node := rfl
@[simp] theorem compressEmpty_code (s : State) : (compressEmpty s).code = emptyCode := rfl
@[simp] theorem compressEmpty_src (s : State) : (compressEmpty s).src = s.src := rfl
@[simp] theorem compressEmpty_dst (s : State) : (compressEmpty s).dst = s.dst := rfl
@[simp] theorem compressEmpty_pay (s : State) : (compressEmpty s).pay = s.pay := rfl
@[simp] theorem compressEmpty_script (s : State) : (compressEmpty s).script = s.script := rfl
@[simp] theorem compressEmpty_index (s : State) : (compressEmpty s).index = s.index := rfl
@[simp] theorem compressEmpty_reads (s : State) : (compressEmpty s).reads = s.reads := rfl
@[simp] theorem compressEmpty_draws (s : State) : (compressEmpty s).draws = s.draws := rfl

/-! ## recordRead -/

@[simp] theorem recordRead_srcLen (space : Space) (i : Nat) (s : State) : (recordRead space i s).srcLen = s.srcLen := rfl
@[simp] theorem recordRead_dstLen (space : Space) (i : Nat) (s : State) : (recordRead space i s).dstLen = s.dstLen := rfl
@[simp] theorem recordRead_bitLen (space : Space) (i : Nat) (s : State) : (recordRead space i s).bitLen = s.bitLen := rfl
@[simp] theorem recordRead_payLen (space : Space) (i : Nat) (s : State) : (recordRead space i s).payLen = s.payLen := rfl
@[simp] theorem recordRead_nsym (space : Space) (i : Nat) (s : State) : (recordRead space i s).nsym = s.nsym := rfl
@[simp] theorem recordRead_nnode (space : Space) (i : Nat) (s : State) : (recordRead space i s).nnode = s.nnode := rfl
@[simp] theorem recordRead_root (space : Space) (i : Nat) (s : State) : (recordRead space i s).root = s.root := rfl
@[simp] theorem recordRead_ncode (space : Space) (i : Nat) (s : State) : (recordRead space i s).ncode = s.ncode := rfl
@[simp] theorem recordRead_pkData (space : Space) (i : Nat) (s : State) : (recordRead space i s).pkData = s.pkData := rfl
@[simp] theorem recordRead_upPos (space : Space) (i : Nat) (s : State) : (recordRead space i s).upPos = s.upPos := rfl
@[simp] theorem recordRead_acc (space : Space) (i : Nat) (s : State) : (recordRead space i s).acc = s.acc := rfl
@[simp] theorem recordRead_status (space : Space) (i : Nat) (s : State) : (recordRead space i s).status = s.status := rfl
@[simp] theorem recordRead_err (space : Space) (i : Nat) (s : State) : (recordRead space i s).err = s.err := rfl
@[simp] theorem recordRead_errInfo (space : Space) (i : Nat) (s : State) : (recordRead space i s).errInfo = s.errInfo := rfl
@[simp] theorem recordRead_srcCap (space : Space) (i : Nat) (s : State) : (recordRead space i s).srcCap = s.srcCap := rfl
@[simp] theorem recordRead_dstCap (space : Space) (i : Nat) (s : State) : (recordRead space i s).dstCap = s.dstCap := rfl
@[simp] theorem recordRead_payCap (space : Space) (i : Nat) (s : State) : (recordRead space i s).payCap = s.payCap := rfl
@[simp] theorem recordRead_freq (space : Space) (i : Nat) (s : State) : (recordRead space i s).freq = s.freq := rfl
@[simp] theorem recordRead_node (space : Space) (i : Nat) (s : State) : (recordRead space i s).node = s.node := rfl
@[simp] theorem recordRead_code (space : Space) (i : Nat) (s : State) : (recordRead space i s).code = s.code := rfl
@[simp] theorem recordRead_src (space : Space) (i : Nat) (s : State) : (recordRead space i s).src = s.src := rfl
@[simp] theorem recordRead_dst (space : Space) (i : Nat) (s : State) : (recordRead space i s).dst = s.dst := rfl
@[simp] theorem recordRead_pay (space : Space) (i : Nat) (s : State) : (recordRead space i s).pay = s.pay := rfl
@[simp] theorem recordRead_script (space : Space) (i : Nat) (s : State) : (recordRead space i s).script = s.script := rfl
@[simp] theorem recordRead_index (space : Space) (i : Nat) (s : State) : (recordRead space i s).index = s.index := rfl
@[simp] theorem recordRead_reads (space : Space) (i : Nat) (s : State) : (recordRead space i s).reads = s.reads ++ [hostRead space i (Config.freeBits 32 s.draws 0) s] := rfl
@[simp] theorem recordRead_draws (space : Space) (i : Nat) (s : State) : (recordRead space i s).draws = s.draws + 1 := rfl

/-! ## The flag updates of Flags.lean -/

@[simp] theorem Status.busyOn_busy (f : Status) : f.busyOn.busy = true := rfl
@[simp] theorem Status.busyOn_err (f : Status) : f.busyOn.err = f.err := rfl
@[simp] theorem Status.busyOn_treeValid (f : Status) : f.busyOn.treeValid = f.treeValid := rfl
@[simp] theorem Status.busyOn_codeValid (f : Status) : f.busyOn.codeValid = f.codeValid := rfl
@[simp] theorem Status.busyOn_payValid (f : Status) : f.busyOn.payValid = f.payValid := rfl
@[simp] theorem Status.busyOn_pkOpen (f : Status) : f.busyOn.pkOpen = f.pkOpen := rfl
@[simp] theorem Status.busyOn_upOpen (f : Status) : f.busyOn.upOpen = f.upOpen := rfl
@[simp] theorem Status.busyOff_busy (f : Status) : f.busyOff.busy = false := rfl
@[simp] theorem Status.busyOff_err (f : Status) : f.busyOff.err = f.err := rfl
@[simp] theorem Status.busyOff_treeValid (f : Status) : f.busyOff.treeValid = f.treeValid := rfl
@[simp] theorem Status.busyOff_codeValid (f : Status) : f.busyOff.codeValid = f.codeValid := rfl
@[simp] theorem Status.busyOff_payValid (f : Status) : f.busyOff.payValid = f.payValid := rfl
@[simp] theorem Status.busyOff_pkOpen (f : Status) : f.busyOff.pkOpen = f.pkOpen := rfl
@[simp] theorem Status.busyOff_upOpen (f : Status) : f.busyOff.upOpen = f.upOpen := rfl
@[simp] theorem Status.clearTree_busy (f : Status) : f.clearTree.busy = f.busy := rfl
@[simp] theorem Status.clearTree_err (f : Status) : f.clearTree.err = f.err := rfl
@[simp] theorem Status.clearTree_treeValid (f : Status) : f.clearTree.treeValid = false := rfl
@[simp] theorem Status.clearTree_codeValid (f : Status) : f.clearTree.codeValid = f.codeValid := rfl
@[simp] theorem Status.clearTree_payValid (f : Status) : f.clearTree.payValid = f.payValid := rfl
@[simp] theorem Status.clearTree_pkOpen (f : Status) : f.clearTree.pkOpen = f.pkOpen := rfl
@[simp] theorem Status.clearTree_upOpen (f : Status) : f.clearTree.upOpen = f.upOpen := rfl
@[simp] theorem Status.setTree_busy (f : Status) : f.setTree.busy = f.busy := rfl
@[simp] theorem Status.setTree_err (f : Status) : f.setTree.err = f.err := rfl
@[simp] theorem Status.setTree_treeValid (f : Status) : f.setTree.treeValid = true := rfl
@[simp] theorem Status.setTree_codeValid (f : Status) : f.setTree.codeValid = f.codeValid := rfl
@[simp] theorem Status.setTree_payValid (f : Status) : f.setTree.payValid = f.payValid := rfl
@[simp] theorem Status.setTree_pkOpen (f : Status) : f.setTree.pkOpen = f.pkOpen := rfl
@[simp] theorem Status.setTree_upOpen (f : Status) : f.setTree.upOpen = f.upOpen := rfl
@[simp] theorem Status.walked_busy (f : Status) : f.walked.busy = f.busy := rfl
@[simp] theorem Status.walked_err (f : Status) : f.walked.err = f.err := rfl
@[simp] theorem Status.walked_treeValid (f : Status) : f.walked.treeValid = f.treeValid := rfl
@[simp] theorem Status.walked_codeValid (f : Status) : f.walked.codeValid = true := rfl
@[simp] theorem Status.walked_payValid (f : Status) : f.walked.payValid = false := rfl
@[simp] theorem Status.walked_pkOpen (f : Status) : f.walked.pkOpen = f.pkOpen := rfl
@[simp] theorem Status.walked_upOpen (f : Status) : f.walked.upOpen = false := rfl
@[simp] theorem Status.packOpened_busy (f : Status) : f.packOpened.busy = f.busy := rfl
@[simp] theorem Status.packOpened_err (f : Status) : f.packOpened.err = f.err := rfl
@[simp] theorem Status.packOpened_treeValid (f : Status) : f.packOpened.treeValid = f.treeValid := rfl
@[simp] theorem Status.packOpened_codeValid (f : Status) : f.packOpened.codeValid = f.codeValid := rfl
@[simp] theorem Status.packOpened_payValid (f : Status) : f.packOpened.payValid = false := rfl
@[simp] theorem Status.packOpened_pkOpen (f : Status) : f.packOpened.pkOpen = true := rfl
@[simp] theorem Status.packOpened_upOpen (f : Status) : f.packOpened.upOpen = false := rfl
@[simp] theorem Status.packClosed_busy (f : Status) : f.packClosed.busy = f.busy := rfl
@[simp] theorem Status.packClosed_err (f : Status) : f.packClosed.err = f.err := rfl
@[simp] theorem Status.packClosed_treeValid (f : Status) : f.packClosed.treeValid = f.treeValid := rfl
@[simp] theorem Status.packClosed_codeValid (f : Status) : f.packClosed.codeValid = f.codeValid := rfl
@[simp] theorem Status.packClosed_payValid (f : Status) : f.packClosed.payValid = true := rfl
@[simp] theorem Status.packClosed_pkOpen (f : Status) : f.packClosed.pkOpen = false := rfl
@[simp] theorem Status.packClosed_upOpen (f : Status) : f.packClosed.upOpen = f.upOpen := rfl
@[simp] theorem Status.unpackOpened_busy (f : Status) : f.unpackOpened.busy = f.busy := rfl
@[simp] theorem Status.unpackOpened_err (f : Status) : f.unpackOpened.err = f.err := rfl
@[simp] theorem Status.unpackOpened_treeValid (f : Status) : f.unpackOpened.treeValid = f.treeValid := rfl
@[simp] theorem Status.unpackOpened_codeValid (f : Status) : f.unpackOpened.codeValid = f.codeValid := rfl
@[simp] theorem Status.unpackOpened_payValid (f : Status) : f.unpackOpened.payValid = f.payValid := rfl
@[simp] theorem Status.unpackOpened_pkOpen (f : Status) : f.unpackOpened.pkOpen = f.pkOpen := rfl
@[simp] theorem Status.unpackOpened_upOpen (f : Status) : f.unpackOpened.upOpen = true := rfl
@[simp] theorem Status.payloadDropped_busy (f : Status) : f.payloadDropped.busy = f.busy := rfl
@[simp] theorem Status.payloadDropped_err (f : Status) : f.payloadDropped.err = f.err := rfl
@[simp] theorem Status.payloadDropped_treeValid (f : Status) : f.payloadDropped.treeValid = f.treeValid := rfl
@[simp] theorem Status.payloadDropped_codeValid (f : Status) : f.payloadDropped.codeValid = f.codeValid := rfl
@[simp] theorem Status.payloadDropped_payValid (f : Status) : f.payloadDropped.payValid = false := rfl
@[simp] theorem Status.payloadDropped_pkOpen (f : Status) : f.payloadDropped.pkOpen = false := rfl
@[simp] theorem Status.payloadDropped_upOpen (f : Status) : f.payloadDropped.upOpen = false := rfl
@[simp] theorem Status.setPay_busy (f : Status) : f.setPay.busy = f.busy := rfl
@[simp] theorem Status.setPay_err (f : Status) : f.setPay.err = f.err := rfl
@[simp] theorem Status.setPay_treeValid (f : Status) : f.setPay.treeValid = f.treeValid := rfl
@[simp] theorem Status.setPay_codeValid (f : Status) : f.setPay.codeValid = f.codeValid := rfl
@[simp] theorem Status.setPay_payValid (f : Status) : f.setPay.payValid = true := rfl
@[simp] theorem Status.setPay_pkOpen (f : Status) : f.setPay.pkOpen = f.pkOpen := rfl
@[simp] theorem Status.setPay_upOpen (f : Status) : f.setPay.upOpen = f.upOpen := rfl
@[simp] theorem Status.loaded_busy (f : Status) : f.loaded.busy = f.busy := rfl
@[simp] theorem Status.loaded_err (f : Status) : f.loaded.err = f.err := rfl
@[simp] theorem Status.loaded_treeValid (f : Status) : f.loaded.treeValid = f.treeValid := rfl
@[simp] theorem Status.loaded_codeValid (f : Status) : f.loaded.codeValid = true := rfl
@[simp] theorem Status.loaded_payValid (f : Status) : f.loaded.payValid = true := rfl
@[simp] theorem Status.loaded_pkOpen (f : Status) : f.loaded.pkOpen = f.pkOpen := rfl
@[simp] theorem Status.loaded_upOpen (f : Status) : f.loaded.upOpen = f.upOpen := rfl
@[simp] theorem Status.unpackClosed_busy (f : Status) : f.unpackClosed.busy = f.busy := rfl
@[simp] theorem Status.unpackClosed_err (f : Status) : f.unpackClosed.err = f.err := rfl
@[simp] theorem Status.unpackClosed_treeValid (f : Status) : f.unpackClosed.treeValid = f.treeValid := rfl
@[simp] theorem Status.unpackClosed_codeValid (f : Status) : f.unpackClosed.codeValid = f.codeValid := rfl
@[simp] theorem Status.unpackClosed_payValid (f : Status) : f.unpackClosed.payValid = f.payValid := rfl
@[simp] theorem Status.unpackClosed_pkOpen (f : Status) : f.unpackClosed.pkOpen = f.pkOpen := rfl
@[simp] theorem Status.unpackClosed_upOpen (f : Status) : f.unpackClosed.upOpen = false := rfl
@[simp] theorem Status.emptyPacked_busy (f : Status) : f.emptyPacked.busy = f.busy := rfl
@[simp] theorem Status.emptyPacked_err (f : Status) : f.emptyPacked.err = f.err := rfl
@[simp] theorem Status.emptyPacked_treeValid (f : Status) : f.emptyPacked.treeValid = f.treeValid := rfl
@[simp] theorem Status.emptyPacked_codeValid (f : Status) : f.emptyPacked.codeValid = true := rfl
@[simp] theorem Status.emptyPacked_payValid (f : Status) : f.emptyPacked.payValid = true := rfl
@[simp] theorem Status.emptyPacked_pkOpen (f : Status) : f.emptyPacked.pkOpen = false := rfl
@[simp] theorem Status.emptyPacked_upOpen (f : Status) : f.emptyPacked.upOpen = false := rfl

end Sys2Proof.Machine
end

