-- ==== Sys2Proof/Laws/Memory.lean ====
section
/-! SUPPORT. The laws of the byte memories and the tables: a read after a write, and the canonical form. -/

namespace Sys2Proof.Machine

/-! ## Cells -/

theorem cellAt_putCell_same (cs : List Host.Cell) (a : Nat) (v : Byte) : cellAt (putCell cs a v) a = some v := by
  induction cs with
  | nil => simp [putCell, cellAt]
  | cons c rest ih =>
    obtain ⟨b, w⟩ := c
    by_cases h1 : a < b
    · simp [putCell, h1, cellAt]
    · by_cases h2 : a = b
      · simp [putCell, h2, cellAt]
      · simp [putCell, h1, h2, cellAt, Ne.symm h2, ih]

theorem cellAt_putCell_other (cs : List Host.Cell) (a b : Nat) (v : Byte) (h : b ≠ a) :
    cellAt (putCell cs a v) b = cellAt cs b := by
  induction cs with
  | nil => simp [putCell, cellAt, Ne.symm h]
  | cons c rest ih =>
    obtain ⟨d, w⟩ := c
    by_cases h1 : a < d
    · simp [putCell, h1, cellAt, Ne.symm h]
    · by_cases h2 : a = d
      · subst h2
        simp [putCell, cellAt, Ne.symm h]
      · by_cases h3 : d = b
        · subst h3
          simp [putCell, h1, h2, cellAt]
        · simp [putCell, h1, h2, cellAt, h3, ih]

theorem risingFrom_putCell (cs : List Host.Cell) (low a : Nat) (v : Byte) (hl : low ≤ a) (h : risingFrom low cs = true) :
    risingFrom low (putCell cs a v) = true := by
  induction cs generalizing low with
  | nil => simp [putCell, risingFrom, hl]
  | cons c rest ih =>
    obtain ⟨b, w⟩ := c
    simp only [risingFrom, Bool.and_eq_true, decide_eq_true_eq] at h
    by_cases h1 : a < b
    · simp only [putCell, h1, if_true, risingFrom, Bool.and_eq_true, decide_eq_true_eq]
      exact ⟨hl, h1, h.2⟩
    · by_cases h2 : a = b
      · subst h2
        simp [putCell, risingFrom, h.1, h.2]
      · simp only [putCell, h1, h2, if_false, risingFrom, Bool.and_eq_true, decide_eq_true_eq]
        exact ⟨h.1, ih (b + 1) (by omega) h.2⟩

theorem mem_putCell (cs : List Host.Cell) (a : Nat) (v : Byte) (c : Host.Cell) (h : c ∈ putCell cs a v) :
    c = (a, v) ∨ c ∈ cs := by
  induction cs with
  | nil => simpa [putCell] using h
  | cons d rest ih =>
    obtain ⟨b, w⟩ := d
    by_cases h1 : a < b
    · simpa [putCell, h1] using h
    · by_cases h2 : a = b
      · subst h2
        simp only [putCell, Nat.lt_irrefl, if_false, if_true, List.mem_cons] at h
        rcases h with h | h
        · exact .inl h
        · exact .inr (by simp [h])
      · simp only [putCell, h1, h2, if_false, List.mem_cons] at h
        rcases h with h | h
        · exact .inr (by simp [h])
        · rcases ih h with h | h
          · exact .inl h
          · exact .inr (by simp [h])

/-! ## Bytes -/

@[simp] theorem writeByte_epoch (m : Memory) (a : Nat) (v : Byte) : (writeByte m a v).epoch = m.epoch := rfl

theorem readByte_writeByte (sp : Space) (m : Memory) (a b : Nat) (v : Byte) :
    readByte sp (writeByte m a v) b = if b = a then v else readByte sp m b := by
  by_cases h : b = a
  · subst h
    simp [readByte, writeByte, cellAt_putCell_same]
  · simp [readByte, writeByte, cellAt_putCell_other _ _ _ _ h, h]

@[simp] theorem readByte_writeByte_same (sp : Space) (m : Memory) (a : Nat) (v : Byte) :
    readByte sp (writeByte m a v) a = v := by
  simp [readByte_writeByte]

theorem readByte_writeByte_other (sp : Space) (m : Memory) (a b : Nat) (v : Byte) (h : b ≠ a) :
    readByte sp (writeByte m a v) b = readByte sp m b := by
  simp [readByte_writeByte, h]

theorem writeByte_wf (m : Memory) (a : Nat) (v : Byte) (h : m.wf = true) : (writeByte m a v).wf = true :=
  risingFrom_putCell m.cells 0 a v (Nat.zero_le a) h

theorem writeByte_within (m : Memory) (a cap : Nat) (v : Byte) (h : m.within cap = true) (ha : a < cap) :
    (writeByte m a v).within cap = true := by
  simp only [Memory.within, List.all_eq_true, decide_eq_true_eq, writeByte] at h ⊢
  intro c hc
  rcases mem_putCell _ _ _ _ hc with hc | hc
  · simpa [hc] using ha
  · exact h c hc

@[simp] theorem forgotten_wf (d : Nat) : (Memory.forgotten d).wf = true := rfl

@[simp] theorem forgotten_within (d cap : Nat) : (Memory.forgotten d).within cap = true := rfl

/-- A read of the bytes written by `writeBytes`, and of the bytes beside them. -/
theorem readByte_writeBytes (sp : Space) (bs : List Byte) (m : Memory) (a b : Nat) :
    readByte sp (writeBytes m a bs) b = if h : a ≤ b ∧ b - a < bs.length then bs[b - a]'h.2 else readByte sp m b := by
  induction bs generalizing m a with
  | nil => simp [writeBytes]
  | cons v rest ih =>
    rw [writeBytes, ih]
    by_cases h1 : a + 1 ≤ b ∧ b - (a + 1) < rest.length
    · have h2 : a ≤ b ∧ b - a < (v :: rest).length := by simp only [List.length_cons]; omega
      have h3 : b - a = (b - (a + 1)) + 1 := by omega
      rw [dif_pos h1, dif_pos h2]
      simp only [h3, List.getElem_cons_succ]
    · rw [dif_neg h1]
      by_cases h2 : b = a
      · subst h2
        simp
      · have h3 : ¬(a ≤ b ∧ b - a < (v :: rest).length) := by simp only [List.length_cons]; omega
        rw [dif_neg h3, readByte_writeByte_other _ _ _ _ _ h2]

theorem readByte_writeBytes_out (sp : Space) (bs : List Byte) (m : Memory) (a b : Nat)
    (h : b < a ∨ a + bs.length ≤ b) : readByte sp (writeBytes m a bs) b = readByte sp m b := by
  rw [readByte_writeBytes, dif_neg (by omega)]

@[simp] theorem writeBytes_epoch (bs : List Byte) (m : Memory) (a : Nat) : (writeBytes m a bs).epoch = m.epoch := by
  induction bs generalizing m a with
  | nil => rfl
  | cons v rest ih => simp [writeBytes, ih]

theorem writeBytes_wf (bs : List Byte) (m : Memory) (a : Nat) (h : m.wf = true) : (writeBytes m a bs).wf = true := by
  induction bs generalizing m a with
  | nil => exact h
  | cons v rest ih => exact ih _ _ (writeByte_wf m a v h)

theorem memWrite_wf (m : Memory) (a n v : Nat) (h : m.wf = true) : (memWrite m a n v).wf = true :=
  writeBytes_wf _ m a h

/-- The memories of the reset state have the canonical form. -/
theorem reset_memories_wf :
    State.reset.src.wf = true ∧ State.reset.dst.wf = true ∧ State.reset.pay.wf = true := ⟨rfl, rfl, rfl⟩

theorem writeBytes_within (bs : List Byte) (m : Memory) (a cap : Nat) (h : m.within cap = true)
    (ha : a + bs.length ≤ cap) : (writeBytes m a bs).within cap = true := by
  induction bs generalizing m a with
  | nil => exact h
  | cons v rest ih =>
    simp only [List.length_cons] at ha
    exact ih _ _ (writeByte_within m a cap v h (by omega)) (by omega)

theorem writeBytes_append (bs cs : List Byte) (m : Memory) (a : Nat) :
    writeBytes m a (bs ++ cs) = writeBytes (writeBytes m a bs) (a + bs.length) cs := by
  induction bs generalizing m a with
  | nil => simp [writeBytes]
  | cons v rest ih => simp [writeBytes, ih, Nat.add_assoc, Nat.add_comm 1]

@[simp] theorem readBytes_length (sp : Space) (m : Memory) (a n : Nat) : (readBytes sp m a n).length = n := by
  simp [readBytes]

theorem readBytes_getElem (sp : Space) (m : Memory) (a n i : Nat) (h : i < (readBytes sp m a n).length) :
    (readBytes sp m a n)[i] = readByte sp m (a + i) := by
  simp [readBytes]

/-- Reading back what `writeBytes` wrote. -/
theorem readBytes_writeBytes (sp : Space) (bs : List Byte) (m : Memory) (a : Nat) :
    readBytes sp (writeBytes m a bs) a bs.length = bs := by
  apply List.ext_getElem (by simp)
  intro i h1 h2
  rw [readBytes_getElem, readByte_writeBytes, dif_pos (by omega)]
  simp

theorem readBytes_congr (sp : Space) (m m' : Memory) (a n : Nat)
    (h : ∀ i, i < n → readByte sp m (a + i) = readByte sp m' (a + i)) : readBytes sp m a n = readBytes sp m' a n := by
  simp only [readBytes]
  apply List.map_congr_left
  intro i hi
  exact h i (by simpa using hi)

theorem readBytes_append (sp : Space) (m : Memory) (a n k : Nat) :
    readBytes sp m a (n + k) = readBytes sp m a n ++ readBytes sp m (a + n) k := by
  simp [readBytes, List.range_add, List.map_append, Function.comp_def, Nat.add_assoc]

/-- A part of the bytes read, when all of them are known. -/
theorem readBytes_of_append (sp : Space) (m : Memory) (a n : Nat) (l₁ l₂ l₃ : List Byte)
    (h : readBytes sp m a n = l₁ ++ l₂ ++ l₃) : readBytes sp m (a + l₁.length) l₂.length = l₂ := by
  have hn : n = l₁.length + (l₂.length + l₃.length) := by
    have := congrArg List.length h
    simpa [Nat.add_assoc] using this
  rw [hn, readBytes_append, readBytes_append, List.append_assoc] at h
  have h1 := List.append_inj h (by simp)
  exact (List.append_inj h1.2 (by simp)).1

/-! ## Tables -/

@[simp] theorem entryAt_putEntry_same {α : Type} [Inhabited α] {n : Nat} (t : Vector α n) (i : Nat) (v : α)
    (h : i < n) : entryAt (putEntry t i v) i = v := by
  simp [entryAt, putEntry, h]

theorem entryAt_putEntry_other {α : Type} [Inhabited α] {n : Nat} (t : Vector α n) (i j : Nat) (v : α)
    (h : j ≠ i) : entryAt (putEntry t i v) j = entryAt t j := by
  simp [entryAt, putEntry, Ne.symm h]

theorem entryAt_putEntry {α : Type} [Inhabited α] {n : Nat} (t : Vector α n) (i j : Nat) (v : α) (h : i < n) :
    entryAt (putEntry t i v) j = if j = i then v else entryAt t j := by
  by_cases hj : j = i
  · subst hj; simp [h]
  · simp [hj, entryAt_putEntry_other]

@[simp] theorem entryAt_replicate {α : Type} [Inhabited α] (n : Nat) (v : α) (i : Nat) (h : i < n) :
    entryAt (Vector.replicate n v) i = v := by
  simp [entryAt, h]

@[simp] theorem entryAt_tableOf {α : Type} [Inhabited α] (n : Nat) (f : Nat → α) (i : Nat) (h : i < n) :
    entryAt (tableOf n f) i = f i := by
  simp [entryAt, tableOf, h]

theorem entryAt_eq_getElem {α : Type} [Inhabited α] {n : Nat} (t : Vector α n) (i : Nat) (h : i < n) :
    entryAt t i = t[i] := by
  simp [entryAt, h]

/-- Two tables with the same entries are equal. -/
theorem table_ext {α : Type} [Inhabited α] {n : Nat} (t u : Vector α n) (h : ∀ i, i < n → entryAt t i = entryAt u i) :
    t = u := by
  ext i hi
  have := h i hi
  rwa [entryAt_eq_getElem t i hi, entryAt_eq_getElem u i hi] at this

theorem zeroFreq_entry (i : Nat) (h : i < 256) : entryAt zeroFreq i = 0#32 := entryAt_replicate 256 _ i h

theorem emptyCode_entry (i : Nat) (h : i < 256) : entryAt emptyCode i = CodeEntry.invalid :=
  entryAt_replicate 256 _ i h

end Sys2Proof.Machine
end

