-- ==== Sys2Proof/Laws/Bits.lean ====
section
/-! SUPPORT. The laws of bit sequences, their bytes, and big-endian fields. -/

namespace Sys2Proof.Machine

/-! ## Values of bit sequences -/

theorem foldl_bitsVal (b : Bits) (x : Nat) :
    b.foldl (fun a y => 2 * a + y.toNat) x = x * 2 ^ b.length + bitsVal b := by
  induction b generalizing x with
  | nil => simp [bitsVal]
  | cons c rest ih =>
    have h0 : bitsVal (c :: rest) = c.toNat * 2 ^ rest.length + bitsVal rest := by
      rw [bitsVal, List.foldl_cons, ih]
      simp
    rw [List.foldl_cons, ih, h0, List.length_cons, Nat.pow_succ]
    ring

theorem bitsVal_cons (c : Bool) (b : Bits) : bitsVal (c :: b) = c.toNat * 2 ^ b.length + bitsVal b := by
  rw [bitsVal, List.foldl_cons, foldl_bitsVal]
  simp

@[simp] theorem bitsVal_nil : bitsVal [] = 0 := rfl

theorem bitsVal_append (b c : Bits) : bitsVal (b ++ c) = bitsVal b * 2 ^ c.length + bitsVal c := by
  rw [bitsVal, List.foldl_append, foldl_bitsVal]
  rfl

theorem bitsVal_lt (b : Bits) : bitsVal b < 2 ^ b.length := by
  induction b with
  | nil => simp
  | cons c rest ih =>
    rw [bitsVal_cons, List.length_cons, Nat.pow_succ]
    cases c <;> simp <;> omega

theorem testBit_bitsVal (b : Bits) (k : Nat) :
    (bitsVal b).testBit k = if k < b.length then b.getD (b.length - 1 - k) false else false := by
  induction b with
  | nil => simp
  | cons c rest ih =>
    rw [bitsVal_cons, Nat.mul_comm, Nat.testBit_two_pow_mul_add _ (bitsVal_lt rest)]
    by_cases h1 : k < rest.length
    · have h2 : (rest.length + 1 - 1 - k) = (rest.length - 1 - k) + 1 := by omega
      simp only [h1, if_true, ih, List.length_cons, Nat.lt_succ_of_lt h1, h2, List.getD_cons_succ]
    · by_cases h3 : k = rest.length
      · subst h3
        cases c <;> simp
      · have h4 : ¬k < rest.length + 1 := by omega
        have h5 : k - rest.length ≠ 0 := by omega
        simp only [h1, if_false, List.length_cons, h4]
        cases c
        · simp
        · simp [Nat.testBit_eq_false_of_lt (Nat.one_lt_two_pow h5)]

@[simp] theorem lowBits_length (n v : Nat) : (lowBits n v).length = n := by simp [lowBits]

theorem lowBits_getD (n v j : Nat) (h : j < n) : (lowBits n v).getD j false = v.testBit (n - 1 - j) := by
  simp [lowBits, h]

theorem bitsVal_lowBits (n v : Nat) : bitsVal (lowBits n v) = v % 2 ^ n := by
  apply Nat.eq_of_testBit_eq
  intro k
  rw [testBit_bitsVal, Nat.testBit_mod_two_pow, lowBits_length]
  by_cases h : k < n
  · have h2 : n - 1 - (n - 1 - k) = k := by omega
    rw [if_pos h, lowBits_getD n v (n - 1 - k) (by omega), h2]
    simp [h]
  · simp [h]

/-! ## Groups of bits and the bytes of a sequence -/

@[simp] theorem bitGroup_length (b : Bits) (k w : Nat) : (bitGroup b k w).length = w := by simp [bitGroup]

theorem bitGroup_getD (b : Bits) (k w j : Nat) (h : j < w) :
    (bitGroup b k w).getD j false = b.getD (k + j) false := by
  simp [bitGroup, h]

/-- Bit 7 - j of the byte that holds the group from bit k is bit k + j of the sequence (R9). -/
theorem groupByte_getLsbD (b : Bits) (k j : Nat) (h : j < 8) :
    (BitVec.ofNat 8 (bitsVal (bitGroup b k 8))).getLsbD (7 - j) = b.getD (k + j) false := by
  have h1 : 7 - j < 8 := by omega
  have h2 : 8 - 1 - (7 - j) = j := by omega
  rw [BitVec.getLsbD_ofNat, testBit_bitsVal, bitGroup_length]
  simp only [h1, decide_true, Bool.true_and, if_true, h2, bitGroup_getD b k 8 j h]

/-- Two bytes with the same bits are equal. -/
theorem byte_ext (x y : Byte) (h : ∀ j, j < 8 → x.getLsbD (7 - j) = y.getLsbD (7 - j)) : x = y := by
  apply BitVec.eq_of_getLsbD_eq
  intro i hi
  have h1 := h (7 - i) (by omega)
  have h2 : 7 - (7 - i) = i := by omega
  rwa [h2] at h1

@[simp] theorem bytesOf_length (b : Bits) : (bytesOf b).length = ceil8 b.length := by simp [bytesOf]

theorem bytesOf_getElem (b : Bits) (i : Nat) (h : i < (bytesOf b).length) :
    (bytesOf b)[i] = BitVec.ofNat 8 (bitsVal (bitGroup b (8 * i) 8)) := by
  simp [bytesOf]

@[simp] theorem bitsRead_length (sp : Space) (m : Memory) (a k n : Nat) : (bitsRead sp m a k n).length = n := by
  simp [bitsRead]

theorem bitsRead_getElem (sp : Space) (m : Memory) (a k n j : Nat) (h : j < (bitsRead sp m a k n).length) :
    (bitsRead sp m a k n)[j] = bitRead sp m a (k + j) := by
  simp [bitsRead]

theorem bitsRead_add (sp : Space) (m : Memory) (a k n p : Nat) :
    bitsRead sp m a k (n + p) = bitsRead sp m a k n ++ bitsRead sp m a (k + n) p := by
  simp [bitsRead, List.range_add, List.map_append, Function.comp_def, Nat.add_assoc]

/-- A bit of a memory that holds the bytes of a sequence. -/
theorem bitRead_of_bytes (sp : Space) (m : Memory) (a : Nat) (b : Bits)
    (h : readBytes sp m a (ceil8 b.length) = bytesOf b) (k : Nat) (hk : k < 8 * ceil8 b.length) :
    bitRead sp m a k = b.getD k false := by
  have h1 : k / 8 < ceil8 b.length := by omega
  have h2 : readByte sp m (a + k / 8) = BitVec.ofNat 8 (bitsVal (bitGroup b (8 * (k / 8)) 8)) := by
    have h3 : (readBytes sp m a (ceil8 b.length))[k / 8]'(by simpa using h1) = (bytesOf b)[k / 8]'(by simpa using h1) := by
      simp only [h]
    rwa [readBytes_getElem, bytesOf_getElem] at h3
  rw [bitRead, h2, groupByte_getLsbD _ _ _ (Nat.mod_lt _ (by omega))]
  congr 1
  omega

/-- Unpack(Bytes(b), |b|) = b (R181 b). -/
theorem bitsRead_of_bytes (sp : Space) (m : Memory) (a : Nat) (b : Bits)
    (h : readBytes sp m a (ceil8 b.length) = bytesOf b) : bitsRead sp m a 0 b.length = b := by
  apply List.ext_getElem (by simp)
  intro j h1 h2
  rw [bitsRead_getElem, Nat.zero_add, bitRead_of_bytes sp m a b h j (by simp only [ceil8]; omega)]
  simp [h2]

theorem bitsRead_getD (sp : Space) (m : Memory) (a k n j : Nat) :
    (bitsRead sp m a k n).getD j false = if j < n then bitRead sp m a (k + j) else false := by
  by_cases h : j < n
  · simp [bitsRead, h]
  · simp [bitsRead, h]

/-- The bytes of the bits read are the bytes they were read from, when the bits after them in the last byte are 0. -/
theorem bytesOf_bitsRead (sp : Space) (m : Memory) (a n : Nat)
    (h : (bitsRead sp m a n (8 * ceil8 n - n)).any id = false) :
    bytesOf (bitsRead sp m a 0 n) = readBytes sp m a (ceil8 n) := by
  apply List.ext_getElem (by simp)
  intro i h1 h2
  have hi : i < ceil8 n := by simpa using h2
  rw [bytesOf_getElem, readBytes_getElem]
  apply byte_ext
  intro j hj
  rw [groupByte_getLsbD _ _ _ hj, bitsRead_getD]
  have h3 : bitRead sp m a (8 * i + j) = (readByte sp m (a + i)).getLsbD (7 - j) := by
    rw [bitRead]
    congr 3 <;> omega
  by_cases h4 : 8 * i + j < n
  · rw [if_pos h4, Nat.zero_add, h3]
  · rw [if_neg h4, ← h3]
    have h5 : 8 * i + j - n < 8 * ceil8 n - n := by omega
    have h6 := (List.any_eq_false.mp h) ((bitsRead sp m a n (8 * ceil8 n - n))[8 * i + j - n]'(by simpa using h5))
      (List.getElem_mem _)
    rw [bitsRead_getElem] at h6
    have h7 : n + (8 * i + j - n) = 8 * i + j := by omega
    rw [h7] at h6
    simpa using h6

/-! ## Big-endian fields -/

@[simp] theorem bigEndian_length (n v : Nat) : (bigEndian n v).length = n := by simp [bigEndian]

theorem foldl_bytesVal (bs : List Byte) (x : Nat) :
    bs.foldl (fun acc b => 256 * acc + b.toNat) x = x * 256 ^ bs.length + bytesVal bs := by
  induction bs generalizing x with
  | nil => simp [bytesVal]
  | cons c rest ih =>
    have h0 : bytesVal (c :: rest) = c.toNat * 256 ^ rest.length + bytesVal rest := by
      rw [bytesVal, List.foldl_cons, ih]
      simp
    rw [List.foldl_cons, ih, h0, List.length_cons, Nat.pow_succ]
    ring

theorem bytesVal_cons (c : Byte) (bs : List Byte) : bytesVal (c :: bs) = c.toNat * 256 ^ bs.length + bytesVal bs := by
  rw [bytesVal, List.foldl_cons, foldl_bytesVal]
  simp

theorem bytesVal_lt (bs : List Byte) : bytesVal bs < 256 ^ bs.length := by
  induction bs with
  | nil => simp [bytesVal]
  | cons c rest ih =>
    rw [bytesVal_cons, List.length_cons, Nat.pow_succ]
    have h1 : c.toNat * 256 ^ rest.length ≤ 255 * 256 ^ rest.length :=
      Nat.mul_le_mul_right _ (by have := c.isLt; omega)
    omega

theorem bigEndian_succ (n v : Nat) : bigEndian (n + 1) v = BitVec.ofNat 8 (v / 256 ^ n % 256) :: bigEndian n v := by
  simp only [bigEndian, List.range_succ_eq_map, List.map_cons, List.map_map]
  congr 1
  apply List.map_congr_left
  intro i hi
  have h1 : n + 1 - 1 - (i + 1) = n - 1 - i := by omega
  simp only [Function.comp_apply, Nat.succ_eq_add_one, h1]

/-- The number a big-endian field holds (R88, R89). -/
theorem bytesVal_bigEndian (n v : Nat) : bytesVal (bigEndian n v) = v % 256 ^ n := by
  induction n with
  | zero => simp [bigEndian, bytesVal, Nat.mod_one]
  | succ n ih =>
    have h1 : v / 256 ^ n % 256 % 2 ^ 8 = v / 256 ^ n % 256 := Nat.mod_mod _ _
    rw [bigEndian_succ, bytesVal_cons, ih, bigEndian_length, BitVec.toNat_ofNat, h1, Nat.pow_succ, Nat.mod_mul]
    ring

/-- A field is the big-endian form of the number it holds. -/
theorem bigEndian_mod (n v : Nat) : bigEndian n (v % 256 ^ n) = bigEndian n v := by
  simp only [bigEndian]
  apply List.map_congr_left
  intro i hi
  have hi' : i < n := by simpa using hi
  have h1 : 256 ^ n = 256 ^ (n - 1 - i) * 256 ^ (i + 1) := by
    rw [← Nat.pow_add]
    congr 1
    omega
  rw [h1, Nat.mod_mul_right_div_self, Nat.mod_mod_of_dvd _ ⟨256 ^ i, by rw [Nat.pow_succ, Nat.mul_comm]⟩]

theorem bigEndian_bytesVal (bs : List Byte) : bigEndian bs.length (bytesVal bs) = bs := by
  induction bs with
  | nil => simp [bigEndian]
  | cons c rest ih =>
    have hlt := bytesVal_lt rest
    rw [List.length_cons, bigEndian_succ, bytesVal_cons, ← bigEndian_mod, Nat.mul_add_mod_self_right,
      bigEndian_mod, ih]
    congr 1
    have h1 : (c.toNat * 256 ^ rest.length + bytesVal rest) / 256 ^ rest.length = c.toNat := by
      rw [Nat.add_comm, Nat.add_mul_div_right _ _ (Nat.pow_pos (by omega)), Nat.div_eq_of_lt hlt, Nat.zero_add]
    rw [h1, Nat.mod_eq_of_lt (by have := c.isLt; omega)]
    simp

theorem memRead_lt (sp : Space) (m : Memory) (a n : Nat) : memRead sp m a n < 256 ^ n := by
  have := bytesVal_lt (readBytes sp m a n)
  simpa [memRead] using this

/-- A field of a memory, when its bytes are known. -/
theorem memRead_of_bytes (sp : Space) (m : Memory) (a n v : Nat) (h : readBytes sp m a n = bigEndian n v)
    (hv : v < 256 ^ n) : memRead sp m a n = v := by
  rw [memRead, h, bytesVal_bigEndian, Nat.mod_eq_of_lt hv]

/-- The bytes of a field of a memory. -/
theorem bigEndian_memRead (sp : Space) (m : Memory) (a n : Nat) :
    bigEndian n (memRead sp m a n) = readBytes sp m a n := by
  have := bigEndian_bytesVal (readBytes sp m a n)
  rwa [readBytes_length] at this

end Sys2Proof.Machine
end

