-- ==== Sys2Proof/Laws/Command.lean ====
section
/-! SUPPORT. What presenting a command can do, said once: dropped, its rule's end, or a fault entry; and the fault entry
itself. -/

namespace Sys2Proof.Machine

theorem accepting_iff (s : State) : accepting s = true ↔ s.status.busy = false ∧ s.status.err = false := by
  simp [accepting]

theorem not_accepting_iff (s : State) : accepting s = false ↔ s.status.busy = true ∨ s.status.err = true := by
  cases h1 : s.status.busy <;> cases h2 : s.status.err <;> simp [accepting, h1, h2]

@[simp] theorem prerequisite_busyOn (i : Instr) (f : Status) : prerequisite i f.busyOn = prerequisite i f := by
  cases i <;> rfl

/-- In an idle block, BUSY on and off again changes nothing. -/
theorem busyOn_busyOff (f : Status) (h : f.busy = false) : f.busyOn.busyOff = f := by
  cases f
  simp_all [Status.busyOn, Status.busyOff]

theorem finish_begin (s : State) (h : s.status.busy = false) : finish (begin s) = s := by
  simp only [finish, begin, busyOn_busyOff _ h]

/-- R250 and R253, of the model's fault entry. -/
theorem faultEntry_latched (cmd : Byte) (r : Raised) (s : State) : FaultLatched cmd r s (faultEntry cmd r s) :=
  ⟨rfl, rfl, rfl, rfl, rfl, rfl, rfl, rfl, rfl, rfl, rfl, rfl⟩

/-- The fault entry is a function of what R253 keeps. -/
theorem faultEntry_congr (cmd : Byte) (r : Raised) (s t : State) (h1 : t.srcLen = s.srcLen) (h2 : t.src = s.src)
    (h3 : t.srcCap = s.srcCap) (h4 : t.dstCap = s.dstCap) (h5 : t.payCap = s.payCap) (h6 : t.script = s.script)
    (h7 : t.index = s.index) (h8 : t.reads = s.reads) (h9 : t.draws = s.draws) :
    faultEntry cmd r t = faultEntry cmd r s := by
  simp only [faultEntry, h1, h2, h3, h4, h5, h6, h7, h8, h9]

theorem faultEntry_recmd (c d : Byte) (r : Raised) (s : State) :
    { faultEntry c r s with err := { (faultEntry c r s).err with cmd := d } } = faultEntry d r s := rfl

/-- A reset abandons whatever word the block takes (R101 step 3, R285). -/
theorem resetDuring_taken (w : Word) (s : State) (h : accepting s = true) : resetDuring w s = abandonCommand s := by
  simp only [resetDuring, h, if_true]
  rfl

/-- A word the block drops because a fault is latched leaves a plain reset. -/
theorem resetDuring_dropped (w : Word) (s : State) (h1 : s.status.busy = false) (h2 : s.status.err = true) :
    resetDuring w s = resetBlock s := by
  simp [resetDuring, accepting, hardReset, h1, h2]

/-- Everything presenting a command can do when it answers a next state. -/
theorem command_cases {i : Instr} {body : State → Except Stop State} {s t : State} (h : command i body s = .next t) :
    (accepting s = false ∧ t = s) ∨
      (accepting s = true ∧ ∃ u, runRule i body (begin s) = .ok u ∧ t = finish u) ∨
      (accepting s = true ∧ ∃ r, runRule i body (begin s) = .error (.raised r) ∧ t = faultEntry i.opcode r s) := by
  unfold command at h
  by_cases ha : accepting s = true
  · simp only [ha, if_true] at h
    cases hb : runRule i body (begin s) with
    | ok u =>
      rw [hb] at h
      injection h with h
      exact .inr (.inl ⟨ha, u, rfl, h.symm⟩)
    | error e =>
      rw [hb] at h
      cases e with
      | raised r =>
        injection h with h
        exact .inr (.inr ⟨ha, r, rfl, h.symm⟩)
      | stuck f => cases h
  · simp only [ha, if_false, Bool.false_eq_true] at h
    injection h with h
    exact .inl ⟨by simpa using ha, h.symm⟩

/-- A command that is not taken is dropped. -/
theorem command_dropped (i : Instr) (body : State → Except Stop State) (s : State) (h : accepting s = false) :
    command i body s = .next s := by
  simp [command, h]

theorem runRule_eq (i : Instr) (body : State → Except Stop State) (s : State) (hw : i.wf = true)
    (hp : prerequisite i s.status = true) : runRule i body s = body s := by
  simp [runRule, hw, hp]

/-- A command that is taken, whose prerequisites hold, and whose rule ends. -/
theorem command_ok {i : Instr} {body : State → Except Stop State} {s u : State} (hw : i.wf = true) (hr : Ready i s)
    (hb : body (begin s) = .ok u) : command i body s = .next (finish u) := by
  have hp : prerequisite i (begin s).status = true := by simpa using hr.2
  simp only [command, hr.1, if_true, runRule_eq i body (begin s) hw hp, hb]

/-- A command that is taken, whose prerequisites hold, and whose rule raises. -/
theorem command_raised {i : Instr} {body : State → Except Stop State} {s : State} {r : Raised} (hw : i.wf = true)
    (hr : Ready i s) (hb : body (begin s) = .error (.raised r)) :
    command i body s = .next (faultEntry i.opcode r s) := by
  have hp : prerequisite i (begin s).status = true := by simpa using hr.2
  simp only [command, hr.1, if_true, runRule_eq i body (begin s) hw hp, hb]

/-- A command that is taken and lacks a prerequisite (R247). -/
theorem command_badSequence {i : Instr} {body : State → Except Stop State} {s : State} (hw : i.wf = true)
    (ha : accepting s = true) (hp : prerequisite i s.status = false) :
    command i body s = .next (faultEntry i.opcode (faultOf i.opcode .badSequence 0#8 (encode i).toNat) s) := by
  simp [command, ha, runRule, hw, hp, raise, faultOf]

/-- The rule of a command, as exec runs it: SRST apart, `exec i` is `command i (ruleOf i)`. -/
def ruleOf : Instr → State → Except Stop State
  | .nop => nopRule
  | .srst => fun s => .ok (resetBlock s)
  | .count => countRule
  | .build => buildRule
  | .walk => walkRule
  | .pkinit => pkinitRule
  | .pkput n => pkputRule n
  | .pkflush => pkflushRule
  | .upinit => upinitRule
  | .upget n => upgetRule n
  | .encode => encodeRule
  | .decode => decodeRule
  | .ser => serRule
  | .deser => deserRule
  | .compress => compressRule
  | .decompress => decompressRule

theorem exec_eq_command (i : Instr) (hi : i ≠ .srst) (s : State) : exec i s = command i (ruleOf i) s := by
  cases i <;> first | rfl | exact absurd rfl hi

theorem exec_srst (s : State) : exec .srst s = if s.status.busy then .next s else .next (resetBlock s) := rfl

/-- A `raise` in the rule of a command, as the statements say it. -/
theorem raises_of_rule {i : Instr} {s : State} {r : Raised} (hi : i ≠ .srst) (hw : i.wf = true) (hr : Ready i s)
    (hb : ruleOf i (begin s) = .error (.raised r)) : Raises i s r :=
  ⟨_, by rw [exec_eq_command i hi]; exact command_raised hw hr hb, faultEntry_latched _ _ _⟩

/-- The end of the rule of a command, as exec answers it. -/
theorem exec_of_rule {i : Instr} {s u : State} (hi : i ≠ .srst) (hw : i.wf = true) (hr : Ready i s)
    (hb : ruleOf i (begin s) = .ok u) : exec i s = .next (finish u) := by
  rw [exec_eq_command i hi]
  exact command_ok hw hr hb

end Sys2Proof.Machine
end

