-- ==== Sys2Proof/Laws/Packer.lean ====
section
/-! SUPPORT. The packer primitives keep R26: what the block holds is the sequence pushed so far. -/

namespace Sys2Proof.Machine

theorem ceil8_eq (n : Nat) : ceil8 n = (n + 7) / 8 := rfl

theorem getD_append_left (b c : Bits) (k : Nat) (h : k < b.length) : (b ++ c).getD k false = b.getD k false := by
  simp [List.getElem?_append_left h]

/-- A bit of ACC after one more bit (R171). -/
theorem accWith_getLsbD (acc : Byte) (r j : Nat) (x : Bool) (hr : r < 8) (hj : j < 8) :
    (accWith acc r x).getLsbD (7 - j) = (acc.getLsbD (7 - j) || (decide (j = r) && x)) := by
  simp only [accWith, BitVec.getLsbD_or, BitVec.getLsbD_shiftLeft, BitVec.getLsbD_setWidth, BitVec.getLsbD_ofBool]
  congr 1
  by_cases h : j = r
  · subst h
    have h1 : 7 - j < 8 := by omega
    simp [h1]
  · by_cases h2 : j < r
    · have h3 : 7 - j - (7 - r) ≠ 0 := by omega
      simp [h, h3]
    · have h3 : 7 - j < 7 - r := by omega
      simp [h, h3]

theorem bitGroup_append_left (b c : Bits) (k : Nat) (h : k + 8 ≤ b.length) :
    bitGroup (b ++ c) k 8 = bitGroup b k 8 := by
  simp only [bitGroup]
  apply List.map_congr_left
  intro j hj
  have hj' : j < 8 := by simpa using hj
  exact getD_append_left b c (k + j) (by omega)

/-- The byte of a group that starts past the end of a sequence is 0. -/
theorem groupByte_past (b : Bits) (k : Nat) (h : b.length ≤ k) :
    BitVec.ofNat 8 (bitsVal (bitGroup b k 8)) = 0#8 := by
  apply byte_ext
  intro j hj
  rw [groupByte_getLsbD _ _ _ hj]
  have h1 : b.length ≤ k + j := by omega
  simp [h1]

/-- ACC and one more bit hold the last group of the longer sequence (R26, R171). -/
theorem accWith_group (acc : Byte) (b : Bits) (x : Bool)
    (h : acc = BitVec.ofNat 8 (bitsVal (bitGroup b (8 * (b.length / 8)) 8))) :
    accWith acc (b.length % 8) x = BitVec.ofNat 8 (bitsVal (bitGroup (b ++ [x]) (8 * (b.length / 8)) 8)) := by
  apply byte_ext
  intro j hj
  rw [accWith_getLsbD _ _ _ _ (Nat.mod_lt _ (by omega)) hj, groupByte_getLsbD _ _ _ hj, h, groupByte_getLsbD _ _ _ hj]
  by_cases h1 : 8 * (b.length / 8) + j < b.length
  · have h2 : j ≠ b.length % 8 := by omega
    rw [getD_append_left _ _ _ h1]
    simp [h2]
  · by_cases h2 : j = b.length % 8
    · simp [h2]
      have h4 : 8 * (b.length / 8) + b.length % 8 = b.length := by omega
      simp [h4]
    · have h3 : b.length + 1 ≤ 8 * (b.length / 8) + j := by omega
      have h4 : b.length ≤ 8 * (b.length / 8) + j := by omega
      have h5 : (b ++ [x])[8 * (b.length / 8) + j]? = none :=
        List.getElem?_eq_none (by simp only [List.length_append, List.length_cons, List.length_nil]; omega)
      simp [h2, h4, h5]

/-- What pk_push's loop does not touch (R171). -/
theorem pkBit_frame (s : State) (x : Bool) :
    pkBit s x = { s with pay := (pkBit s x).pay, acc := (pkBit s x).acc, bitLen := (pkBit s x).bitLen } := by
  by_cases h8 : (s.bitLen.toNat + 1) % 8 = 0 <;> simp only [pkBit, h8, if_true, if_false]

theorem pkBit_length (s : State) (x : Bool) (h : s.bitLen.toNat + 1 < 2 ^ 32) :
    (pkBit s x).bitLen.toNat = s.bitLen.toNat + 1 := by
  by_cases h8 : (s.bitLen.toNat + 1) % 8 = 0 <;> simp only [pkBit, h8, if_true, if_false, BitVec.toNat_ofNat] <;>
    exact Nat.mod_eq_of_lt h

/-- One bit pushed (R26, R171). -/
theorem pkBit_packed (s : State) (b : Bits) (x : Bool) (hp : Packed s b) (hl : b.length + 1 < 2 ^ 32) :
    Packed (pkBit s x) (b ++ [x]) := by
  have hlen := hp.length
  have hacc := accWith_group s.acc b x hp.rest
  have hfit : s.bitLen.toNat + 1 < 2 ^ 32 := by omega
  refine ⟨by rw [pkBit_length s x hfit]; simp [hlen], ?_, ?_⟩
  · intro i hi
    simp only [List.length_append, List.length_cons, List.length_nil] at hi
    unfold pkBit
    simp only [hlen]
    by_cases h8 : (b.length + 1) % 8 = 0
    · rw [if_pos h8]
      by_cases h1 : i = (b.length + 1) / 8 - 1
      · subst h1
        have h2 : 8 * ((b.length + 1) / 8 - 1) = 8 * (b.length / 8) := by omega
        rw [readByte_writeByte_same, hacc, h2]
      · rw [readByte_writeByte_other _ _ _ _ _ h1, hp.bytes i (by omega), bitGroup_append_left _ _ _ (by omega)]
    · rw [if_neg h8]
      rw [hp.bytes i (by omega), bitGroup_append_left _ _ _ (by omega)]
  · simp only [List.length_append, List.length_cons, List.length_nil]
    unfold pkBit
    simp only [hlen]
    by_cases h8 : (b.length + 1) % 8 = 0
    · rw [if_pos h8, groupByte_past _ _ (by simp only [List.length_append, List.length_cons, List.length_nil]; omega)]
    · rw [if_neg h8]
      have h2 : (b.length + 1) / 8 = b.length / 8 := by omega
      simp only [hacc, Nat.zero_add, h2]

theorem pkBit_pay (s : State) (x : Bool) (a : Nat) (h : a < s.bitLen.toNat / 8 ∨ (s.bitLen.toNat + 1) / 8 ≤ a) :
    readByte .pay (pkBit s x).pay a = readByte .pay s.pay a := by
  unfold pkBit
  by_cases h8 : (s.bitLen.toNat + 1) % 8 = 0
  · simp only [h8, if_true]
    rw [readByte_writeByte_other _ _ _ _ _ (by omega)]
  · simp only [h8, if_false]

/-- The loop of pk_push (R171, R173): the sequence grows by b, and only the bytes that become complete are written. -/
theorem pkBits_packed (c : Bits) (s : State) (b : Bits) (hp : Packed s b) (hl : b.length + c.length < 2 ^ 32) :
    Packed (c.foldl pkBit s) (b ++ c) := by
  induction c generalizing s b with
  | nil => simpa using hp
  | cons x rest ih =>
    simp only [List.length_cons] at hl
    have h1 := ih (pkBit s x) (b ++ [x]) (pkBit_packed s b x hp (by omega)) (by simp; omega)
    simpa using h1

theorem pkBits_frame (c : Bits) (s : State) :
    c.foldl pkBit s =
      { s with pay := (c.foldl pkBit s).pay, acc := (c.foldl pkBit s).acc, bitLen := (c.foldl pkBit s).bitLen } := by
  induction c generalizing s with
  | nil => rfl
  | cons x rest ih =>
    rw [List.foldl_cons, ih (pkBit s x)]
    rw [pkBit_frame s x]

theorem pkBits_length (c : Bits) (s : State) (hl : s.bitLen.toNat + c.length < 2 ^ 32) :
    (c.foldl pkBit s).bitLen.toNat = s.bitLen.toNat + c.length := by
  induction c generalizing s with
  | nil => rfl
  | cons x rest ih =>
    simp only [List.length_cons] at hl
    have h1 := pkBit_length s x (by omega)
    rw [List.foldl_cons, ih (pkBit s x) (by omega), h1, List.length_cons]
    omega

theorem pkBits_pay (c : Bits) (s : State) (a : Nat) (hl : s.bitLen.toNat + c.length < 2 ^ 32)
    (h : a < s.bitLen.toNat / 8 ∨ (s.bitLen.toNat + c.length) / 8 ≤ a) :
    readByte .pay (c.foldl pkBit s).pay a = readByte .pay s.pay a := by
  induction c generalizing s with
  | nil => rfl
  | cons x rest ih =>
    simp only [List.length_cons] at hl h
    have h1 := pkBit_length s x (by omega)
    rw [List.foldl_cons, ih (pkBit s x) (by omega) (by omega)]
    exact pkBit_pay s x a (by omega)

theorem pkBit_wf (s : State) (x : Bool) (h : s.pay.wf = true) : (pkBit s x).pay.wf = true := by
  by_cases h8 : (s.bitLen.toNat + 1) % 8 = 0 <;> simp only [pkBit, h8, if_true, if_false]
  · exact writeByte_wf _ _ _ h
  · exact h

theorem pkBits_wf (c : Bits) (s : State) (h : s.pay.wf = true) : (c.foldl pkBit s).pay.wf = true := by
  induction c generalizing s with
  | nil => exact h
  | cons x rest ih => exact ih (pkBit s x) (pkBit_wf s x h)

theorem pkBits_within (c : Bits) (s : State) (cap : Nat) (h : s.pay.within cap = true)
    (hl : s.bitLen.toNat + c.length < 2 ^ 32) (hc : ceil8 (s.bitLen.toNat + c.length) ≤ cap) :
    (c.foldl pkBit s).pay.within cap = true := by
  induction c generalizing s with
  | nil => exact h
  | cons x rest ih =>
    simp only [List.length_cons, ceil8_eq] at hl hc
    have h1 := pkBit_length s x (by omega)
    refine ih (pkBit s x) ?_ (by omega) (by rw [ceil8_eq]; omega)
    by_cases h8 : (s.bitLen.toNat + 1) % 8 = 0 <;> simp only [pkBit, h8, if_true, if_false]
    · exact writeByte_within _ _ _ _ h (by omega)
    · exact h

/-- pk_init holds the empty sequence (R170). -/
theorem pkInit_packed (s : State) : Packed (pkInit s) [] := ⟨rfl, by simp, rfl⟩

/-- pk_flush leaves Bytes(b) in PAY (R172, R173). -/
theorem pkFlush_bytes (s : State) (b : Bits) (hp : Packed s b) :
    readBytes .pay (pkFlush s).pay 0 (ceil8 b.length) = bytesOf b := by
  have hlen := hp.length
  apply List.ext_getElem (by simp)
  intro i h1 h2
  have hi : i < ceil8 b.length := by simpa using h2
  rw [readBytes_getElem, bytesOf_getElem, Nat.zero_add, pkFlush_pay, hlen]
  rw [ceil8_eq] at hi
  by_cases h8 : b.length % 8 = 0
  · rw [if_pos h8, hp.bytes i (by omega)]
  · rw [if_neg h8]
    by_cases h3 : i = b.length / 8
    · subst h3
      rw [readByte_writeByte_same, hp.rest]
    · rw [readByte_writeByte_other _ _ _ _ _ h3, hp.bytes i (by omega)]

theorem ceil8_fits (n : Nat) (h : n < 2 ^ 32) : (BitVec.ofNat 32 (ceil8 n)).toNat = ceil8 n := by
  rw [BitVec.toNat_ofNat, Nat.mod_eq_of_lt (by rw [ceil8_eq]; omega)]

/-- pk_push either raises one of its two faults, with nothing appended, or runs its loop (R171). -/
theorem pkPush_ok {op : Byte} {c : Bits} {s t : State} (h : pkPush op c s = .ok t) :
    s.bitLen.toNat + c.length ≤ Config.lMax ∧ ceil8 (s.bitLen.toNat + c.length) ≤ s.payCap.toNat ∧
      t = c.foldl pkBit s := by
  unfold pkPush raise at h
  split at h
  · cases h
  · split at h
    · cases h
    · injection h with h
      exact ⟨by omega, by omega, h.symm⟩

theorem pkPush_eq_ok (op : Byte) (c : Bits) (s : State) (h1 : s.bitLen.toNat + c.length ≤ 2 ^ 32 - 1)
    (h2 : ceil8 (s.bitLen.toNat + c.length) ≤ s.payCap.toNat) : pkPush op c s = .ok (c.foldl pkBit s) := by
  have h3 : ¬Config.lMax < s.bitLen.toNat + c.length := by simp only [Config.lMax]; omega
  simp [pkPush, h3, Nat.not_lt.mpr h2]

end Sys2Proof.Machine
end

