-- ==== Sys2Proof/Laws/PerInstr.lean ====
section
/-! SUPPORT. One lemma a command: its word is one of the words of its row of the opcode table (spec 30_encoding.md R104,
R107). -/

namespace Sys2Proof.Laws.TableRow

/-- The match word of a command's row in the opcode table (R107). -/
def matchWord : Instr → Word
  | .nop => 0x00000000#32
  | .srst => 0x01000000#32
  | .count => 0x10000000#32
  | .build => 0x11000000#32
  | .walk => 0x12000000#32
  | .pkinit => 0x20000000#32
  | .pkput _ => 0x21000000#32
  | .pkflush => 0x22000000#32
  | .upinit => 0x23000000#32
  | .upget _ => 0x24000000#32
  | .encode => 0x28000000#32
  | .decode => 0x29000000#32
  | .ser => 0x30000000#32
  | .deser => 0x31000000#32
  | .compress => 0x40000000#32
  | .decompress => 0x41000000#32

/-- The mask word of a command's row in the opcode table (R107). -/
def maskWord : Instr → Word
  | .nop => 0xFFFFFFFF#32
  | .srst => 0xFFFFFFFF#32
  | .count => 0xFFFFFFFF#32
  | .build => 0xFFFFFFFF#32
  | .walk => 0xFFFFFFFF#32
  | .pkinit => 0xFFFFFFFF#32
  | .pkput _ => 0xFFFFFFC0#32
  | .pkflush => 0xFFFFFFFF#32
  | .upinit => 0xFFFFFFFF#32
  | .upget _ => 0xFFFFFFC0#32
  | .encode => 0xFFFFFFFF#32
  | .decode => 0xFFFFFFFF#32
  | .ser => 0xFFFFFFFF#32
  | .deser => 0xFFFFFFFF#32
  | .compress => 0xFFFFFFFF#32
  | .decompress => 0xFFFFFFFF#32

/-- The word of the command has its row's fixed bits, and its low six bits are the operand the command carries. -/
def Statement (i : Instr) : Prop :=
  encode i &&& maskWord i = matchWord i ∧
    ∀ n, i = .pkput n ∨ i = .upget n → encode i &&& 0x3F#32 = n.setWidth 32

theorem nop : Statement .nop := ⟨by decide, by simp⟩

theorem srst : Statement .srst := ⟨by decide, by simp⟩

theorem count : Statement .count := ⟨by decide, by simp⟩

theorem build : Statement .build := ⟨by decide, by simp⟩

theorem walk : Statement .walk := ⟨by decide, by simp⟩

theorem pkinit : Statement .pkinit := ⟨by decide, by simp⟩

theorem pkput (n : BitVec 6) : Statement (.pkput n) := by
  refine ⟨?_, ?_⟩
  · revert n; decide
  · intro m h
    have hm : m = n := by simpa [eq_comm] using h
    subst hm
    revert m; decide

theorem pkflush : Statement .pkflush := ⟨by decide, by simp⟩

theorem upinit : Statement .upinit := ⟨by decide, by simp⟩

theorem upget (n : BitVec 6) : Statement (.upget n) := by
  refine ⟨?_, ?_⟩
  · revert n; decide
  · intro m h
    have hm : m = n := by simpa [eq_comm] using h
    subst hm
    revert m; decide

theorem encode : Statement .encode := ⟨by decide, by simp⟩

theorem decode : Statement .decode := ⟨by decide, by simp⟩

theorem ser : Statement .ser := ⟨by decide, by simp⟩

theorem deser : Statement .deser := ⟨by decide, by simp⟩

theorem compress : Statement .compress := ⟨by decide, by simp⟩

theorem decompress : Statement .decompress := ⟨by decide, by simp⟩

end Sys2Proof.Laws.TableRow
end

