-- ==== Sys2Proof/Tests/Slice0.lean ====
section
/-! SUPPORT. The model's own tests: the check of well-formedness, decoding of words written out from spec 30_encoding.md
R102 to R104, single commands against the worked examples of spec 95_test_vectors.md and of the rules, and for each
statement with hypotheses a concrete state and operands that meet them. -/

/-! One theorem after another: many kernel evaluations at once take more threads than there is memory for. -/
set_option Elab.async false

namespace Sys2Proof.Tests

open Sys2Proof.Machine

/-! ## Helpers -/

/-- The state an outcome answers, and the reset state when it answers none. -/
def nextOf (o : Host.Outcome State Fault Refusal) : State :=
  match o with
  | .next t => t
  | .fault _ => State.reset
  | .refused _ => State.reset

/-- The outcome is a next state. -/
def isNext (o : Host.Outcome State Fault Refusal) : Bool :=
  match o with
  | .next _ => true
  | .fault _ => false
  | .refused _ => false

theorem eq_nextOf {o : Host.Outcome State Fault Refusal} (h : isNext o = true) : o = .next (nextOf o) := by
  cases o <;> first | rfl | cases h

/-- The state after a command, when it completes: its fields, read by f. -/
def after {α : Type} (i : Instr) (s : State) (f : State → α) : Option α :=
  match exec i s with
  | .next t => if t.status.err then none else some (f t)
  | .fault _ => none
  | .refused _ => none

/-- ERR and ERRINFO after a command that faults, as the host reads them. -/
def fault (i : Instr) (s : State) : Option (Word × Word) :=
  match exec i s with
  | .next t => if t.status.err then some (errWord t.err, t.errInfo) else none
  | .fault _ => none
  | .refused _ => none

/-- The reset state with a byte sequence in SRC. -/
def loaded (bs : List Byte) : State :=
  { State.reset with src := writeBytes Memory.powerOn 0 bs, srcLen := BitVec.ofNat 32 bs.length }

theorem srcBytes_loaded (bs : List Byte) (h : bs.length < 2 ^ 32) : srcBytes (loaded bs) = bs := by
  have h1 : (loaded bs).srcLen.toNat = bs.length := by
    simp only [loaded, BitVec.toNat_ofNat]
    exact Nat.mod_eq_of_lt h
  rw [srcBytes, h1]
  exact readBytes_writeBytes _ _ _ _

/-- A frequency table given by its nonzero counts. -/
def freqOf (l : List (Nat × Word)) : FreqTable := l.foldl (fun t c => putEntry t c.1 c.2) zeroFreq

/-- A codebook given by its codes. -/
def codeOf (l : List (Nat × Bits)) : CodeTable :=
  l.foldl (fun t c => putEntry t c.1 { valid := true, bits := c.2 }) emptyCode

/-- The codebook of "ABABABAB" (S1). -/
def codeAB : CodeTable := codeOf [(0x41, [false]), (0x42, [true])]

/-- The reset state with a codebook. -/
def coded (code : CodeTable) (n : BitVec 9) : State :=
  { State.reset with code := code, ncode := n, status := { Status.reset with codeValid := true } }

/-- The reset state with a codebook and a finished payload. -/
def payload (code : CodeTable) (n : BitVec 9) (bitLen : Word) (bs : List Byte) : State :=
  { coded code n with
    pay := writeBytes Memory.powerOn 0 bs, payLen := BitVec.ofNat 32 bs.length, bitLen := bitLen
    status := { Status.reset with codeValid := true, payValid := true } }

/-- The reset state with an open pack session that holds `bits` bits, the last of them in ACC. -/
def packing (bitLen : Word) (acc : Byte) (bs : List Byte) (pkData : Word) : State :=
  { State.reset with
    bitLen := bitLen, acc := acc, pay := writeBytes Memory.powerOn 0 bs, pkData := pkData
    status := { Status.reset with pkOpen := true } }

/-- A block with BadSequence latched (R247). -/
def faulted : State :=
  { State.reset with
    status := { Status.reset with err := true }
    err := { op := 0x12#8, cmd := 0x12#8, sub := 0#8, code := 6#8 }, errInfo := 0x12000000#32 }

/-- A block in the middle of a command. -/
def running : State := { State.reset with status := { Status.reset with busy := true } }

/-- The tree of "AB" (R148). -/
def treeAB : State :=
  { State.reset with
    freq := freqOf [(0x41, 4#32), (0x42, 4#32)]
    node := putEntry (putEntry (putEntry State.reset.node
      0 { leaf := true, sym := 0x41#8, weight := 4#40, left := 0#9, right := 0#9 })
      1 { leaf := true, sym := 0x42#8, weight := 4#40, left := 0#9, right := 0#9 })
      2 { leaf := false, sym := 0#8, weight := 8#40, left := 0#9, right := 1#9 }
    nsym := 2#9, nnode := 3#10, root := 2#9, status := { Status.reset with treeValid := true } }

/-- The tree of one symbol (T7). -/
def treeZ : State :=
  { State.reset with
    freq := putEntry zeroFreq 0x5A 5#32
    node := putEntry State.reset.node 0 { leaf := true, sym := 0x5A#8, weight := 5#40, left := 0#9, right := 0#9 }
    nsym := 1#9, nnode := 1#10, status := { Status.reset with treeValid := true } }

/-! ## Well-formedness -/

theorem test_wf_pkput_zero : (Instr.pkput 0#6).wf = false := by decide
theorem test_wf_pkput_one : (Instr.pkput 1#6).wf = true := by decide
theorem test_wf_pkput_thirty_two : (Instr.pkput 32#6).wf = true := by decide
theorem test_wf_pkput_thirty_three : (Instr.pkput 33#6).wf = false := by decide
theorem test_wf_upget_zero : (Instr.upget 0#6).wf = false := by decide
theorem test_wf_upget_one : (Instr.upget 1#6).wf = true := by decide
theorem test_wf_upget_thirty_two : (Instr.upget 32#6).wf = true := by decide
theorem test_wf_upget_sixty_three : (Instr.upget 63#6).wf = false := by decide

/-! ## Decoding: words written out bit by bit from R102 to R104 -/

theorem test_decode_nop : decodeTableWord 32 0b00000000_000000000000000000000000 = some .nop := by decide
theorem test_decode_srst : decodeTableWord 32 0b00000001_000000000000000000000000 = some .srst := by decide
theorem test_decode_count : decodeTableWord 32 0b00010000_000000000000000000000000 = some .count := by decide
theorem test_decode_build : decodeTableWord 32 0b00010001_000000000000000000000000 = some .build := by decide
theorem test_decode_walk : decodeTableWord 32 0b00010010_000000000000000000000000 = some .walk := by decide
theorem test_decode_pkinit : decodeTableWord 32 0b00100000_000000000000000000000000 = some .pkinit := by decide
theorem test_decode_pkput : decodeTableWord 32 0b00100001_000000000000000000_010101 = some (.pkput 21#6) := by decide
theorem test_decode_pkflush : decodeTableWord 32 0b00100010_000000000000000000000000 = some .pkflush := by decide
theorem test_decode_upinit : decodeTableWord 32 0b00100011_000000000000000000000000 = some .upinit := by decide
theorem test_decode_upget : decodeTableWord 32 0b00100100_000000000000000000_100000 = some (.upget 32#6) := by decide
theorem test_decode_encode : decodeTableWord 32 0b00101000_000000000000000000000000 = some .encode := by decide
theorem test_decode_decode : decodeTableWord 32 0b00101001_000000000000000000000000 = some .decode := by decide
theorem test_decode_ser : decodeTableWord 32 0b00110000_000000000000000000000000 = some .ser := by decide
theorem test_decode_deser : decodeTableWord 32 0b00110001_000000000000000000000000 = some .deser := by decide
theorem test_decode_compress : decodeTableWord 32 0b01000000_000000000000000000000000 = some .compress := by decide
theorem test_decode_decompress : decodeTableWord 32 0b01000001_000000000000000000000000 = some .decompress := by decide

/-- R106, and K9: a reserved opcode, a must-be-zero bit, and N outside 1..32, tested in this order. -/
theorem test_decode_reserved_opcode : decodeWord 0x02000001#32 = .error .reservedOpcode := by rfl
theorem test_decode_reserved_bit_z : decodeWord 0x10800000#32 = .error .reservedBits := by rfl
theorem test_decode_reserved_bit_n : decodeWord 0x21000040#32 = .error .reservedBits := by rfl
theorem test_decode_count_zero : decodeWord 0x24000000#32 = .error .badCount := by rfl
theorem test_decode_count_high : decodeWord 0x21000021#32 = .error .badCount := by rfl

/-! ## Single commands, with the expected values of spec 95_test_vectors.md and of the rules' examples -/

/-- R227. -/
theorem test_nop : after .nop (packing 3#32 0xA0#8 [] 5#32) (fun t => (statusWord t.status, t.acc, t.pkData)) =
    some (0x20#32, 0xA0#8, 5#32) := by decide +kernel

/-- R228: SRST clears a fault. -/
theorem test_srst : after .srst faulted (fun t => (statusWord t.status, errWord t.err, t.errInfo)) =
    some (0#32, 0#32, 0#32) := by decide +kernel

/-- R141's example. -/
theorem test_count : after .count (loaded [0x41#8, 0x42#8, 0x41#8, 0x42#8, 0x41#8, 0x42#8, 0x41#8, 0x42#8])
    (fun t => (entryAt t.freq 0x41, entryAt t.freq 0x42, entryAt t.freq 0x43)) = some (4#32, 4#32, 0#32) := by
  decide +kernel

/-- 2.1: SRC_LEN = 65 with SRC_CAP = 64. -/
theorem test_count_capacity : fault .count { State.reset with srcLen := 65#32 } = some (0x10100107#32, 65#32) := by
  decide +kernel

/-- R154 (b), T5: a leaf ties with an internal node; the leaves come first. -/
theorem test_build_tie : after .build
    { State.reset with freq := freqOf [(0x10, 1#32), (0x20, 1#32), (0x30, 2#32), (0x40, 2#32)] }
    (fun t => ((entryAt t.node 5).left, (entryAt t.node 5).right, (entryAt t.node 6).left, (entryAt t.node 6).right,
      t.root, t.nnode)) = some (2#9, 3#9, 4#9, 5#9, 6#9, 7#10) := by decide +kernel

/-- T10: all counts zero. -/
theorem test_build_empty : fault .build State.reset = some (0x11110001#32, 0#32) := by decide +kernel

/-- R161 on the tree of R148's example: left "0", right "1". -/
theorem test_walk : after .walk treeAB
    (fun t => ((entryAt t.code 0x41).bits, (entryAt t.code 0x42).bits, t.ncode, statusWord t.status)) =
      some ([false], [true], 2#9, 0x0C#32) := by decide +kernel

/-- T7: one symbol. -/
theorem test_walk_one_symbol : after .walk treeZ
    (fun t => ((entryAt t.code 0x5A), t.ncode)) = some ({ valid := true, bits := [false] }, 1#9) := by decide +kernel

/-- K1: PKINIT. -/
theorem test_pkinit : after .pkinit (payload codeAB 2#9 8#32 [0x55#8])
    (fun t => (t.bitLen, t.payLen, statusWord t.status)) = some (0#32, 0#32, 0x28#32) := by decide +kernel

/-- K1: PKPUT 6 of 0x3F after "101". -/
theorem test_pkput : after (.pkput 6#6) (packing 3#32 0xA0#8 [] 0x3F#32)
    (fun t => (t.bitLen, readByte .pay t.pay 0, t.acc)) = some (9#32, 0xBF#8, 0x80#8) := by decide +kernel

/-- K8: the size limit, in an instance with PAY_CAP = 2^29. -/
theorem test_pkput_size_limit : fault (.pkput 2#6)
    { packing 0xFFFFFFFE#32 0#8 [] 0#32 with payCap := 0x20000000#32 } = some (0x21210002#32, 0xFFFFFFFE#32) := by
  decide +kernel

/-- K1: PKFLUSH pads the last byte. -/
theorem test_pkflush : after .pkflush (packing 9#32 0x80#8 [0xBF#8] 0#32)
    (fun t => (payBytes t, t.bitLen, statusWord t.status)) = some ([0xBF#8, 0x80#8], 9#32, 0x10#32) := by
  decide +kernel

/-- K5: the empty payload. -/
theorem test_pkflush_empty : after .pkflush (packing 0#32 0#8 [] 0#32) (fun t => (t.payLen, statusWord t.status)) =
    some (0#32, 0x10#32) := by decide +kernel

/-- R178's example. -/
theorem test_upinit : after .upinit (payload codeAB 2#9 8#32 [0x55#8]) (fun t => (t.upPos, statusWord t.status)) =
    some (0#32, 0x58#32) := by decide +kernel

/-- E7: a payload shorter than BITLEN. -/
theorem test_upinit_truncated : fault .upinit (payload codeAB 2#9 9#32 [0x55#8]) = some (0x23230104#32, 1#32) := by
  decide +kernel

/-- K1: the six bits after the first three. -/
theorem test_upget : after (.upget 6#6)
    { payload emptyCode 0#9 9#32 [0xBF#8, 0x80#8] with
      upPos := 3#32, status := { Status.reset with payValid := true, upOpen := true } }
    (fun t => (t.pkData, t.upPos)) = some (0x3F#32, 9#32) := by decide +kernel

/-- K1: padding is not delivered. -/
theorem test_upget_past_the_end : fault (.upget 1#6)
    { payload emptyCode 0#9 9#32 [0xBF#8, 0x80#8] with
      upPos := 9#32, status := { Status.reset with payValid := true, upOpen := true } } =
    some (0x24240304#32, 9#32) := by decide +kernel

/-- "abracadabra" (T1). -/
def abracadabra : List Byte :=
  [0x61#8, 0x62#8, 0x72#8, 0x61#8, 0x63#8, 0x61#8, 0x64#8, 0x61#8, 0x62#8, 0x72#8, 0x61#8]

/-- The codebook of T1. -/
def codeT1 : CodeTable :=
  codeOf [(0x61, [false]), (0x62, [true, true, false]), (0x63, [true, false, false]), (0x64, [true, false, true]),
    (0x72, [true, true, true])]

/-- E1. -/
theorem test_encode : after .encode
    { loaded abracadabra with code := codeT1, ncode := 5#9, status := { Status.reset with codeValid := true } }
    (fun t => (payBytes t, t.bitLen, statusWord t.status)) = some ([0x6E#8, 0x8A#8, 0xDC#8], 23#32, 0x18#32) := by
  decide +kernel

/-- E3: a byte with no code. -/
theorem test_encode_uncovered : fault .encode
    { loaded [0x41#8, 0x42#8, 0x43#8] with
      code := codeAB, ncode := 2#9, status := { Status.reset with codeValid := true } } =
    some (0x28280D03#32, 2#32) := by decide +kernel

/-- E1 and T1, the other way. -/
theorem test_decode : after .decode (payload codeT1 5#9 23#32 [0x6E#8, 0x8A#8, 0xDC#8])
    (fun t => (dstBytes t, t.upPos, statusWord t.status)) = some (abracadabra, 23#32, 0x18#32) := by decide +kernel

/-- E6: bits left over at the end. -/
theorem test_decode_mid_code : fault .decode
    (payload (codeOf [(0x41, [false]), (0x42, [true, false]), (0x43, [true, true])]) 3#9 2#32 [0x40#8]) =
    some (0x29290204#32, 1#32) := by decide +kernel

/-- The container of "ABABABAB" (R123, S1). -/
def containerAB : List Byte :=
  [0x00#8, 0x00#8, 0x00#8, 0x09#8, 0x01#8, 0x00#8, 0x02#8, 0x41#8, 0x01#8, 0x00#8, 0x42#8, 0x01#8, 0x80#8, 0x00#8,
    0x00#8, 0x00#8, 0x08#8, 0x55#8]

/-- R191's example. -/
theorem test_ser : after .ser (payload codeAB 2#9 8#32 [0x55#8]) dstBytes = some containerAB := by decide +kernel

/-- R248 sub 3, with DST one byte too small. -/
theorem test_ser_capacity : fault .ser { payload codeAB 2#9 8#32 [0x55#8] with dstCap := 17#32 } =
    some (0x30300307#32, 0#32) := by decide +kernel

/-- R195 of the container of S1. -/
theorem test_deser : after .deser (loaded containerAB)
    (fun t => ((entryAt t.code 0x41).bits, (entryAt t.code 0x42).bits, t.ncode, t.bitLen, payBytes t)) =
    some ([false], [true], 2#9, 8#32, [0x55#8]) := by decide +kernel

/-- R200, sub-cause 11: the codes "0" and "00". -/
theorem test_deser_not_prefix_free : fault .deser
    (loaded [0x00#8, 0x00#8, 0x00#8, 0x09#8, 0x01#8, 0x00#8, 0x02#8, 0x41#8, 0x01#8, 0x00#8, 0x42#8, 0x02#8, 0x00#8,
      0x00#8, 0x00#8, 0x00#8, 0x08#8, 0x55#8]) = some (0x31310B03#32, 13#32) := by decide +kernel

/-- S1. -/
theorem test_compress : after .compress (loaded [0x41#8, 0x42#8, 0x41#8, 0x42#8, 0x41#8, 0x42#8, 0x41#8, 0x42#8])
    (fun t => (dstBytes t, statusWord t.status)) = some (containerAB, 0x1C#32) := by decide +kernel

/-- S3: the empty input. -/
theorem test_compress_empty : after .compress State.reset (fun t => (dstBytes t, statusWord t.status, t.ncode)) =
    some ([0#8, 0#8, 0#8, 3#8, 1#8, 0#8, 0#8, 0#8, 0#8, 0#8, 0#8], 0x18#32, 0#9) := by decide +kernel

/-- R216's example. -/
theorem test_decompress : after .decompress
    (loaded [0x00#8, 0x00#8, 0x00#8, 0x06#8, 0x01#8, 0x00#8, 0x01#8, 0x5A#8, 0x01#8, 0x00#8, 0x00#8, 0x00#8, 0x00#8,
      0x05#8, 0x00#8]) (fun t => (dstBytes t, t.dstLen)) = some (List.replicate 5 0x5A#8, 5#32) := by decide +kernel

/-- S4: the stage that faults is named. -/
theorem test_decompress_stage : fault .decompress
    (loaded [0x00#8, 0x00#8, 0x00#8, 0x0F#8, 0x01#8, 0x00#8, 0x02#8, 0x41#8, 0x01#8, 0x00#8, 0x42#8, 0x01#8, 0x80#8,
      0x00#8, 0x00#8, 0x00#8, 0x08#8, 0x55#8]) = some (0x31410203#32, 4#32) := by decide +kernel

/-- R105: a word placed where the host writes it next runs as the first command after reset. -/
theorem test_first_step : isNext (step (State.reset.withFetchWord 32 0x40000000)) = true ∧
    (nextOf (step (State.reset.withFetchWord 32 0x40000000))).dstLen = 11#32 := by decide +kernel

/-- T3's windows. -/
theorem test_window_code : codeWord { valid := true, bits := [true, true] } 0 = 0x80000002#32 ∧
    codeWord { valid := true, bits := [true, true] } 1 = 0xC0000000#32 := by decide +kernel

/-- T8's windows. -/
theorem test_window_node :
    let r : NodeRec := { leaf := false, sym := 0#8, weight := 0xFFFFFFFF00#40, left := 508#9, right := 509#9 }
    nodeWord r 1 = 0x01FD01FC#32 ∧ nodeWord r 2 = 0xFFFFFF00#32 ∧ nodeWord r 3 = 0x000000FF#32 := by decide +kernel

/-! ## Witnesses: for each statement with hypotheses, a state and operands that meet them all -/

/-- The reset state with the host about to perform one operation. -/
def about (op : HostOp) (s : State) : State := { s with script := [op], index := 0 }

theorem witness_DecodeEncodeAgree : WellFormed (.pkput 32#6) ∧ decodeWord 0x21000020#32 = .ok (.pkput 32#6) :=
  ⟨by decide, by rfl⟩

/-- The four clauses: a reserved opcode, a reserved bit in each format, N = 0, N = 33. -/
theorem witness_UndecodableWordsRaiseIllegalCommand :
    accepting State.reset = true ∧ (0x02#8 ∉ [0x00#8, 0x01#8, 0x10#8, 0x11#8, 0x12#8, 0x20#8, 0x21#8, 0x22#8]) ∧
      (0x00000001#32).extractLsb' 0 24 ≠ 0#24 ∧ (0x10800000#32).extractLsb' 24 8 = 0x10#8 ∧
      (0x21000040#32).extractLsb' 24 8 = 0x21#8 ∧ (0x21000040#32).extractLsb' 6 18 ≠ 0#18 ∧
      (0x24000000#32).extractLsb' 6 18 = 0#18 ∧ (0x24000000#32).extractLsb' 0 6 = 0#6 ∧
      (0x24000021#32).extractLsb' 6 18 = 0#18 ∧ 32 < ((0x24000021#32).extractLsb' 0 6).toNat := by decide

theorem witness_StepRunsTheDecodedCommand :
    (∃ (s : State) (w : Word) (i : Instr), s.script[s.index]? = some (.wr .csr 0x04 w) ∧ decodeWord w = .ok i) ∧
      ∃ s : State, s.script[s.index]? = none :=
  ⟨⟨about (cmdWrite 0x24000020#32) State.reset, 0x24000020#32, .upget 32#6, rfl, rfl⟩, State.reset, rfl⟩

theorem witness_DroppedCommandWordsChangeNothing :
    (∃ (s : State) (w : Word), s.status.err = true ∧ s.status.busy = false ∧
      s.script[s.index]? = some (.wr .csr 0x04 w) ∧ w ≠ 0x01000000#32) ∧
      ∃ (s : State) (w : Word), s.status.busy = true ∧ s.script[s.index]? = some (.wr .csr 0x04 w) :=
  ⟨⟨about (cmdWrite 0x40000000#32) faulted, 0x40000000#32, rfl, rfl, rfl, by decide⟩,
    about (cmdWrite 0x01000000#32) running, 0x01000000#32, rfl, rfl⟩

/-- A dropped command, and a reset. -/
theorem witness_FirstFaultIsKeptUntilReset :
    (∃ s t : State, s.status.err = true ∧ s.status.busy = false ∧ step s = .next t ∧ t.status.err = true) ∧
      ∃ s t : State, s.status.err = true ∧ s.status.busy = false ∧ step s = .next t ∧ t.status.err = false :=
  ⟨⟨about (cmdWrite 0x40000000#32) faulted, _, rfl, rfl, eq_nextOf (by decide +kernel), by decide +kernel⟩,
    about (cmdWrite 0x01000000#32) faulted, _, rfl, rfl, eq_nextOf (by decide +kernel), by decide +kernel⟩

/-- The ends of each range: FREQ[255] and FREQ[256], SRC[63] and SRC[64] of 64 bytes, SRC_LEN, PKDATA, an ignored
offset. -/
theorem witness_HostWriteChangesOnlyItsTarget :
    ∀ p ∈ [(Space.freq, 255), (.freq, 256), (.src, 63), (.src, 64), (.csr, 0x14), (.csr, 0x34), (.csr, 0x3C), (.dst, 0)],
      ∃ s : State, s.status.busy = false ∧ ¬(p.1 = .csr ∧ p.2 = 0x04) ∧
        s.script[s.index]? = some (.wr p.1 p.2 0xFFFFFFFF#32) := by
  intro p hp
  refine ⟨about (.wr p.1 p.2 0xFFFFFFFF#32) State.reset, rfl, ?_, rfl⟩
  revert p
  decide

theorem witness_HostReadChangesNothing :
    ∃ (s : State) (space : Space) (i : Nat), s.status.busy = false ∧ s.script[s.index]? = some (.rd space i) :=
  ⟨about (.rd .pay 63) State.reset, .pay, 63, rfl, rfl⟩

/-- An offset above 0x48, and the highest bit of STATUS; and a latched fault. -/
theorem witness_CsrMapReadsTheRegisters : (accepting State.reset = true ∧ 0x48 < 0x4C ∧ 31 < 32) ∧
    faulted.status.busy = false ∧ faulted.status.err = true := by decide

/-- The first index outside each space. -/
theorem witness_OutOfRangeReadsReturnZero :
    255 < 256 ∧ 510 < 2044 / 4 ∧ 255 < 4096 / 16 ∧ 9 ≤ 9 % 16 ∧ State.reset.srcCap.toNat ≤ 64 ∧
      State.reset.dstCap.toNat ≤ 64 ∧ State.reset.payCap.toNat ≤ 64 := by decide

/-- The last FREQ entry, the last record of a tree, the last codebook entry (not valid) and word; the last byte of DST, of
PAY and of SRC. -/
theorem witness_TableWindowsShowTheTables :
    (∃ s : State, accepting s = true ∧ s.status.treeValid = true ∧ s.status.codeValid = true ∧ 2 < s.nnode.toNat ∧
      2 < 511 ∧ 255 < 256 ∧ 31 < 32 ∧ 1 ≤ 8 ∧ 8 ≤ 8 ∧ entryAt s.code 255 = { valid := false, bits := [] }) ∧
    (∃ s : State, accepting s = true ∧ 63 < s.dstLen.toNat ∧ 63 < s.dstCap.toNat ∧ s.status.payValid = true ∧
      63 < s.payLen.toNat ∧ 63 < s.payCap.toNat) ∧
    ∃ s : State, s.status.busy = false ∧ s.status.err = true ∧ 63 < s.srcLen.toNat ∧ 63 < s.srcCap.toNat :=
  ⟨⟨{ treeAB with code := codeAB, status := { treeAB.status with codeValid := true } }, rfl, rfl, rfl, by decide,
      by decide, by decide, by decide, by decide, by decide, by decide +kernel⟩,
    ⟨{ State.reset with dstLen := 64#32, payLen := 64#32, status := { Status.reset with payValid := true } }, rfl,
      by decide, by decide, rfl, by decide, by decide⟩,
    { faulted with srcLen := 64#32 }, rfl, rfl, by decide, by decide⟩

theorem witness_NopChangesNothing : ∃ s : State, s.status.busy = false := ⟨faulted, rfl⟩

theorem witness_SrstResetsAllButByteMemories : ∃ s : State, s.status.busy = false ∧ s.status.err = true :=
  ⟨faulted, rfl, rfl⟩

/-- R285 of a word that does not decode: DST and PAY are lost all the same. -/
theorem test_reset_during_undecodable_word :
    let t := nextOf (step (about (.resetDuring 0x02000000#32) (payload codeAB 2#9 8#32 [0x55#8])))
    t.pay = Memory.forgotten 0 ∧ t.dst = Memory.forgotten 0 ∧ statusWord t.status = 0#32 := by decide +kernel

/-- The clauses: idle; a word the block takes, and one it drops; in the middle of a command. -/
theorem witness_HardwareResetDoesWhatSrstDoes :
    (∃ s : State, s.status.busy = false ∧ s.script[s.index]? = some .reset) ∧
      (∃ (s : State) (w : Word), s.status.busy = false ∧ s.script[s.index]? = some (.resetDuring w) ∧
        s.status.err = false) ∧
      (∃ (s : State) (w : Word), s.status.busy = false ∧ s.script[s.index]? = some (.resetDuring w) ∧
        s.status.err = true) ∧
      ∃ s : State, s.status.busy = true ∧ s.script[s.index]? = some .reset :=
  ⟨⟨about .reset faulted, rfl, rfl⟩, ⟨about (.resetDuring 0x02000000#32) State.reset, 0x02000000#32, rfl, rfl, rfl⟩,
    ⟨about (.resetDuring 0x40000000#32) faulted, 0x40000000#32, rfl, rfl, rfl⟩,
    about .reset running, rfl, rfl⟩

/-- The reset state lacks every prerequisite, and BUILD, which has none, faults there. -/
theorem witness_MissingPrerequisiteRaisesBadSequence :
    ∃ s : State, accepting s = true ∧ s.status.treeValid = false ∧ s.status.codeValid = false ∧
      s.status.pkOpen = false ∧ s.status.payValid = false ∧ s.status.upOpen = false ∧ WellFormed (.pkput 1#6) ∧
      WellFormed (.upget 32#6) ∧ ∃ t, exec .build s = .next t ∧ t.status.err = true :=
  ⟨State.reset, rfl, rfl, rfl, rfl, rfl, rfl, by decide, by decide, _, eq_nextOf (by decide +kernel),
    by decide +kernel⟩

theorem witness_EachCommandRaisesOnlyItsFaults :
    ∃ (w : Word) (s t : State), accepting s = true ∧ presentWord w s = .next t ∧ t.status.err = true :=
  ⟨0x12000000#32, State.reset, _, rfl, eq_nextOf (by decide +kernel), by decide +kernel⟩

theorem witness_FaultKeepsSourceAndLatchesRecord :
    ∃ (i : Instr) (s t : State), accepting s = true ∧ exec i s = .next t ∧ t.status.err = true :=
  ⟨.deser, loaded [0xFF#8], _, rfl, eq_nextOf (by decide +kernel), by decide +kernel⟩

/-- SRC_LEN = SRC_CAP, and one more. -/
theorem witness_CountWritesTheHistogram :
    (∃ s : State, accepting s = true ∧ s.srcLen.toNat ≤ s.srcCap.toNat ∧ s.srcLen = 64#32) ∧
      ∃ s : State, accepting s = true ∧ s.srcCap.toNat < s.srcLen.toNat :=
  ⟨⟨{ State.reset with srcLen := 64#32 }, rfl, by decide, rfl⟩, { State.reset with srcLen := 65#32 }, rfl, by decide⟩

theorem freq_reset_zero (x : Nat) (h : x < 256) : entryAt State.reset.freq x = 0#32 := entryAt_replicate 256 _ x h

/-- The last symbol alone, and no symbol. -/
theorem witness_BuildMakesTheGreedyTree :
    (∃ s : State, accepting s = true ∧ ∃ x, x < 256 ∧ entryAt s.freq x ≠ 0#32) ∧
      ∃ s : State, accepting s = true ∧ ∀ x, x < 256 → entryAt s.freq x = 0#32 :=
  ⟨⟨{ State.reset with freq := freqOf [(255, 1#32)] }, rfl, 255, by decide, by decide +kernel⟩, State.reset, rfl,
    freq_reset_zero⟩

theorem witness_BuildDependsOnFreqAlone :
    ∃ s₁ s₂ t₁ : State, accepting s₁ = true ∧ accepting s₂ = true ∧ s₁.freq = s₂.freq ∧
      exec .build s₁ = .next t₁ ∧ t₁.status.err = false :=
  ⟨treeAB, { State.reset with freq := treeAB.freq }, _, rfl, rfl, rfl, eq_nextOf (by decide +kernel),
    by decide +kernel⟩

theorem treeAB_freq (x : Nat) (h : x < 256) :
    entryAt treeAB.freq x = if x = 0x42 then 4#32 else if x = 0x41 then 4#32 else 0#32 := by
  show entryAt (putEntry (putEntry zeroFreq 0x41 4#32) 0x42 4#32) x = _
  rw [entryAt_putEntry _ _ _ _ (by decide), entryAt_putEntry _ _ _ _ (by decide), zeroFreq_entry x h]

/-- `treeAB` is a tree made from its counts. -/
theorem treeAB_ok : TreeOk treeAB where
  some_leaf := by decide
  few_leaves := by decide
  size := by decide
  root := by decide
  leaves := by decide +kernel
  counts := by decide +kernel
  ascending := by
    intro j k hjk hk
    have hk' : k < 2 := hk
    obtain ⟨rfl, rfl⟩ : j = 0 ∧ k = 1 := by omega
    decide +kernel
  complete := by
    intro x hx h0
    rw [treeAB_freq x hx] at h0
    by_cases h1 : x = 0x42
    · exact ⟨1, by decide, h1 ▸ by decide +kernel⟩
    · by_cases h2 : x = 0x41
      · exact ⟨0, by decide, h2 ▸ by decide +kernel⟩
      · simp [h1, h2] at h0
  internal := by
    intro k h1 h2
    have h1' : 2 ≤ k := h1
    have h2' : k < 3 := h2
    obtain rfl : k = 2 := by omega
    decide +kernel
  parent := by
    intro c hc
    have hc' : c < 2 := hc
    refine ⟨2, by decide, by decide, ?_⟩
    interval_cases c <;> decide +kernel
  one_parent := by
    intro c p q hp hq
    have h1 : 2 ≤ p := hp.1
    have h2 : p < 3 := hp.2.1
    have h3 : 2 ≤ q := hq.1
    have h4 : q < 3 := hq.2.1
    omega

/-- The one internal record of `treeAB` joins its two leaves. -/
theorem treeAB_greedy : GreedyTree treeAB := by
  intro k h1 h2
  have h1' : 2 ≤ k := h1
  have h2' : k < 3 := h2
  obtain rfl : k = 2 := by omega
  have alone : ∀ c p, ¬ParentOf treeAB.node treeAB.nsym.toNat 2 p c := by
    intro c p hp
    have h3 : 2 ≤ p := hp.1
    have h4 : p < 2 := hp.2.1
    omega
  refine ⟨⟨by decide +kernel, alone _⟩, ⟨by decide +kernel, alone _⟩, ?_, ?_⟩
  · exact Or.inr (by decide +kernel)
  · intro j hj hl hr
    have hj' : j < 2 := hj.1
    have hl' : j ≠ 0 := fun h => hl (h ▸ by decide +kernel)
    have hr' : j ≠ 1 := fun h => hr (h ▸ by decide +kernel)
    omega

theorem treeZ_ok : TreeOk treeZ where
  some_leaf := by decide
  few_leaves := by decide
  size := by decide
  root := by decide
  leaves := by decide +kernel
  counts := by decide +kernel
  ascending := by
    intro j k hjk hk
    have hk' : k < 1 := hk
    omega
  complete := by
    intro x hx h0
    refine ⟨0, by decide, ?_⟩
    by_contra h1
    have h2 : x ≠ 0x5A := fun h => h1 (h ▸ by decide +kernel)
    have h3 : entryAt treeZ.freq x = entryAt zeroFreq x := entryAt_putEntry_other _ _ _ _ h2
    exact h0 (h3.trans (zeroFreq_entry x hx))
  internal := by
    intro k h1 h2
    have h1' : 1 ≤ k := h1
    have h2' : k < 1 := h2
    omega
  parent := by
    intro c hc
    have hc' : c < 0 := hc
    omega
  one_parent := by
    intro c p q hp hq
    have h1 : 1 ≤ p := hp.1
    have h2 : p < 1 := hp.2.1
    omega

theorem witness_WalkGivesEachLeafItsPath :
    (∃ s : State, Ready .walk s ∧ TreeOk s ∧ s.nsym.toNat = 2) ∧ ∃ s : State, Ready .walk s ∧ TreeOk s ∧ s.nsym.toNat = 1 :=
  ⟨⟨treeAB, ⟨rfl, rfl⟩, treeAB_ok, by decide⟩, treeZ, ⟨rfl, rfl⟩, treeZ_ok, by decide⟩

theorem witness_WalkedCodebookIsPrefixFreeAndFull :
    (∃ s t : State, Ready .walk s ∧ TreeOk s ∧ exec .walk s = .next t ∧ 2 ≤ s.nsym.toNat) ∧
      ∃ s t : State, Ready .walk s ∧ TreeOk s ∧ exec .walk s = .next t ∧ s.nsym.toNat = 1 :=
  ⟨⟨treeAB, _, ⟨rfl, rfl⟩, treeAB_ok, eq_nextOf (by decide +kernel), by decide⟩,
    treeZ, _, ⟨rfl, rfl⟩, treeZ_ok, eq_nextOf (by decide +kernel), by decide⟩

theorem witness_OneSymbolGetsTheCodeZero :
    ∃ (s : State) (z : Byte), accepting s = true ∧ entryAt s.freq z.toNat ≠ 0#32 ∧
      ∀ x, x < 256 → x ≠ z.toNat → entryAt s.freq x = 0#32 :=
  ⟨{ State.reset with freq := putEntry zeroFreq 0x5A 5#32 }, 0x5A#8, rfl, by decide +kernel, fun x hx hz => by
    show entryAt (putEntry zeroFreq (0x5A#8).toNat 5#32) x = _
    rw [entryAt_putEntry_other _ _ _ _ hz, zeroFreq_entry x hx]⟩

theorem witness_PkinitOpensAnEmptySession : ∃ s : State, accepting s = true := ⟨State.reset, rfl⟩

/-- What `packing` holds: nine bits "101111111" (K1). -/
theorem packing_packed (d : Word) :
    Packed (packing 9#32 0x80#8 [0xBF#8] d) [true, false, true, true, true, true, true, true, true] where
  length := rfl
  bytes := by
    intro i hi
    obtain rfl : i = 0 := by
      simp only [List.length_cons, List.length_nil] at hi
      omega
    show readByte .pay (writeBytes Memory.powerOn 0 [0xBF#8]) 0 = _
    decide +kernel
  rest := by
    show (0x80#8 : Byte) = _
    decide +kernel

theorem witness_PkputAppendsItsOperand :
    ∃ (s : State) (n : BitVec 6) (b : Bits), WellFormed (.pkput n) ∧ Ready (.pkput n) s ∧ Packed s b ∧
      b.length + n.toNat ≤ 2 ^ 32 - 1 ∧ ceil8 (b.length + n.toNat) ≤ s.payCap.toNat :=
  ⟨packing 9#32 0x80#8 [0xBF#8] 5#32, 32#6, _, by decide, ⟨rfl, rfl⟩, packing_packed 5#32, by decide, by decide⟩

/-- K8: one bit too many for L_MAX; and one bit too many for a PAY of 64 bytes. -/
theorem witness_PkputBeyondItsLimitsFaults :
    (∃ (s : State) (n : BitVec 6), WellFormed (.pkput n) ∧ Ready (.pkput n) s ∧
      2 ^ 32 - 1 < s.bitLen.toNat + n.toNat) ∧
      ∃ (s : State) (n : BitVec 6), WellFormed (.pkput n) ∧ Ready (.pkput n) s ∧
        s.bitLen.toNat + n.toNat ≤ 2 ^ 32 - 1 ∧ s.payCap.toNat < ceil8 (s.bitLen.toNat + n.toNat) :=
  ⟨⟨packing 0xFFFFFFFE#32 0#8 [] 0#32, 2#6, by decide, ⟨rfl, rfl⟩, by decide⟩,
    packing 512#32 0#8 [] 0#32, 1#6, by decide, ⟨rfl, rfl⟩, by decide, by decide⟩

theorem witness_PkflushLeavesThePaddedPayload : ∃ (s : State) (b : Bits), Ready .pkflush s ∧ Packed s b :=
  ⟨packing 9#32 0x80#8 [0xBF#8] 0#32, _, ⟨rfl, rfl⟩, packing_packed 0#32⟩

/-- BITLEN = 8 and BITLEN = 9 with one byte. -/
theorem witness_UpinitOpensAtBitZero :
    (∃ s : State, Ready .upinit s ∧ (s.bitLen.toNat + 7) / 8 ≤ s.payLen.toNat) ∧
      ∃ s : State, Ready .upinit s ∧ s.payLen.toNat < (s.bitLen.toNat + 7) / 8 :=
  ⟨⟨payload codeAB 2#9 8#32 [0x55#8], ⟨rfl, rfl⟩, by decide⟩, payload codeAB 2#9 9#32 [0x55#8], ⟨rfl, rfl⟩, by decide⟩

/-- Nine bits left, and one bit more than nine. -/
theorem witness_UpgetReturnsTheNextBits :
    ∃ s : State, WellFormed (.upget 9#6) ∧ Ready (.upget 9#6) s ∧ s.upPos.toNat + 9 ≤ s.bitLen.toNat ∧
      WellFormed (.upget 10#6) ∧ Ready (.upget 10#6) s ∧ s.bitLen.toNat < s.upPos.toNat + 10 :=
  ⟨{ payload emptyCode 0#9 9#32 [0xBF#8, 0x80#8] with
      status := { Status.reset with payValid := true, upOpen := true } },
    by decide, ⟨rfl, rfl⟩, by decide, by decide, ⟨rfl, rfl⟩, by decide⟩

theorem witness_PutThenGetReturnsTheValue :
    ∃ (s : State) (n : BitVec 6), accepting s = true ∧ WellFormed (.pkput n) ∧ ceil8 n.toNat ≤ s.payCap.toNat :=
  ⟨State.reset, 32#6, rfl, by decide, by decide⟩

theorem witness_EncodePacksTheConcatenatedCodes :
    ∃ s : State, Ready .encode s ∧ s.srcLen.toNat ≤ s.srcCap.toNat ∧ Covers s.code (srcBytes s) ∧
      (encodeAll s.code (srcBytes s)).length ≤ 2 ^ 32 - 1 ∧
      ceil8 (encodeAll s.code (srcBytes s)).length ≤ s.payCap.toNat :=
  ⟨{ loaded abracadabra with code := codeT1, status := { Status.reset with codeValid := true } }, ⟨rfl, rfl⟩,
    by decide +kernel, by simp only [Covers]; decide +kernel, by decide +kernel, by decide +kernel⟩

/-- A code of n bits, more than L_MAX. -/
theorem long_code (n : Nat) (hn : 2 ^ 32 ≤ n) :
    ∃ s : State, Ready .encode s ∧ s.srcLen.toNat ≤ s.srcCap.toNat ∧ srcBytes s = [] ++ 0x42#8 :: [] ∧
      Covers s.code [] ∧ (encodeAll s.code []).length ≤ 2 ^ 32 - 1 ∧
      ceil8 (encodeAll s.code []).length ≤ s.payCap.toNat ∧ (entryAt s.code 0x42).valid = true ∧
      2 ^ 32 - 1 < (encodeAll s.code []).length + (entryAt s.code 0x42).bits.length := by
  refine ⟨{ loaded [0x42#8] with
      code := putEntry emptyCode 0x42 { valid := true, bits := List.replicate n true }
      status := { Status.reset with codeValid := true } },
    ⟨rfl, rfl⟩, ?_, srcBytes_loaded [0x42#8] (by decide), by simp [Covers], by simp [encodeAll],
    by simp [encodeAll, ceil8], ?_, ?_⟩
  · show (loaded [0x42#8]).srcLen.toNat ≤ (loaded [0x42#8]).srcCap.toNat
    decide
  · show (entryAt (putEntry emptyCode 0x42 _) 0x42).valid = true
    rw [entryAt_putEntry_same _ _ _ (by decide)]
  · show 2 ^ 32 - 1 < _ + (entryAt (putEntry emptyCode 0x42 _) 0x42).bits.length
    rw [entryAt_putEntry_same _ _ _ (by decide), List.length_replicate]
    omega

/-- SRC_LEN = SRC_CAP + 1; a byte without a code; a code too long for a PAY of one byte; a code longer than L_MAX. -/
theorem witness_EncodeFaultsAtTheFirstBadByte :
    (∃ s : State, Ready .encode s ∧ s.srcCap.toNat < s.srcLen.toNat) ∧
    (∃ s : State, Ready .encode s ∧ s.srcLen.toNat ≤ s.srcCap.toNat ∧ srcBytes s = [0x41#8] ++ 0x43#8 :: [0x42#8] ∧
      Covers s.code [0x41#8] ∧ (encodeAll s.code [0x41#8]).length ≤ 2 ^ 32 - 1 ∧
      ceil8 (encodeAll s.code [0x41#8]).length ≤ s.payCap.toNat ∧ (entryAt s.code 0x43).valid = false) ∧
    (∃ s : State, Ready .encode s ∧ s.srcLen.toNat ≤ s.srcCap.toNat ∧ srcBytes s = [0x41#8] ++ 0x42#8 :: [] ∧
      Covers s.code [0x41#8] ∧ (encodeAll s.code [0x41#8]).length ≤ 2 ^ 32 - 1 ∧
      ceil8 (encodeAll s.code [0x41#8]).length ≤ s.payCap.toNat ∧ (entryAt s.code 0x42).valid = true ∧
      s.payCap.toNat < ceil8 ((encodeAll s.code [0x41#8]).length + (entryAt s.code 0x42).bits.length)) ∧
    ∃ s : State, Ready .encode s ∧ s.srcLen.toNat ≤ s.srcCap.toNat ∧ srcBytes s = [] ++ 0x42#8 :: [] ∧
      Covers s.code [] ∧ (encodeAll s.code []).length ≤ 2 ^ 32 - 1 ∧
      ceil8 (encodeAll s.code []).length ≤ s.payCap.toNat ∧ (entryAt s.code 0x42).valid = true ∧
      2 ^ 32 - 1 < (encodeAll s.code []).length + (entryAt s.code 0x42).bits.length := by
  refine ⟨⟨{ coded codeAB 2#9 with srcLen := 65#32 }, ⟨rfl, rfl⟩, by decide⟩,
    ⟨{ loaded [0x41#8, 0x43#8, 0x42#8] with code := codeAB, status := { Status.reset with codeValid := true } },
      ⟨rfl, rfl⟩, by decide +kernel, by decide +kernel, by simp only [Covers]; decide +kernel, by decide +kernel,
      by decide +kernel, by decide +kernel⟩,
    ⟨{ loaded [0x41#8, 0x42#8] with
        code := codeOf [(0x41, [false]), (0x42, List.replicate 8 true)], payCap := 1#32
        status := { Status.reset with codeValid := true } },
      ⟨rfl, rfl⟩, by decide +kernel, by decide +kernel, by simp only [Covers]; decide +kernel, by decide +kernel,
      by decide +kernel, by decide +kernel, by decide +kernel⟩,
    long_code (2 ^ 32) (Nat.le_refl _)⟩

/-- Every entry of `codeAB`. -/
theorem codeAB_entry (x : Nat) (h : x < 256) :
    entryAt codeAB x =
      if x = 0x42 then { valid := true, bits := [true] }
      else if x = 0x41 then { valid := true, bits := [false] } else { valid := false, bits := [] } := by
  show entryAt (putEntry (putEntry emptyCode 0x41 _) 0x42 _) x = _
  rw [entryAt_putEntry _ _ _ _ (by decide), entryAt_putEntry _ _ _ _ (by decide), emptyCode_entry x h]
  rfl

theorem codeAB_ok : CodeOk codeAB where
  lengths := by
    intro x hx hv
    rw [codeAB_entry x hx] at hv ⊢
    split_ifs at hv ⊢
    all_goals simp_all
  empties := by
    intro x hx hv
    rw [codeAB_entry x hx] at hv ⊢
    split_ifs at hv ⊢
    all_goals simp_all
  prefix_free := by
    intro x y hx hy hxy hv hw
    rw [codeAB_entry x hx] at hv ⊢
    rw [codeAB_entry y hy] at hw ⊢
    split_ifs at hv hw ⊢
    all_goals simp_all

theorem witness_DecodeInvertsEncoding :
    ∃ (s : State) (out : List Byte), Ready .decode s ∧ CodeOk s.code ∧ Covers s.code out ∧
      ceil8 s.bitLen.toNat ≤ s.payLen.toNat ∧
      bitsRead .pay s.pay 0 0 s.bitLen.toNat = encodeAll s.code out ∧ out.length ≤ s.dstCap.toNat :=
  ⟨payload codeAB 2#9 2#32 [0x40#8], [0x41#8, 0x42#8], ⟨rfl, rfl⟩, codeAB_ok, by simp only [Covers]; decide +kernel,
    by decide +kernel, by decide +kernel, by decide +kernel⟩

/-- The codebook with the single code "0". -/
def codeZ : CodeTable := codeOf [(0x5A, [false])]

theorem codeZ_entry (x : Nat) (h : x < 256) :
    entryAt codeZ x = if x = 0x5A then { valid := true, bits := [false] } else { valid := false, bits := [] } := by
  show entryAt (putEntry emptyCode 0x5A _) x = _
  rw [entryAt_putEntry _ _ _ _ (by decide), emptyCode_entry x h]
  rfl

theorem codeZ_ok : CodeOk codeZ where
  lengths := by
    intro x hx hv
    rw [codeZ_entry x hx] at hv ⊢
    split_ifs at hv ⊢
    all_goals simp_all
  empties := by
    intro x hx hv
    rw [codeZ_entry x hx] at hv ⊢
    split_ifs at hv ⊢
    all_goals simp_all
  prefix_free := by
    intro x y hx hy hxy hv hw
    rw [codeZ_entry x hx] at hv ⊢
    rw [codeZ_entry y hy] at hw ⊢
    split_ifs at hv hw ⊢
    all_goals simp_all

/-- A payload too short; two symbols for a DST of one byte; one bit "1" left after a symbol. -/
theorem witness_DecodeFaultsInOrder :
    (∃ s : State, Ready .decode s ∧ CodeOk s.code ∧ s.payLen.toNat < ceil8 s.bitLen.toNat) ∧
    (∃ (s : State) (out : List Byte) (left : Bits), Ready .decode s ∧ CodeOk s.code ∧
      ceil8 s.bitLen.toNat ≤ s.payLen.toNat ∧ Covers s.code out ∧
      bitsRead .pay s.pay 0 0 s.bitLen.toNat = encodeAll s.code out ++ left ∧ s.dstCap.toNat < out.length) ∧
    ∃ (s : State) (out : List Byte) (left : Bits), Ready .decode s ∧ CodeOk s.code ∧
      ceil8 s.bitLen.toNat ≤ s.payLen.toNat ∧ Covers s.code out ∧
      bitsRead .pay s.pay 0 0 s.bitLen.toNat = encodeAll s.code out ++ left ∧ out.length ≤ s.dstCap.toNat ∧
      left ≠ [] ∧ ∀ x, x < 256 → (entryAt s.code x).valid = true → ¬(entryAt s.code x).bits <+: left := by
  refine ⟨⟨payload codeAB 2#9 9#32 [0x55#8], ⟨rfl, rfl⟩, codeAB_ok, by decide +kernel⟩,
    ⟨{ payload codeZ 1#9 2#32 [0x00#8] with dstCap := 1#32 }, [0x5A#8, 0x5A#8], [], ⟨rfl, rfl⟩, codeZ_ok,
      by decide +kernel, by simp only [Covers]; decide +kernel, by decide +kernel, by decide +kernel⟩,
    ⟨payload codeZ 1#9 2#32 [0x40#8], [0x5A#8], [true], ⟨rfl, rfl⟩, codeZ_ok, by decide +kernel,
      by simp only [Covers]; decide +kernel, by decide +kernel, by decide +kernel, by decide, ?_⟩⟩
  intro x hx hv
  have hv' : (entryAt codeZ x).valid = true := hv
  show ¬(entryAt codeZ x).bits <+: [true]
  rw [codeZ_entry x hx] at hv' ⊢
  split_ifs at hv' ⊢
  all_goals simp_all

/-- The container R123 lays out is the one the statements speak of. -/
theorem containerAB_eq : containerBytes (tableBytes codeAB 2) 8 [0x55#8] = containerAB := by decide +kernel

theorem numValid_codeAB : numValid codeAB = 2 := by decide +kernel

/-- A DST of exactly the container's 18 bytes, and one byte less. -/
theorem witness_SerWritesTheContainer :
    (∃ s : State, Ready .ser s ∧
      (containerBytes (tableBytes s.code s.ncode.toNat) s.bitLen.toNat (payBytes s)).length ≤ s.dstCap.toNat) ∧
      ∃ s : State, Ready .ser s ∧
        s.dstCap.toNat < (containerBytes (tableBytes s.code s.ncode.toNat) s.bitLen.toNat (payBytes s)).length :=
  ⟨⟨{ payload codeAB 2#9 8#32 [0x55#8] with dstCap := 18#32 }, ⟨rfl, rfl⟩,
      Nat.le_of_eq (congrArg List.length containerAB_eq)⟩,
    { payload codeAB 2#9 8#32 [0x55#8] with dstCap := 17#32 }, ⟨rfl, rfl⟩,
    Nat.le_of_eq (congrArg List.length containerAB_eq).symm⟩

theorem witness_DeserRestoresWhatAContainerHolds :
    ∃ (s : State) (code : CodeTable) (bitLen : Nat) (payload : List Byte), accepting s = true ∧
      s.srcLen.toNat ≤ s.srcCap.toNat ∧ CodeOk code ∧ bitLen < 2 ^ 32 ∧
      srcBytes s = containerBytes (tableBytes code (numValid code)) bitLen payload ∧
      payload.length ≤ s.payCap.toNat :=
  ⟨loaded containerAB, codeAB, 8, [0x55#8], rfl, by decide, codeAB_ok, by decide,
    numValid_codeAB.symm ▸ (srcBytes_loaded containerAB (by decide)).trans containerAB_eq.symm, by decide⟩

theorem witness_SerAfterDeserReproducesTheContainer :
    ∃ s t : State, accepting s = true ∧ exec .deser s = .next t ∧ t.status.err = false ∧
      s.srcLen.toNat ≤ s.dstCap.toNat :=
  ⟨loaded containerAB, _, rfl, eq_nextOf (by decide +kernel), by decide +kernel, by decide⟩

/-- The premise `ParsedSoFar`, as a check. -/
def parsedSoFar (s : State) (recs : List (Byte × Bits)) : Bool :=
  decide (s.srcLen.toNat ≤ s.srcCap.toNat) && decide (4 + memRead .src s.src 0 4 ≤ s.srcLen.toNat) &&
    decide (3 ≤ memRead .src s.src 0 4) && decide (readByte .src s.src 4 = 0x01#8) &&
    decide (memRead .src s.src 5 2 ≤ 256) &&
    decide (readBytes .src s.src 7 (recordBytes recs).length = recordBytes recs) &&
    decide (7 + (recordBytes recs).length ≤ 4 + memRead .src s.src 0 4) &&
    decide (recs.Pairwise fun r q => r.1.toNat < q.1.toNat) &&
    recs.all fun r => decide (1 ≤ r.2.length ∧ r.2.length ≤ 255)

theorem parsed_of_check {s : State} {recs : List (Byte × Bits)} (h : parsedSoFar s recs = true) :
    ParsedSoFar s recs := by
  simp only [parsedSoFar, Bool.and_eq_true, decide_eq_true_eq, List.all_eq_true] at h
  obtain ⟨⟨⟨⟨⟨⟨⟨⟨h1, h2⟩, h3⟩, h4⟩, h5⟩, h6⟩, h7⟩, h8⟩, h9⟩ := h
  exact ⟨h1, h2, h3, h4, h5, h6, h7, h8, h9⟩

/-- The record of 0x41 with the code "0" (R123), and that of 0x42 with a code of its own. -/
def recA : Byte × Bits := (0x41#8, [false])
def recB (b : Bits) : Byte × Bits := (0x42#8, b)

/-- The tests at a record: one byte left for the header; a repeated symbol; CLEN = 0; the code bits one byte short; the
last pad bit set. The containers are those of R200's rows for sub-causes 6 to 9 or one byte away from them. -/
theorem witness_DeserRefusesMalformedRecords :
    let s6 := loaded [0#8, 0#8, 0#8, 7#8, 1#8, 0#8, 2#8, 0x41#8, 1#8, 0#8, 0x42#8]
    let s7 := loaded [0#8, 0#8, 0#8, 9#8, 1#8, 0#8, 2#8, 0x41#8, 1#8, 0#8, 0x41#8, 1#8, 0x80#8]
    let s8 := loaded [0#8, 0#8, 0#8, 9#8, 1#8, 0#8, 2#8, 0x41#8, 0#8, 0#8, 0x42#8, 1#8, 0x80#8]
    let s6' := loaded [0#8, 0#8, 0#8, 8#8, 1#8, 0#8, 2#8, 0x41#8, 1#8, 0#8, 0x42#8, 1#8]
    let s9 := loaded [0#8, 0#8, 0#8, 9#8, 1#8, 0#8, 2#8, 0x41#8, 1#8, 0#8, 0x42#8, 1#8, 0x81#8]
    (∀ s ∈ [s6, s7, s6', s9], accepting s = true ∧ ParsedSoFar s [recA] ∧ [recA].length < memRead .src s.src 5 2) ∧
      (accepting s8 = true ∧ ParsedSoFar s8 [] ∧ 0 < memRead .src s8.src 5 2) ∧
      (recordBytes [recA]).length = 3 ∧
      4 + memRead .src s6.src 0 4 < 10 + 2 ∧
      (10 + 2 ≤ 4 + memRead .src s7.src 0 4 ∧ (readByte .src s7.src 10).toNat ≤ recA.1.toNat) ∧
      (7 + 2 ≤ 4 + memRead .src s8.src 0 4 ∧ (readByte .src s8.src 8).toNat = 0) ∧
      (10 + 2 ≤ 4 + memRead .src s6'.src 0 4 ∧ recA.1.toNat < (readByte .src s6'.src 10).toNat ∧
        (readByte .src s6'.src 11).toNat = 1 ∧ 4 + memRead .src s6'.src 0 4 < 10 + 2 + (1 + 7) / 8) ∧
      10 + 2 + (1 + 7) / 8 ≤ 4 + memRead .src s9.src 0 4 ∧ recA.1.toNat < (readByte .src s9.src 10).toNat ∧
      (readByte .src s9.src 11).toNat = 1 ∧ bitRead .src s9.src 12 7 = true := by
  refine ⟨?_, ⟨rfl, parsed_of_check (by decide +kernel), by decide +kernel⟩, by decide +kernel, by decide +kernel,
    by decide +kernel, by decide +kernel, by decide +kernel, by decide +kernel, by decide +kernel, by decide +kernel,
    by decide +kernel⟩
  simp only [List.mem_cons, List.not_mem_nil, or_false, forall_eq_or_imp, forall_eq]
  refine ⟨⟨rfl, parsed_of_check ?_, ?_⟩, ⟨rfl, parsed_of_check ?_, ?_⟩, ⟨rfl, parsed_of_check ?_, ?_⟩,
    rfl, parsed_of_check ?_, ?_⟩ <;> decide +kernel

/-- The tests after the records: one byte left over in the table; the codes "0" and "00"; three bytes after the table; a
payload one byte longer than PAY. -/
theorem witness_DeserRefusesMalformedTails :
    let s10 := loaded [0#8, 0#8, 0#8, 10#8, 1#8, 0#8, 2#8, 0x41#8, 1#8, 0#8, 0x42#8, 1#8, 0x80#8, 0#8]
    let s11 := loaded [0#8, 0#8, 0#8, 9#8, 1#8, 0#8, 2#8, 0x41#8, 1#8, 0#8, 0x42#8, 2#8, 0#8]
    let s12 := loaded [0#8, 0#8, 0#8, 9#8, 1#8, 0#8, 2#8, 0x41#8, 1#8, 0#8, 0x42#8, 1#8, 0x80#8, 0#8, 0#8, 8#8]
    let s2 : State := { loaded (containerAB ++ [0#8]) with payCap := 1#32 }
    let ab := [recA, recB [true]]
    let aa := [recA, recB [false, false]]
    (∀ s ∈ [s10, s12, s2], accepting s = true ∧ ParsedSoFar s ab ∧ ab.length = memRead .src s.src 5 2) ∧
      (accepting s11 = true ∧ ParsedSoFar s11 aa ∧ aa.length = memRead .src s11.src 5 2) ∧
      (recordBytes ab).length = 6 ∧ (recordBytes aa).length = 6 ∧ 7 + 6 < 4 + memRead .src s10.src 0 4 ∧
      (7 + 6 = 4 + memRead .src s11.src 0 4 ∧ ∃ r ∈ aa, ∃ q ∈ aa, r.1 ≠ q.1 ∧ r.2 <+: q.2) ∧
      (∀ r ∈ ab, ∀ q ∈ ab, r.1 ≠ q.1 → ¬r.2 <+: q.2) ∧
      (7 + 6 = 4 + memRead .src s12.src 0 4 ∧ s12.srcLen.toNat < 13 + 4) ∧
      7 + 6 = 4 + memRead .src s2.src 0 4 ∧ 13 + 4 ≤ s2.srcLen.toNat ∧
      s2.payCap.toNat < s2.srcLen.toNat - 13 - 4 := by
  refine ⟨?_, ⟨rfl, parsed_of_check (by decide +kernel), by decide +kernel⟩, by decide +kernel, by decide +kernel,
    by decide +kernel, ⟨by decide +kernel, recA, by simp, recB [false, false], by simp, by decide, by decide⟩,
    by decide, by decide +kernel, by decide +kernel, by decide, by decide⟩
  simp only [List.mem_cons, List.not_mem_nil, or_false, forall_eq_or_imp, forall_eq]
  refine ⟨⟨rfl, parsed_of_check ?_, ?_⟩, ⟨rfl, parsed_of_check ?_, ?_⟩, rfl, parsed_of_check ?_, ?_⟩ <;>
    decide +kernel

/-- R200's rows for sub-causes 1 to 5, and SRC_LEN = 65; the clauses on the records are met in
`witness_DeserRefusesMalformedRecords` and `witness_DeserRefusesMalformedTails`. -/
theorem witness_DeserRefusesMalformedPrefixes :
    (∃ s : State, accepting s = true ∧ s.srcCap.toNat < s.srcLen.toNat) ∧
    (∃ s : State, accepting s = true ∧ s.srcLen.toNat ≤ s.srcCap.toNat ∧ s.srcLen.toNat < 4) ∧
    (∃ s : State, accepting s = true ∧ s.srcLen.toNat ≤ s.srcCap.toNat ∧ 4 ≤ s.srcLen.toNat ∧
      s.srcLen.toNat < memRead .src s.src 0 4 + 4) ∧
    (∃ s : State, accepting s = true ∧ s.srcLen.toNat ≤ s.srcCap.toNat ∧
      memRead .src s.src 0 4 + 4 ≤ s.srcLen.toNat ∧ memRead .src s.src 0 4 < 3) ∧
    (∃ s : State, accepting s = true ∧ s.srcLen.toNat ≤ s.srcCap.toNat ∧
      memRead .src s.src 0 4 + 4 ≤ s.srcLen.toNat ∧ 3 ≤ memRead .src s.src 0 4 ∧ readByte .src s.src 4 ≠ 0x01#8) ∧
    ∃ s : State, accepting s = true ∧ s.srcLen.toNat ≤ s.srcCap.toNat ∧
      memRead .src s.src 0 4 + 4 ≤ s.srcLen.toNat ∧ 3 ≤ memRead .src s.src 0 4 ∧ readByte .src s.src 4 = 0x01#8 ∧
      256 < 256 * (readByte .src s.src 5).toNat + (readByte .src s.src 6).toNat :=
  ⟨⟨{ State.reset with srcLen := 65#32 }, rfl, by decide⟩,
    ⟨loaded [0#8, 0#8, 0#8], rfl, by decide, by decide⟩,
    ⟨loaded [0#8, 0#8, 0#8, 1#8], rfl, by decide, by decide, by decide +kernel⟩,
    ⟨loaded [0#8, 0#8, 0#8, 2#8, 1#8, 0#8], rfl, by decide, by decide +kernel, by decide +kernel⟩,
    ⟨loaded [0#8, 0#8, 0#8, 3#8, 2#8, 0#8, 0#8], rfl, by decide, by decide +kernel, by decide +kernel,
      by decide +kernel⟩,
    loaded [0#8, 0#8, 0#8, 3#8, 1#8, 1#8, 1#8], rfl, by decide, by decide +kernel, by decide +kernel, by decide +kernel,
    by decide +kernel⟩

/-- R200's row for sub-cause 11: the codes "0" and "00". -/
theorem witness_DeserRefusesTablesThatAreNotPrefixFree :
    ∃ (s : State) (code : CodeTable) (bitLen x y : Nat) (payload : List Byte), accepting s = true ∧
      s.srcLen.toNat ≤ s.srcCap.toNat ∧
      srcBytes s = containerBytes (tableBytes code (numValid code)) bitLen payload ∧
      (∀ z, z < 256 → (entryAt code z).valid = true →
        1 ≤ (entryAt code z).bits.length ∧ (entryAt code z).bits.length ≤ 255) ∧
      x < 256 ∧ y < 256 ∧ x ≠ y ∧ (entryAt code x).valid = true ∧ (entryAt code y).valid = true ∧
      (entryAt code x).bits <+: (entryAt code y).bits := by
  refine ⟨loaded (containerBytes (tableBytes (codeOf [(0x41, [false]), (0x42, [false, false])]) 2) 8 [0x55#8]),
    codeOf [(0x41, [false]), (0x42, [false, false])], 8, 0x41, 0x42, [0x55#8], rfl, by decide +kernel,
    by decide +kernel, ?_, by decide, by decide, by decide, by decide +kernel, by decide +kernel, by decide +kernel⟩
  intro z hz hv
  have he : entryAt (codeOf [(0x41, [false]), (0x42, [false, false])]) z =
      if z = 0x42 then { valid := true, bits := [false, false] }
      else if z = 0x41 then { valid := true, bits := [false] } else { valid := false, bits := [] } := by
    show entryAt (putEntry (putEntry emptyCode 0x41 _) 0x42 _) z = _
    rw [entryAt_putEntry _ _ _ _ (by decide), entryAt_putEntry _ _ _ _ (by decide), emptyCode_entry z hz]
    rfl
  rw [he] at hv ⊢
  split_ifs at hv ⊢
  all_goals simp_all

/-- The smallest DST the spec allows. -/
theorem witness_CompressOfEmptyInput :
    ∃ s : State, accepting s = true ∧ s.srcLen = 0#32 ∧ 11 ≤ s.dstCap.toNat :=
  ⟨{ State.reset with dstCap := 11#32 }, rfl, rfl, by decide⟩

/-- "AB" after each of the first four stages of R213. -/
def counted : State := nextOf (exec .count (loaded [0x41#8, 0x42#8]))
def built : State := nextOf (exec .build counted)
def walked : State := nextOf (exec .walk built)
def encoded : State := nextOf (exec .encode walked)

theorem witness_CompressIsItsFiveStages :
    ∃ s t₁ t₂ t₃ t₄ t₅ : State, accepting s = true ∧ s.srcLen ≠ 0#32 ∧ exec .count s = .next t₁ ∧
      exec .build t₁ = .next t₂ ∧ exec .walk t₂ = .next t₃ ∧ exec .encode t₃ = .next t₄ ∧ exec .ser t₄ = .next t₅ :=
  ⟨loaded [0x41#8, 0x42#8], counted, built, walked, encoded, nextOf (exec .ser encoded), rfl, by decide,
    eq_nextOf (by decide +kernel), eq_nextOf (by decide +kernel), eq_nextOf (by decide +kernel),
    eq_nextOf (by decide +kernel), eq_nextOf (by decide +kernel)⟩

theorem witness_DecompressIsItsTwoStages :
    ∃ s t₁ t₂ : State, accepting s = true ∧ exec .deser s = .next t₁ ∧ exec .decode t₁ = .next t₂ :=
  ⟨loaded containerAB, nextOf (exec .deser (loaded containerAB)), _, rfl, eq_nextOf (by decide +kernel),
    eq_nextOf (by decide +kernel)⟩

theorem witness_EverySequenceHasACodebook : ([] : List Byte).length < 2 ^ 32 ∧ [0x41#8].length < 2 ^ 32 := by decide

/-- "AABC", and the codebook its counts give (T3). -/
def textAABC : List Byte := [0x41#8, 0x41#8, 0x42#8, 0x43#8]
def codeAABC : CodeTable := codeOf [(0x41, [false]), (0x42, [true, false]), (0x43, [true, true])]

theorem huffmanCode_AABC : huffmanCode textAABC = some codeAABC := by decide +kernel

/-- C1: the table, the bits and the container of "AABC". -/
theorem container_AABC :
    containerBytes (tableBytes codeAABC (numValid codeAABC)) (encodeAll codeAABC textAABC).length
        (bytesOf (encodeAll codeAABC textAABC)) =
      [0x00#8, 0x00#8, 0x00#8, 0x0C#8, 0x01#8, 0x00#8, 0x03#8, 0x41#8, 0x01#8, 0x00#8, 0x42#8, 0x02#8, 0x80#8, 0x43#8,
        0x02#8, 0xC0#8, 0x00#8, 0x00#8, 0x00#8, 0x06#8, 0x2C#8] := by decide +kernel

theorem witness_CompressWritesTheHuffmanContainer :
    ∃ (s : State) (code : CodeTable), accepting s = true ∧ s.srcLen.toNat ≤ s.srcCap.toNat ∧
      huffmanCode (srcBytes s) = some code ∧ (encodeAll code (srcBytes s)).length ≤ 2 ^ 32 - 1 ∧
      ceil8 (encodeAll code (srcBytes s)).length ≤ s.payCap.toNat ∧
      (containerBytes (tableBytes code (numValid code)) (encodeAll code (srcBytes s)).length
        (bytesOf (encodeAll code (srcBytes s)))).length ≤ s.dstCap.toNat := by
  refine ⟨loaded textAABC, codeAABC, rfl, by decide, ?_⟩
  rw [srcBytes_loaded textAABC (by decide), container_AABC]
  exact ⟨huffmanCode_AABC, by decide +kernel, by decide +kernel, by decide⟩

theorem witness_DecompressRecoversTheSequence :
    ∃ (s : State) (code : CodeTable) (out : List Byte), accepting s = true ∧ s.srcLen.toNat ≤ s.srcCap.toNat ∧
      CodeOk code ∧ Covers code out ∧ (encodeAll code out).length ≤ 2 ^ 32 - 1 ∧
      ceil8 (encodeAll code out).length ≤ s.payCap.toNat ∧ out.length ≤ s.dstCap.toNat ∧
      srcBytes s = containerBytes (tableBytes code (numValid code)) (encodeAll code out).length
        (bytesOf (encodeAll code out)) :=
  ⟨loaded containerAB, codeAB, [0x41#8, 0x42#8, 0x41#8, 0x42#8, 0x41#8, 0x42#8, 0x41#8, 0x42#8], rfl, by decide,
    codeAB_ok, by simp only [Covers]; decide +kernel, by decide +kernel, by decide +kernel, by decide, by
      have h : encodeAll codeAB [0x41#8, 0x42#8, 0x41#8, 0x42#8, 0x41#8, 0x42#8, 0x41#8, 0x42#8] =
          [false, true, false, true, false, true, false, true] := by decide +kernel
      have hb : bytesOf [false, true, false, true, false, true, false, true] = [0x55#8] := by decide +kernel
      rw [h, hb, numValid_codeAB, srcBytes_loaded containerAB (by decide)]
      exact containerAB_eq.symm⟩

/-- The state after COMPRESS, and the host's copy of DST to SRC (MOVDS). -/
def compressed : State := nextOf (exec .compress (loaded textAABC))
def moved (t : State) (m : Memory) : State := { t with src := m, srcLen := t.dstLen }
theorem moved_eq (t : State) (m : Memory) : moved t m = { t with src := (moved t m).src, srcLen := t.dstLen } := rfl

theorem srcBytes_moved (t : State) : srcBytes (moved t (writeBytes Memory.powerOn 0 (dstBytes t))) = dstBytes t := by
  have h := readBytes_writeBytes .src (dstBytes t) Memory.powerOn 0
  rwa [dstBytes, readBytes_length] at h

/-- The hypotheses before COMPRESS, and a next input for DECOMPRESS. -/
theorem witness_CompressThenDecompressIsIdentity :
    ∃ (s : State) (code : CodeTable), accepting s = true ∧ s.srcLen.toNat ≤ s.srcCap.toNat ∧
      s.srcLen.toNat ≤ s.dstCap.toNat ∧ huffmanCode (srcBytes s) = some code ∧
      (encodeAll code (srcBytes s)).length ≤ 2 ^ 32 - 1 ∧
      ceil8 (encodeAll code (srcBytes s)).length ≤ s.payCap.toNat ∧
      (containerBytes (tableBytes code (numValid code)) (encodeAll code (srcBytes s)).length
        (bytesOf (encodeAll code (srcBytes s)))).length ≤ s.dstCap.toNat ∧
      (containerBytes (tableBytes code (numValid code)) (encodeAll code (srcBytes s)).length
        (bytesOf (encodeAll code (srcBytes s)))).length ≤ s.srcCap.toNat ∧
      ∃ t u : State, exec .compress s = .next t ∧ u = { t with src := u.src, srcLen := t.dstLen } ∧
        srcBytes u = dstBytes t := by
  refine ⟨loaded textAABC, codeAABC, rfl, by decide, by decide, ?_⟩
  rw [srcBytes_loaded textAABC (by decide), container_AABC]
  refine ⟨huffmanCode_AABC, by decide +kernel, by decide +kernel, by decide, by decide, compressed,
    moved compressed (writeBytes Memory.powerOn 0 (dstBytes compressed)), eq_nextOf (by decide +kernel), moved_eq _ _,
    srcBytes_moved _⟩

theorem witness_CompressOfOneRepeatedSymbol :
    ∃ (s : State) (z : Byte) (k : Nat), accepting s = true ∧ 1 ≤ k ∧ s.srcLen.toNat = k ∧ k ≤ s.srcCap.toNat ∧
      srcBytes s = List.replicate k z ∧ ceil8 k ≤ s.payCap.toNat ∧ 14 + ceil8 k ≤ s.dstCap.toNat :=
  ⟨loaded (List.replicate 5 0x5A#8), 0x5A#8, 5, rfl, by decide, by decide, by decide,
    srcBytes_loaded _ (by decide), by decide, by decide⟩

theorem witness_CompressDependsOnItsInputAlone :
    ∃ s₁ s₂ t₁ : State, accepting s₁ = true ∧ accepting s₂ = true ∧ s₁.srcLen = s₂.srcLen ∧
      srcBytes s₁ = srcBytes s₂ ∧ s₁.srcCap = s₂.srcCap ∧ s₁.dstCap = s₂.dstCap ∧ s₁.payCap = s₂.payCap ∧
      s₁ ≠ s₂ ∧ exec .compress s₁ = .next t₁ ∧ t₁.status.err = false :=
  ⟨loaded textAABC, { loaded textAABC with pkData := 1#32 }, _, rfl, rfl, rfl, rfl, rfl, rfl, rfl,
    fun h => absurd (congrArg State.pkData h) (by decide), eq_nextOf (by decide +kernel), by decide +kernel⟩

theorem witness_DecompressDependsOnItsInputAlone :
    ∃ s₁ s₂ t₁ : State, accepting s₁ = true ∧ accepting s₂ = true ∧ s₁.srcLen = s₂.srcLen ∧
      srcBytes s₁ = srcBytes s₂ ∧ s₁.srcCap = s₂.srcCap ∧ s₁.dstCap = s₂.dstCap ∧ s₁.payCap = s₂.payCap ∧
      s₁ ≠ s₂ ∧ exec .decompress s₁ = .next t₁ ∧ t₁.status.err = false :=
  ⟨loaded containerAB, { loaded containerAB with pkData := 1#32 }, _, rfl, rfl, rfl, rfl, rfl, rfl, rfl,
    fun h => absurd (congrArg State.pkData h) (by decide), eq_nextOf (by decide +kernel), by decide +kernel⟩

theorem witness_NoCommandWritesTheSource : ∃ (i : Instr) (s t : State), exec i s = .next t ∧ i ≠ .srst :=
  ⟨.decompress, loaded containerAB, _, eq_nextOf (by decide +kernel), by decide⟩

theorem witness_EachTableHasItsListedWriters :
    ∃ (i : Instr) (s t : State), exec i s = .next t ∧ t.status.err = false ∧ i ≠ .srst :=
  ⟨.ser, payload codeAB 2#9 8#32 [0x55#8], _, eq_nextOf (by decide +kernel), by decide +kernel, by decide⟩

theorem witness_FlagsFollowTheirSetAndClearEvents :
    ∃ (i : Instr) (s t : State), accepting s = true ∧ exec i s = .next t ∧ t.status.err = false ∧ i ≠ .srst :=
  ⟨.encode, { loaded abracadabra with code := codeT1, status := { Status.reset with codeValid := true } }, _, rfl,
    eq_nextOf (by decide +kernel), by decide +kernel, by decide⟩

theorem witness_NoCommandHangs :
    ∃ s : State, (s.status.err = false → s.status.treeValid = true → TreeOk s) ∧ s.status.treeValid = true ∧
      s.status.busy = false :=
  ⟨treeAB, fun _ _ => treeAB_ok, rfl, rfl⟩

theorem faulted_latch (op : HostOp) : LatchInv (about op faulted) :=
  ⟨rfl, ⟨fun _ => (by decide : (6#8 : Byte) ≠ 0#8), fun _ => rfl⟩, fun h => by cases h⟩

theorem witness_StepKeepsTheFaultLatch : ∃ s t : State, LatchInv s ∧ step s = .next t :=
  ⟨about (cmdWrite 0x01000000#32) faulted, _, faulted_latch _, eq_nextOf (by decide +kernel)⟩

theorem witness_StepKeepsMemoriesCanonical : ∃ s t : State, MemInv s ∧ CapsInv s ∧ step s = .next t :=
  ⟨about (.wr .src 63 0xFF#32) (loaded [0x41#8]), _, ⟨rfl, rfl, rfl⟩,
    ⟨by decide, by decide, by decide, by decide⟩, eq_nextOf (by decide +kernel)⟩

/-- An open pack session of nine bits. -/
theorem witness_StepKeepsSessionsAndBuffers : ∃ s t : State, BufferInv s ∧ step s = .next t :=
  ⟨about (cmdWrite 0x21000020#32) (packing 9#32 0x80#8 [0xBF#8] 5#32), _,
    ⟨rfl, rfl, rfl, fun _ => ⟨fun _ => ⟨rfl, rfl⟩, fun h => (by cases h), fun _ => ⟨⟨_,
      ⟨(packing_packed 5#32).length, (packing_packed 5#32).bytes, (packing_packed 5#32).rest⟩⟩, by decide⟩,
      fun h => (by cases h), by decide, by decide⟩⟩, eq_nextOf (by decide +kernel)⟩

theorem witness_StepKeepsTreeAndCodebook :
    ∃ s t : State, TreeInv s ∧ CodeInv s ∧ s.status.treeValid = true ∧ s.status.codeValid = true ∧ step s = .next t :=
  ⟨about (cmdWrite 0x12000000#32)
      { treeAB with code := codeAB, ncode := 2#9, status := { treeAB.status with codeValid := true } }, _,
    fun _ _ => ⟨⟨treeAB_ok.1, treeAB_ok.2, treeAB_ok.3, treeAB_ok.4, treeAB_ok.5, treeAB_ok.6, treeAB_ok.7, treeAB_ok.8,
      treeAB_ok.9, treeAB_ok.10, treeAB_ok.11⟩, treeAB_greedy⟩,
    fun _ _ => ⟨codeAB_ok, numValid_codeAB.symm⟩, rfl, rfl, eq_nextOf (by decide +kernel)⟩

end Sys2Proof.Tests
end

section
/-! SUPPORT. What the rule of each command has done when it ends, one lemma a rule; and what one step can do, said once,
so that every invariant is a case split on it. -/

namespace Sys2Proof.Machine

/-! ## The rules that end -/

theorem needSrcFits_ok {op : Byte} {s : State} {x : Unit} (h : needSrcFits op s = .ok x) :
    s.srcLen.toNat ≤ s.srcCap.toNat := by
  unfold needSrcFits raise at h
  split at h
  · assumption
  · cases h

/-- A command's rule runs only with a legal operand and its prerequisites (R101 steps 4 and 5, R247). -/
theorem runRule_ok {i : Instr} {body : State → Except Stop State} {s t : State} (h : runRule i body s = .ok t) :
    i.wf = true ∧ prerequisite i s.status = true ∧ body s = .ok t := by
  unfold runRule raise at h
  split at h
  · cases h
  next hw =>
    split at h
    · cases h
    next hp => exact ⟨by simpa using hw, by simpa using hp, h⟩

theorem countRule_ok {s t : State} (h : countRule s = .ok t) :
    s.srcLen.toNat ≤ s.srcCap.toNat ∧
      t = { s with freq := (srcBytes s).foldl countByte zeroFreq, status := s.status.clearTree } := by
  unfold countRule at h
  split at h
  · cases h
  next hfit => exact ⟨needSrcFits_ok hfit, (Except.ok.inj h).symm⟩

/-- What the merge loop of BUILD leaves when it starts from the leaves of FREQ (R148). -/
def builtTree (s : State) : Merge :=
  mergeLoop (makeLeaves s.freq s.node).1
    { node := (makeLeaves s.freq s.node).2, active := List.range (makeLeaves s.freq s.node).1
      next := (makeLeaves s.freq s.node).1 }

theorem buildRule_ok {s t : State} (h : buildRule s = .ok t) :
    (makeLeaves s.freq s.node).1 ≠ 0 ∧
      t = { s with
        node := (builtTree s).node
        nsym := BitVec.ofNat 9 (makeLeaves s.freq s.node).1
        nnode := BitVec.ofNat 10 (builtTree s).next
        root := BitVec.ofNat 9 ((builtTree s).active.headD 0)
        status := s.status.setTree } := by
  simp only [buildRule, raise] at h
  split at h
  · cases h
  next hleaf => exact ⟨hleaf, (Except.ok.inj h).symm⟩

theorem walkRule_ok {s t : State} (h : walkRule s = .ok t) :
    ∃ code, walkTree s.node s.root.toNat = some code ∧
      t = { s with code := code, ncode := s.nsym, status := s.status.walked } := by
  unfold walkRule at h
  split at h
  · cases h
  next code hwalk => exact ⟨code, hwalk, (Except.ok.inj h).symm⟩

theorem upInit_ok {op : Byte} {s t : State} (h : upInit op s = .ok t) :
    ceil8 s.bitLen.toNat ≤ s.payLen.toNat ∧ t = { s with upPos := 0#32 } := by
  unfold upInit raise at h
  split at h
  next hlen => exact ⟨hlen, (Except.ok.inj h).symm⟩
  · cases h

theorem upinitRule_ok {s t : State} (h : upinitRule s = .ok t) :
    ceil8 s.bitLen.toNat ≤ s.payLen.toNat ∧ t = { s with upPos := 0#32, status := s.status.unpackOpened } := by
  unfold upinitRule at h
  split at h
  · cases h
  next u hu =>
    obtain ⟨hlen, rfl⟩ := upInit_ok hu
    exact ⟨hlen, (Except.ok.inj h).symm⟩

theorem upgetRule_ok {n : BitVec 6} {s t : State} (h : upgetRule n s = .ok t) :
    s.upPos.toNat + n.toNat ≤ s.bitLen.toNat ∧
      t = { s with pkData := getResult (upBits n.toNat s), upPos := BitVec.ofNat 32 (s.upPos.toNat + n.toNat) } := by
  unfold upgetRule raise at h
  split at h
  next hlen => exact ⟨hlen, (Except.ok.inj h).symm⟩
  · cases h

@[simp] theorem pkBits_code (c : Bits) (s : State) : (c.foldl pkBit s).code = s.code := by rw [pkBits_frame]

@[simp] theorem pkBits_status (c : Bits) (s : State) : (c.foldl pkBit s).status = s.status := by rw [pkBits_frame]

/-- The loop of ENCODE pushes the codes of its bytes, one after another (R206). -/
theorem encodeLoop_ok {bs : List Byte} {i : Nat} {s t : State} (h : encodeLoop bs i s = .ok t) :
    Covers s.code bs ∧ t = (encodeAll s.code bs).foldl pkBit s := by
  induction bs generalizing i s with
  | nil => exact ⟨by simp [Covers], (Except.ok.inj h).symm⟩
  | cons b rest ih =>
    unfold encodeLoop raise at h
    split at h
    next hvalid =>
      split at h
      · cases h
      next u hu =>
        obtain ⟨_, _, rfl⟩ := pkPush_ok hu
        obtain ⟨hcov, rfl⟩ := ih h
        rw [pkBits_code] at hcov ⊢
        exact ⟨List.forall_mem_cons.2 ⟨hvalid, hcov⟩, by simp [encodeAll]⟩
    · cases h

/-- The state in which the loop of ENCODE starts (R206). -/
def encodeStart (s : State) : State := pkInit { s with status := s.status.payloadDropped }

@[simp] theorem encodeStart_status (s : State) : (encodeStart s).status = s.status.payloadDropped := rfl

theorem encodeRule_ok {s t : State} (h : encodeRule s = .ok t) :
    s.srcLen.toNat ≤ s.srcCap.toNat ∧ Covers s.code (srcBytes s) ∧
      t = { pkFlush ((encodeAll s.code (srcBytes s)).foldl pkBit (encodeStart s)) with
        status := s.status.payloadDropped.setPay } := by
  unfold encodeRule at h
  split at h
  · cases h
  next hfit =>
    split at h
    · cases h
    next u hu =>
      obtain ⟨hcov, rfl⟩ := encodeLoop_ok hu
      have hstatus := pkBits_status (encodeAll s.code (srcBytes s)) (encodeStart s)
      exact ⟨needSrcFits_ok hfit, hcov, by rw [← encodeStart_status s, ← hstatus]; exact (Except.ok.inj h).symm⟩

theorem decodeRule_ok {s t : State} (h : decodeRule s = .ok t) :
    ceil8 s.bitLen.toNat ≤ s.payLen.toNat ∧
      ∃ out, decodeLoop s.code s.dstCap.toNat (bitsRead .pay s.pay 0 0 s.bitLen.toNat) [] [] = .ok out ∧
        t = { s with
          dst := writeBytes s.dst 0 out, dstLen := BitVec.ofNat 32 out.length, upPos := s.bitLen
          status := s.status.unpackClosed } := by
  unfold decodeRule at h
  split at h
  · cases h
  next u hu =>
    obtain ⟨hlen, rfl⟩ := upInit_ok hu
    split at h
    · cases h
    next out hout => exact ⟨hlen, out, hout, (Except.ok.inj h).symm⟩

theorem serRule_ok {s t : State} (h : serRule s = .ok t) :
    8 + (serTable s.code s.ncode).length + s.payLen.toNat ≤ s.dstCap.toNat ∧
      t = { s with
        dst := writeBytes
          (memWrite (writeBytes (memWrite s.dst 0 4 (serTable s.code s.ncode).length) 4 (serTable s.code s.ncode))
            (4 + (serTable s.code s.ncode).length) 4 s.bitLen.toNat)
          (8 + (serTable s.code s.ncode).length) (payBytes s)
        dstLen := BitVec.ofNat 32 (4 + (serTable s.code s.ncode).length + 4 + s.payLen.toNat) } := by
  simp only [serRule, raise] at h
  split at h
  next hfit => exact ⟨by omega, (Except.ok.inj h).symm⟩
  · cases h

/-- Index of the first byte after the table of the container in SRC (R195). -/
def tableEnd (s : State) : Nat := 4 + memRead .src s.src 0 4

/-- The size of the payload of the container in SRC (R195). -/
def payloadSize (s : State) : Nat := s.srcLen.toNat - tableEnd s - 4

theorem deserRule_ok {s t : State} (h : deserRule s = .ok t) :
    s.srcLen.toNat ≤ s.srcCap.toNat ∧ tableEnd s + 4 ≤ s.srcLen.toNat ∧ payloadSize s ≤ s.payCap.toNat ∧
      ∃ code cnt, deserTable s.src (tableEnd s) = .ok (code, cnt) ∧
        t = { s with
          code := code
          ncode := BitVec.ofNat 9 cnt
          bitLen := BitVec.ofNat 32 (memRead .src s.src (tableEnd s) 4)
          pay := writeBytes s.pay 0 (readBytes .src s.src (tableEnd s + 4) (payloadSize s))
          payLen := BitVec.ofNat 32 (payloadSize s)
          acc := 0#8
          status := s.status.payloadDropped.loaded } := by
  simp only [deserRule, raise] at h
  split at h
  · cases h
  next hfit =>
    split at h
    · cases h
    split at h
    · cases h
    split at h
    · cases h
    next code cnt htable =>
      split at h
      · cases h
      split at h
      · cases h
      refine ⟨needSrcFits_ok hfit, ?_, ?_, code, cnt, htable, (Except.ok.inj h).symm⟩
      · simp only [tableEnd]; omega
      · simp only [payloadSize, tableEnd]; omega

/-- The stages of COMPRESS between COUNT and SER (R212). -/
theorem compressMiddle_ok {s t : State} (h : compressMiddle s = .ok t) :
    (s.srcLen = 0#32 ∧ t = compressEmpty s) ∨
      (s.srcLen ≠ 0#32 ∧ ∃ u v, buildRule s = .ok u ∧ walkRule u = .ok v ∧ encodeRule v = .ok t) := by
  unfold compressMiddle at h
  split at h
  next hlen => exact .inl ⟨hlen, (Except.ok.inj h).symm⟩
  next hlen =>
    split at h
    · cases h
    next u hu =>
      split at h
      · cases h
      next v hv => exact .inr ⟨hlen, u, v, hu, hv, h⟩

theorem compressRule_ok {s t : State} (h : compressRule s = .ok t) :
    ∃ u v, countRule s = .ok u ∧ compressMiddle u = .ok v ∧ serRule v = .ok t := by
  unfold compressRule at h
  split at h
  · cases h
  next u hu =>
    split at h
    · cases h
    next v hv => exact ⟨u, v, hu, hv, h⟩

theorem decompressRule_ok {s t : State} (h : decompressRule s = .ok t) :
    ∃ u, deserRule s = .ok u ∧ decodeRule u = .ok t := by
  unfold decompressRule at h
  split at h
  · cases h
  next u hu => exact ⟨u, hu, h⟩

/-! ## One step -/

/-- What one operation of the host can do to the block (R232): nothing, a command that completes, a fault entry, the two
resets, a write, a read. -/
inductive Effect (s : State) : State → Prop
  | nothing : Effect s s
  | completed (i : Instr) (u : State) (not_srst : i ≠ .srst) (taken : accepting s = true) (legal : i.wf = true)
      (ready : prerequisite i s.status = true) (rule : ruleOf i (begin s) = .ok u) : Effect s (finish u)
  | faulted (cmd : Byte) (r : Raised) (taken : accepting s = true) : Effect s (faultEntry cmd r s)
  | reset : Effect s (resetBlock s)
  | abandoned : Effect s (abandonCommand s)
  | written (space : Space) (index : Nat) (value : Word) (idle : s.status.busy = false) :
      Effect s (hostWrite space index value s)
  | read (space : Space) (index : Nat) : Effect s (recordRead space index s)

theorem exec_effect {i : Instr} {s t : State} (h : exec i s = .next t) : Effect s t := by
  by_cases hi : i = .srst
  · subst hi
    rw [exec_srst] at h
    split at h <;> cases h
    · exact .nothing
    · exact .reset
  · rw [exec_eq_command i hi] at h
    obtain ⟨_, rfl⟩ | ⟨ha, u, hu, rfl⟩ | ⟨ha, r, _, rfl⟩ := command_cases h
    · exact .nothing
    · obtain ⟨hw, hp, hb⟩ := runRule_ok hu
      exact .completed i u hi ha hw (by simpa using hp) hb
    · exact .faulted _ r ha

theorem presentWord_effect {w : Word} {s t : State} (h : presentWord w s = .next t) : Effect s t := by
  unfold presentWord illegalWord at h
  split at h
  · exact exec_effect h
  · split at h <;> cases h
    next ha => exact .faulted _ _ ha
    · exact .nothing

theorem hardReset_effect (s : State) : Effect s (hardReset s) := by
  unfold hardReset
  split
  · exact .abandoned
  · exact .reset

theorem resetDuring_effect (w : Word) (s : State) : Effect s (resetDuring w s) := by
  cases ha : accepting s
  · simpa [resetDuring, ha] using hardReset_effect s
  · rw [resetDuring_taken w s ha]
    exact .abandoned

theorem hostStep_effect {op : HostOp} {s t : State} (h : hostStep op s = .next t) : Effect s t := by
  cases op with
  | wr space index value =>
    simp only [hostStep] at h
    split at h
    · exact presentWord_effect h
    · split at h <;> cases h
      next hb => exact .written space index value (by simpa using hb)
  | rd space index =>
    simp only [hostStep] at h
    split at h <;> cases h
    exact .read space index
  | reset =>
    cases h
    exact hardReset_effect s
  | resetDuring w =>
    cases h
    exact resetDuring_effect w s

/-- Everything a step can do when it answers a next state: past the script nothing, else the host moves on and its
operation takes effect (R237). -/
theorem step_effect {s t : State} (h : step s = .next t) : t = s ∨ Effect s.advance t := by
  unfold step at h
  split at h
  · cases h
    exact .inl rfl
  · exact .inr (hostStep_effect h)

end Sys2Proof.Machine
end

section
/-! PROOF. O58: every step keeps the byte memories in their canonical form and the capacities in their ranges (spec
00_scope.md R6, 20_memory.md R70). The canonical form, strictly rising indices, is the model's own (log entry 3). -/

namespace Sys2Proof.Machine

/-- From s to t the capacities do not change, and a canonical memory stays canonical. -/
structure KeepsCanonical (s t : State) : Prop where
  srcCap : t.srcCap = s.srcCap
  dstCap : t.dstCap = s.dstCap
  payCap : t.payCap = s.payCap
  src : s.src.wf = true → t.src.wf = true
  dst : s.dst.wf = true → t.dst.wf = true
  pay : s.pay.wf = true → t.pay.wf = true

theorem KeepsCanonical.refl (s : State) : KeepsCanonical s s := ⟨rfl, rfl, rfl, id, id, id⟩

theorem KeepsCanonical.trans {s t u : State} (h : KeepsCanonical s t) (k : KeepsCanonical t u) : KeepsCanonical s u :=
  ⟨k.srcCap.trans h.srcCap, k.dstCap.trans h.dstCap, k.payCap.trans h.payCap, k.src ∘ h.src, k.dst ∘ h.dst,
    k.pay ∘ h.pay⟩

theorem KeepsCanonical.memInv {s t : State} (h : KeepsCanonical s t) (hm : MemInv s) : MemInv t :=
  ⟨h.src hm.src, h.dst hm.dst, h.pay hm.pay⟩

theorem KeepsCanonical.capsInv {s t : State} (h : KeepsCanonical s t) (hc : CapsInv s) : CapsInv t := by
  obtain ⟨hsrc, hdst, hlow, hhigh⟩ := hc
  exact ⟨h.srcCap ▸ hsrc, h.dstCap ▸ hdst, h.payCap ▸ hlow, h.payCap ▸ hhigh⟩

/-! ## The rules -/

theorem pkBits_keepsCanonical (c : Bits) (s : State) : KeepsCanonical s (c.foldl pkBit s) := by
  have hpay := pkBits_wf c s
  rw [pkBits_frame] at hpay ⊢
  exact ⟨rfl, rfl, rfl, id, id, hpay⟩

theorem pkFlush_keepsCanonical (s : State) : KeepsCanonical s (pkFlush s) := by
  refine ⟨rfl, rfl, rfl, id, id, fun h => ?_⟩
  rw [pkFlush_pay]
  split
  · exact h
  · exact writeByte_wf _ _ _ h

theorem compressEmpty_keepsCanonical (s : State) : KeepsCanonical s (compressEmpty s) :=
  ⟨rfl, rfl, rfl, id, id, (pkFlush_keepsCanonical (pkInit s)).pay⟩

theorem countRule_keepsCanonical {s t : State} (h : countRule s = .ok t) : KeepsCanonical s t := by
  obtain ⟨_, rfl⟩ := countRule_ok h
  exact ⟨rfl, rfl, rfl, id, id, id⟩

theorem buildRule_keepsCanonical {s t : State} (h : buildRule s = .ok t) : KeepsCanonical s t := by
  obtain ⟨_, rfl⟩ := buildRule_ok h
  exact ⟨rfl, rfl, rfl, id, id, id⟩

theorem walkRule_keepsCanonical {s t : State} (h : walkRule s = .ok t) : KeepsCanonical s t := by
  obtain ⟨_, _, rfl⟩ := walkRule_ok h
  exact ⟨rfl, rfl, rfl, id, id, id⟩

theorem encodeRule_keepsCanonical {s t : State} (h : encodeRule s = .ok t) : KeepsCanonical s t := by
  obtain ⟨_, _, rfl⟩ := encodeRule_ok h
  have hpush := pkBits_keepsCanonical (encodeAll s.code (srcBytes s)) (encodeStart s)
  obtain ⟨hsrcCap, hdstCap, hpayCap, hsrc, hdst, hpay⟩ := hpush.trans (pkFlush_keepsCanonical _)
  exact ⟨hsrcCap, hdstCap, hpayCap, hsrc, hdst, hpay⟩

theorem decodeRule_keepsCanonical {s t : State} (h : decodeRule s = .ok t) : KeepsCanonical s t := by
  obtain ⟨_, out, _, rfl⟩ := decodeRule_ok h
  exact ⟨rfl, rfl, rfl, id, writeBytes_wf out s.dst 0, id⟩

theorem serRule_keepsCanonical {s t : State} (h : serRule s = .ok t) : KeepsCanonical s t := by
  obtain ⟨_, rfl⟩ := serRule_ok h
  exact ⟨rfl, rfl, rfl, id, fun hd =>
    writeBytes_wf _ _ _ (memWrite_wf _ _ _ _ (writeBytes_wf _ _ _ (memWrite_wf _ _ _ _ hd))), id⟩

theorem deserRule_keepsCanonical {s t : State} (h : deserRule s = .ok t) : KeepsCanonical s t := by
  obtain ⟨_, _, _, _, _, _, rfl⟩ := deserRule_ok h
  exact ⟨rfl, rfl, rfl, id, id, writeBytes_wf _ s.pay 0⟩

theorem compressMiddle_keepsCanonical {s t : State} (h : compressMiddle s = .ok t) : KeepsCanonical s t := by
  obtain ⟨_, rfl⟩ | ⟨_, u, v, hbuild, hwalk, hencode⟩ := compressMiddle_ok h
  · exact compressEmpty_keepsCanonical s
  · exact ((buildRule_keepsCanonical hbuild).trans (walkRule_keepsCanonical hwalk)).trans
      (encodeRule_keepsCanonical hencode)

/-- Every rule keeps the memories; each case names what its rule leaves. -/
theorem ruleOf_keepsCanonical {i : Instr} {s t : State} (h : ruleOf i s = .ok t) : KeepsCanonical s t := by
  cases i with
  | nop =>
    cases h
    exact .refl s
  | srst =>
    cases h
    exact ⟨rfl, rfl, rfl, id, id, id⟩
  | count => exact countRule_keepsCanonical h
  | build => exact buildRule_keepsCanonical h
  | walk => exact walkRule_keepsCanonical h
  | pkinit =>
    cases h
    exact ⟨rfl, rfl, rfl, id, id, id⟩
  | pkput n =>
    obtain ⟨_, _, rfl⟩ := pkPush_ok h
    exact pkBits_keepsCanonical _ s
  | pkflush =>
    cases h
    exact ⟨rfl, rfl, rfl, id, id, (pkFlush_keepsCanonical s).pay⟩
  | upinit =>
    obtain ⟨_, rfl⟩ := upinitRule_ok h
    exact ⟨rfl, rfl, rfl, id, id, id⟩
  | upget n =>
    obtain ⟨_, rfl⟩ := upgetRule_ok h
    exact ⟨rfl, rfl, rfl, id, id, id⟩
  | encode => exact encodeRule_keepsCanonical h
  | decode => exact decodeRule_keepsCanonical h
  | ser => exact serRule_keepsCanonical h
  | deser => exact deserRule_keepsCanonical h
  | compress =>
    obtain ⟨u, v, hcount, hmiddle, hser⟩ := compressRule_ok h
    exact ((countRule_keepsCanonical hcount).trans (compressMiddle_keepsCanonical hmiddle)).trans
      (serRule_keepsCanonical hser)
  | decompress =>
    obtain ⟨u, hdeser, hdecode⟩ := decompressRule_ok h
    exact (deserRule_keepsCanonical hdeser).trans (decodeRule_keepsCanonical hdecode)

/-! ## The step -/

theorem hostWrite_keepsCanonical (space : Space) (index : Nat) (value : Word) (s : State) :
    KeepsCanonical s (hostWrite space index value s) := by
  cases space with
  | csr =>
    simp only [hostWrite]
    split_ifs <;> exact ⟨rfl, rfl, rfl, id, id, id⟩
  | freq =>
    simp only [hostWrite]
    split_ifs <;> exact ⟨rfl, rfl, rfl, id, id, id⟩
  | src =>
    simp only [hostWrite]
    split_ifs
    · exact ⟨rfl, rfl, rfl, writeByte_wf _ _ _, id, id⟩
    · exact .refl s
  | node | code | dst | pay => exact .refl s

/-- Every effect of a host operation keeps the memories and the capacities: a memory is written in rising order of index
or forgotten, and no operation writes a capacity (R30). -/
theorem effect_keepsCanonical {s t : State} (h : Effect s t) : KeepsCanonical s t := by
  cases h with
  | nothing => exact .refl s
  | completed i u _ _ _ _ rule =>
    obtain ⟨hsrcCap, hdstCap, hpayCap, hsrc, hdst, hpay⟩ := ruleOf_keepsCanonical rule
    exact ⟨hsrcCap, hdstCap, hpayCap, hsrc, hdst, hpay⟩
  | faulted cmd r _ => exact ⟨rfl, rfl, rfl, id, fun _ => forgotten_wf _, fun _ => forgotten_wf _⟩
  | reset => exact ⟨rfl, rfl, rfl, id, id, id⟩
  | abandoned => exact ⟨rfl, rfl, rfl, id, fun _ => forgotten_wf _, fun _ => forgotten_wf _⟩
  | written space index value _ => exact hostWrite_keepsCanonical space index value s
  | read space index => exact ⟨rfl, rfl, rfl, id, id, id⟩

theorem step_keepsCanonical {s t : State} (h : step s = .next t) : KeepsCanonical s t := by
  obtain rfl | heffect := step_effect h
  · exact .refl t
  · obtain ⟨hsrcCap, hdstCap, hpayCap, hsrc, hdst, hpay⟩ := effect_keepsCanonical heffect
    exact ⟨hsrcCap, hdstCap, hpayCap, hsrc, hdst, hpay⟩

/-- Settles O58: a step keeps the capacities, and writes a byte memory only where it keeps the canonical form, which is
the model's (log entry 3). -/
theorem stepKeepsMemoriesCanonical : Obligations.StepKeepsMemoriesCanonical := by
  intro s t hmem hcaps hstep
  have hkeeps := step_keepsCanonical hstep
  exact ⟨hkeeps.memInv hmem, hkeeps.capsInv hcaps⟩

end Sys2Proof.Machine
end

section
/-! SUPPORT. What a rule that ends may write (spec 10_state.md R21) and the flags it leaves (R32), each said once over
all commands. -/

namespace Sys2Proof.Machine

/-! ## Writers -/

/-- The parts of the block with their own lists of writers (R21, R40 to R43, R53 to R55). -/
inductive Part where
  | source | record | freq | tree | code | dst | pay | payLen | bitLen | acc | pkData | upPos
  deriving DecidableEq

/-- From s to t the part does not change. -/
def Part.Same (s t : State) : Part → Prop
  | .source => t.src = s.src ∧ t.srcLen = s.srcLen ∧ t.srcCap = s.srcCap ∧ t.dstCap = s.dstCap ∧ t.payCap = s.payCap
  | .record => t.err = s.err ∧ t.errInfo = s.errInfo
  | .freq => t.freq = s.freq
  | .tree => t.node = s.node ∧ t.nsym = s.nsym ∧ t.nnode = s.nnode ∧ t.root = s.root
  | .code => t.code = s.code ∧ t.ncode = s.ncode
  | .dst => t.dst = s.dst ∧ t.dstLen = s.dstLen
  | .pay => t.pay = s.pay
  | .payLen => t.payLen = s.payLen
  | .bitLen => t.bitLen = s.bitLen
  | .acc => t.acc = s.acc
  | .pkData => t.pkData = s.pkData
  | .upPos => t.upPos = s.upPos

theorem Part.Same.refl (s : State) (p : Part) : p.Same s s := by cases p <;> simp [Part.Same]

theorem Part.Same.trans {s t u : State} {p : Part} (h : p.Same s t) (k : p.Same t u) : p.Same s u := by
  cases p <;> simp_all [Part.Same]

/-- From s to t only the parts listed change. -/
def WritesOnly (w : List Part) (s t : State) : Prop := ∀ p, p ∉ w → p.Same s t

theorem WritesOnly.trans {w x : List Part} {s t u : State} (h : WritesOnly w s t) (k : WritesOnly x t u) :
    WritesOnly (w ++ x) s u := fun p hp =>
  (h p fun hw => hp (List.mem_append_left x hw)).trans (k p fun hx => hp (List.mem_append_right w hx))

/-- The parts a command writes when it completes (R21, R40 to R43, R54, R55). -/
def writes : Instr → List Part
  | .nop | .srst => []
  | .count => [.freq]
  | .build => [.tree]
  | .walk => [.code]
  | .pkinit => [.payLen, .bitLen, .acc]
  | .pkput _ => [.pay, .bitLen, .acc]
  | .pkflush => [.pay, .payLen, .acc]
  | .upinit => [.upPos]
  | .upget _ => [.pkData, .upPos]
  | .encode => [.pay, .payLen, .bitLen, .acc]
  | .decode => [.dst, .upPos]
  | .ser => [.dst]
  | .deser => [.code, .pay, .payLen, .bitLen, .acc]
  | .compress => [.freq, .tree, .code, .pay, .payLen, .bitLen, .acc, .dst]
  | .decompress => [.code, .pay, .payLen, .bitLen, .acc, .dst, .upPos]

/-- No command lists SRC, SRC_LEN or a capacity (R21, R53). -/
theorem source_not_mem_writes (i : Instr) : .source ∉ writes i := by cases i <;> simp [writes]

/-- No command that completes lists ERR or ERRINFO (R33, R34). -/
theorem record_not_mem_writes (i : Instr) : .record ∉ writes i := by cases i <;> simp [writes]

/-! ## The rules -/

theorem pkBits_writes (c : Bits) (s : State) : WritesOnly [.pay, .bitLen, .acc] s (c.foldl pkBit s) := by
  rw [pkBits_frame]
  intro p hp
  cases p <;> simp_all [Part.Same]

theorem countRule_writes {s t : State} (h : countRule s = .ok t) : WritesOnly (writes .count) s t := by
  obtain ⟨_, rfl⟩ := countRule_ok h
  intro p hp
  cases p <;> simp_all [Part.Same, writes]

theorem buildRule_writes {s t : State} (h : buildRule s = .ok t) : WritesOnly (writes .build) s t := by
  obtain ⟨_, rfl⟩ := buildRule_ok h
  intro p hp
  cases p <;> simp_all [Part.Same, writes]

theorem walkRule_writes {s t : State} (h : walkRule s = .ok t) : WritesOnly (writes .walk) s t := by
  obtain ⟨_, _, rfl⟩ := walkRule_ok h
  intro p hp
  cases p <;> simp_all [Part.Same, writes]

/-- The two ends of an ENCODE write what its pushes write, and PAY_LEN. -/
theorem encodeRule_writes {s t : State} (h : encodeRule s = .ok t) : WritesOnly (writes .encode) s t := by
  obtain ⟨_, _, rfl⟩ := encodeRule_ok h
  rw [pkBits_frame]
  intro p hp
  cases p <;> simp_all [Part.Same, writes, encodeStart]

theorem decodeRule_writes {s t : State} (h : decodeRule s = .ok t) : WritesOnly (writes .decode) s t := by
  obtain ⟨_, _, _, rfl⟩ := decodeRule_ok h
  intro p hp
  cases p <;> simp_all [Part.Same, writes]

theorem serRule_writes {s t : State} (h : serRule s = .ok t) : WritesOnly (writes .ser) s t := by
  obtain ⟨_, rfl⟩ := serRule_ok h
  intro p hp
  cases p <;> simp_all [Part.Same, writes]

theorem deserRule_writes {s t : State} (h : deserRule s = .ok t) : WritesOnly (writes .deser) s t := by
  obtain ⟨_, _, _, _, _, _, rfl⟩ := deserRule_ok h
  intro p hp
  cases p <;> simp_all [Part.Same, writes]

theorem compressEmpty_writes (s : State) :
    WritesOnly [.tree, .code, .pay, .payLen, .bitLen, .acc] s (compressEmpty s) := by
  intro p hp
  cases p <;> simp_all [Part.Same]

theorem compressMiddle_writes {s t : State} (h : compressMiddle s = .ok t) :
    WritesOnly [.tree, .code, .pay, .payLen, .bitLen, .acc] s t := by
  obtain ⟨_, rfl⟩ | ⟨_, u, v, hbuild, hwalk, hencode⟩ := compressMiddle_ok h
  · exact compressEmpty_writes s
  · exact ((buildRule_writes hbuild).trans (walkRule_writes hwalk)).trans (encodeRule_writes hencode)

/-- Every command writes the parts the spec lists for it, a composite those of its stages. -/
theorem ruleOf_writes {i : Instr} {s t : State} (hi : i ≠ .srst) (h : ruleOf i s = .ok t) :
    WritesOnly (writes i) s t := by
  cases i with
  | srst => exact absurd rfl hi
  | nop =>
    cases h
    exact fun p _ => .refl s p
  | count => exact countRule_writes h
  | build => exact buildRule_writes h
  | walk => exact walkRule_writes h
  | pkinit =>
    cases h
    intro p hp
    cases p <;> simp_all [Part.Same, writes]
  | pkput n =>
    obtain ⟨_, _, rfl⟩ := pkPush_ok h
    exact pkBits_writes _ s
  | pkflush =>
    cases h
    intro p hp
    cases p <;> simp_all [Part.Same, writes]
  | upinit =>
    obtain ⟨_, rfl⟩ := upinitRule_ok h
    intro p hp
    cases p <;> simp_all [Part.Same, writes]
  | upget n =>
    obtain ⟨_, rfl⟩ := upgetRule_ok h
    intro p hp
    cases p <;> simp_all [Part.Same, writes]
  | encode => exact encodeRule_writes h
  | decode => exact decodeRule_writes h
  | ser => exact serRule_writes h
  | deser => exact deserRule_writes h
  | compress =>
    obtain ⟨u, v, hcount, hmiddle, hser⟩ := compressRule_ok h
    exact ((countRule_writes hcount).trans (compressMiddle_writes hmiddle)).trans (serRule_writes hser)
  | decompress =>
    obtain ⟨u, hdeser, hdecode⟩ := decompressRule_ok h
    exact (deserRule_writes hdeser).trans (decodeRule_writes hdecode)

/-- What a command that answers a next state has written, when it is not SRST and does not fault: it was dropped, or its
rule ended. -/
theorem exec_writes {i : Instr} {s t : State} (hi : i ≠ .srst) (h : exec i s = .next t) (herr : t.status.err = false) :
    WritesOnly (writes i) s t := by
  rw [exec_eq_command i hi] at h
  obtain ⟨_, rfl⟩ | ⟨_, u, hu, rfl⟩ | ⟨_, r, _, rfl⟩ := command_cases h
  · exact fun p _ => .refl t p
  · obtain ⟨_, _, hrule⟩ := runRule_ok hu
    intro p hp
    have hsame := ruleOf_writes hi hrule p hp
    cases p <;> simpa [Part.Same] using hsame
  · cases herr

/-! ## The flags -/

/-- The flags the rule of a command leaves (R32, R212, R216). -/
def flagsAfter (i : Instr) (s : State) : Status :=
  match i with
  | .nop | .pkput _ | .upget _ | .ser => s.status
  | .srst => Status.reset
  | .count => s.status.clearTree
  | .build => s.status.setTree
  | .walk => s.status.walked
  | .pkinit => s.status.packOpened
  | .pkflush => s.status.packClosed
  | .upinit => s.status.unpackOpened
  | .encode => s.status.payloadDropped.setPay
  | .decode => s.status.unpackClosed
  | .deser => s.status.payloadDropped.loaded
  | .compress =>
    if s.srcLen = 0#32 then s.status.clearTree.emptyPacked
    else s.status.clearTree.setTree.walked.payloadDropped.setPay
  | .decompress => s.status.payloadDropped.loaded.unpackClosed

theorem compressRule_status {s t : State} (h : compressRule s = .ok t) : t.status = flagsAfter .compress s := by
  obtain ⟨u, v, hcount, hmiddle, hser⟩ := compressRule_ok h
  obtain ⟨_, rfl⟩ := countRule_ok hcount
  obtain ⟨_, rfl⟩ := serRule_ok hser
  obtain ⟨hlen, rfl⟩ | ⟨hlen, w, x, hbuild, hwalk, hencode⟩ := compressMiddle_ok hmiddle
  · simp_all [flagsAfter]
  · obtain ⟨_, rfl⟩ := buildRule_ok hbuild
    obtain ⟨_, _, rfl⟩ := walkRule_ok hwalk
    obtain ⟨_, _, rfl⟩ := encodeRule_ok hencode
    simp_all [flagsAfter]

theorem ruleOf_status {i : Instr} {s t : State} (h : ruleOf i s = .ok t) : t.status = flagsAfter i s := by
  cases i with
  | nop | srst | pkinit | pkflush =>
    cases h
    rfl
  | count =>
    obtain ⟨_, rfl⟩ := countRule_ok h
    rfl
  | build =>
    obtain ⟨_, rfl⟩ := buildRule_ok h
    rfl
  | walk =>
    obtain ⟨_, _, rfl⟩ := walkRule_ok h
    rfl
  | pkput n =>
    obtain ⟨_, _, rfl⟩ := pkPush_ok h
    exact pkBits_status _ s
  | upinit =>
    obtain ⟨_, rfl⟩ := upinitRule_ok h
    rfl
  | upget n =>
    obtain ⟨_, rfl⟩ := upgetRule_ok h
    rfl
  | encode =>
    obtain ⟨_, _, rfl⟩ := encodeRule_ok h
    rfl
  | decode =>
    obtain ⟨_, _, _, rfl⟩ := decodeRule_ok h
    rfl
  | ser =>
    obtain ⟨_, rfl⟩ := serRule_ok h
    rfl
  | deser =>
    obtain ⟨_, _, _, _, _, _, rfl⟩ := deserRule_ok h
    rfl
  | compress => exact compressRule_status h
  | decompress =>
    obtain ⟨u, hdeser, hdecode⟩ := decompressRule_ok h
    obtain ⟨_, _, _, _, _, _, rfl⟩ := deserRule_ok hdeser
    obtain ⟨_, _, _, rfl⟩ := decodeRule_ok hdecode
    rfl

/-- SRST apart, no rule writes STATUS.ERR (R32). -/
theorem ruleOf_errFlag {i : Instr} {s t : State} (hi : i ≠ .srst) (h : ruleOf i s = .ok t) :
    t.status.err = s.status.err := by
  rw [ruleOf_status h]
  cases i with
  | srst => exact absurd rfl hi
  | compress =>
    simp only [flagsAfter]
    split <;> rfl
  | nop | count | build | walk | pkinit | pkput | pkflush | upinit | upget | encode | decode | ser | deser
  | decompress => rfl

end Sys2Proof.Machine
end

section
/-! PROOF. O57: every step keeps the fault latch consistent (spec 10_state.md R32 to R34, 20_memory.md R80). -/

namespace Sys2Proof.Machine

theorem causeCode_ne_zero (c : Cause) : causeCode c ≠ 0#8 := by cases c <;> decide

/-- The latch looks at BUSY, STATUS.ERR, ERR and ERRINFO alone. -/
theorem LatchInv.congr {s t : State} (h : LatchInv s) (hbusy : t.status.busy = false)
    (hflag : t.status.err = s.status.err) (herr : t.err = s.err) (hinfo : t.errInfo = s.errInfo) : LatchInv t :=
  ⟨hbusy, by rw [hflag, herr]; exact h.errFlag, by rw [hflag, herr, hinfo]; exact h.noRecord⟩

theorem faultEntry_latchInv (cmd : Byte) (r : Raised) (s : State) : LatchInv (faultEntry cmd r s) :=
  ⟨rfl, ⟨fun _ => causeCode_ne_zero r.cause, fun _ => rfl⟩, fun h => by cases h⟩

theorem resetBlock_latchInv (s : State) : LatchInv (resetBlock s) :=
  ⟨rfl, ⟨fun h => Bool.noConfusion h, fun h => absurd rfl h⟩, fun _ => ⟨rfl, rfl⟩⟩

/-- A host write other than to CMD reaches neither BUSY nor the fault record (R233). -/
theorem hostWrite_record (space : Space) (index : Nat) (value : Word) (s : State) :
    (hostWrite space index value s).status.busy = s.status.busy ∧
      (hostWrite space index value s).status.err = s.status.err ∧
      (hostWrite space index value s).err = s.err ∧ (hostWrite space index value s).errInfo = s.errInfo := by
  cases space with
  | csr | freq | src =>
    simp only [hostWrite]
    split_ifs <;> exact ⟨rfl, rfl, rfl, rfl⟩
  | node | code | dst | pay => exact ⟨rfl, rfl, rfl, rfl⟩

theorem effect_latchInv {s t : State} (hinv : LatchInv s) (h : Effect s t) : LatchInv t := by
  cases h with
  | nothing => exact hinv
  | completed i u not_srst _ _ _ rule =>
    obtain ⟨herr, hinfo⟩ := ruleOf_writes not_srst rule .record (record_not_mem_writes i)
    have hflag : u.status.err = (begin s).status.err := ruleOf_errFlag not_srst rule
    exact hinv.congr rfl hflag herr hinfo
  | faulted cmd r _ => exact faultEntry_latchInv cmd r s
  | reset => exact resetBlock_latchInv s
  | abandoned => exact (resetBlock_latchInv s).congr rfl rfl rfl rfl
  | written space index value idle =>
    obtain ⟨hbusy, hflag, herr, hinfo⟩ := hostWrite_record space index value s
    exact hinv.congr (hbusy.trans idle) hflag herr hinfo
  | read space index => exact hinv.congr hinv.idle rfl rfl rfl

/-- Settles O57: no effect of a host operation breaks the latch; only a fault entry sets the record, and only a reset
clears it. -/
theorem stepKeepsTheFaultLatch : Obligations.StepKeepsTheFaultLatch := by
  intro s t hinv hstep
  obtain rfl | heffect := step_effect hstep
  · exact hinv
  · have hadvance : LatchInv s.advance := hinv.congr hinv.idle rfl rfl rfl
    exact effect_latchInv hadvance heffect

end Sys2Proof.Machine
end

section
/-! PROOF. O7: a latched fault is kept until a reset (spec 60_exceptions.md R250, R252, R254). -/

namespace Sys2Proof.Machine

/-- From s to t the fault latch is kept, set, with its record. -/
def FaultKept (s t : State) : Prop :=
  t.status.err = true ∧ t.status.busy = false ∧ t.err = s.err ∧ t.errInfo = s.errInfo

/-- No fault is latched and no record is held. -/
def LatchCleared (t : State) : Prop := t.status.err = false ∧ t.err = ErrReg.reset ∧ t.errInfo = 0#32

/-- The operation is a reset: the SRST word or a hardware reset (R254). -/
def IsReset (op : Option HostOp) : Prop :=
  op = some (.wr .csr 0x04 0x01000000#32) ∨ op = some .reset ∨ ∃ w, op = some (.resetDuring w)

theorem resetBlock_latchCleared (s : State) : LatchCleared (resetBlock s) := ⟨rfl, rfl, rfl⟩

/-- A word is its opcode over its low 24 bits (R102). -/
theorem word_eq_append {w : Word} {opc : Byte} {low : BitVec 24} (hopc : opcField w = opc)
    (hlow : w.extractLsb' 0 24 = low) : opc ++ low = w := by
  subst hopc hlow
  exact (BitVec.extractLsb'_append_extractLsb'_eq_extractLsb' rfl).trans BitVec.extractLsb'_eq_self

/-- A chain of tests answers at the test that holds. -/
theorem cases_of_ite_ok {c : Prop} [Decidable c] {a b : Except DecodeError Instr} {i : Instr}
    (h : (if c then a else b) = .ok i) : (c ∧ a = .ok i) ∨ b = .ok i := by
  split at h
  next hc => exact .inl ⟨hc, h⟩
  · exact .inr h

theorem encode_of_decodeZ {w : Word} {i j : Instr} (h : decodeZ w j = .ok i) (hopc : opcField w = j.opcode)
    (hj : j.low24 = 0#24) : encode i = w := by
  unfold decodeZ at h
  split at h
  next hlow =>
    cases h
    exact word_eq_append hopc (hlow.trans hj.symm)
  · cases h

theorem encode_of_decodeN {w : Word} {f : BitVec 6 → Instr} {i : Instr} (h : decodeN w f = .ok i)
    (hopc : ∀ n, opcField w = (f n).opcode) (hf : ∀ n, (f n).low24 = 0#18 ++ n) : encode i = w := by
  unfold decodeN at h
  split at h
  next hlow =>
    split at h
    · cases h
      refine word_eq_append (hopc _) ?_
      rw [hf, ← hlow]
      exact (BitVec.extractLsb'_append_extractLsb'_eq_extractLsb' (x := w) (start₁ := 0) (len₁ := 6) rfl).symm
    · cases h
  · cases h

/-- What a word decodes to encodes to the word (R107): the rows of R104 in order, the two of format N after six and two
of format Z. -/
theorem encode_of_decodeWord {w : Word} {i : Instr} (h : decodeWord w = .ok i) : encode i = w := by
  unfold decodeWord at h
  iterate 6
    obtain ⟨hopc, h⟩ | h := cases_of_ite_ok h
    · exact encode_of_decodeZ h hopc rfl
  obtain ⟨hopc, h⟩ | h := cases_of_ite_ok h
  · exact encode_of_decodeN h (fun _ => hopc) (fun _ => rfl)
  iterate 2
    obtain ⟨hopc, h⟩ | h := cases_of_ite_ok h
    · exact encode_of_decodeZ h hopc rfl
  obtain ⟨hopc, h⟩ | h := cases_of_ite_ok h
  · exact encode_of_decodeN h (fun _ => hopc) (fun _ => rfl)
  iterate 6
    obtain ⟨hopc, h⟩ | h := cases_of_ite_ok h
    · exact encode_of_decodeZ h hopc rfl
  cases h

/-- A command word presented while a fault is latched is dropped, unless it is SRST's (R101 step 2, R252). -/
theorem presentWord_latched {w : Word} {s t : State} (herr : s.status.err = true) (hidle : s.status.busy = false)
    (h : presentWord w s = .next t) : t = s ∨ (w = 0x01000000#32 ∧ t = resetBlock s) := by
  have hdropped : accepting s = false := (not_accepting_iff s).2 (.inr herr)
  unfold presentWord at h
  split at h
  next i hdecode =>
    by_cases hi : i = .srst
    · subst hi
      rw [exec_srst, hidle] at h
      cases h
      exact .inr ⟨(encode_of_decodeWord hdecode).symm, rfl⟩
    · rw [exec_eq_command i hi, command_dropped _ _ _ hdropped] at h
      cases h
      exact .inl rfl
  · simp only [illegalWord, hdropped] at h
    cases h
    exact .inl rfl

/-- Any operation of the host on a block with a latched fault keeps the fault, or is a reset and clears it. -/
theorem hostStep_latched {op : HostOp} {s t : State} (herr : s.status.err = true) (hidle : s.status.busy = false)
    (h : hostStep op s = .next t) : FaultKept s t ∨ (LatchCleared t ∧ IsReset (some op)) := by
  cases op with
  | wr space index value =>
    simp only [hostStep] at h
    split at h
    next hcmd =>
      obtain ⟨rfl, rfl⟩ := hcmd
      obtain rfl | ⟨rfl, rfl⟩ := presentWord_latched herr hidle h
      · exact .inl ⟨herr, hidle, rfl, rfl⟩
      · exact .inr ⟨resetBlock_latchCleared s, .inl rfl⟩
    · rw [hidle] at h
      cases h
      obtain ⟨hbusy, hflag, hrecord, hinfo⟩ := hostWrite_record space index value s
      exact .inl ⟨hflag.trans herr, hbusy.trans hidle, hrecord, hinfo⟩
  | rd space index =>
    simp only [hostStep, hidle] at h
    cases h
    exact .inl ⟨herr, hidle, rfl, rfl⟩
  | reset =>
    simp only [hostStep, hardReset, hidle] at h
    cases h
    exact .inr ⟨resetBlock_latchCleared s, .inr (.inl rfl)⟩
  | resetDuring w =>
    simp only [hostStep, resetDuring_dropped w s hidle herr] at h
    cases h
    exact .inr ⟨resetBlock_latchCleared s, .inr (.inr ⟨w, rfl⟩)⟩

/-- Settles O7: past the script nothing changes, and each operation keeps the record or is one of the three resets. -/
theorem firstFaultIsKeptUntilReset : Obligations.FirstFaultIsKeptUntilReset := by
  intro s t herr hidle hstep
  unfold step at hstep
  split at hstep
  · cases hstep
    exact .inl ⟨herr, hidle, rfl, rfl⟩
  next op hop =>
    obtain hkept | ⟨⟨hflag, hrecord, hinfo⟩, hreset⟩ := hostStep_latched (s := s.advance) herr hidle hstep
    · exact .inl hkept
    · rw [hop]
      exact .inr ⟨hflag, hrecord, hinfo, hreset⟩

end Sys2Proof.Machine
end

section
/-! PROOF. O52, O53, O54: the writers of each register, table and buffer, and the set and clear events of each flag
(spec 10_state.md R21, R32, R40 to R43, R53 to R55). -/

namespace Sys2Proof.Machine

/-- Settles O52: no rule lists the source among its parts, a fault entry keeps it, and SRST writes SRC_LEN alone. -/
theorem noCommandWritesTheSource : Obligations.NoCommandWritesTheSource := by
  intro i s t h
  by_cases hi : i = .srst
  · subst hi
    rw [exec_srst] at h
    split at h <;> cases h <;> exact ⟨rfl, rfl, rfl, rfl, fun hne => absurd rfl hne⟩
  · rw [exec_eq_command i hi] at h
    obtain ⟨_, rfl⟩ | ⟨_, u, hu, rfl⟩ | ⟨_, r, _, rfl⟩ := command_cases h
    · exact ⟨rfl, rfl, rfl, rfl, fun _ => rfl⟩
    · obtain ⟨_, _, hrule⟩ := runRule_ok hu
      obtain ⟨hsrc, hlen, hsrcCap, hdstCap, hpayCap⟩ := ruleOf_writes hi hrule .source (source_not_mem_writes i)
      exact ⟨hsrc, hsrcCap, hdstCap, hpayCap, fun _ => hlen⟩
    · exact ⟨rfl, rfl, rfl, rfl, fun _ => rfl⟩

/-! ## The lists of writers, part by part -/

theorem freq_mem_writes (i : Instr) : .freq ∈ writes i ↔ i ∈ [Instr.count, .compress] := by cases i <;> simp [writes]

theorem tree_mem_writes (i : Instr) : .tree ∈ writes i ↔ i ∈ [Instr.build, .compress] := by cases i <;> simp [writes]

theorem code_mem_writes (i : Instr) : .code ∈ writes i ↔ i ∈ [Instr.walk, .deser, .compress, .decompress] := by
  cases i <;> simp [writes]

theorem dst_mem_writes (i : Instr) : .dst ∈ writes i ↔ i ∈ [Instr.ser, .decode, .compress, .decompress] := by
  cases i <;> simp [writes]

theorem pay_mem_writes (i : Instr) :
    .pay ∈ writes i ↔ (∃ n, i = .pkput n) ∨ i ∈ [Instr.pkflush, .encode, .deser, .compress, .decompress] := by
  cases i <;> simp [writes]

theorem payLen_mem_writes (i : Instr) :
    .payLen ∈ writes i ↔ i ∈ [Instr.pkinit, .pkflush, .encode, .deser, .compress, .decompress] := by
  cases i <;> simp [writes]

theorem bitLen_mem_writes (i : Instr) :
    .bitLen ∈ writes i ↔ (∃ n, i = .pkput n) ∨ i ∈ [Instr.pkinit, .encode, .deser, .compress, .decompress] := by
  cases i <;> simp [writes]

theorem acc_mem_writes (i : Instr) :
    .acc ∈ writes i ↔
      (∃ n, i = .pkput n) ∨ i ∈ [Instr.pkinit, .pkflush, .encode, .deser, .compress, .decompress] := by
  cases i <;> simp [writes]

theorem pkData_mem_writes (i : Instr) : .pkData ∈ writes i ↔ ∃ n, i = .upget n := by cases i <;> simp [writes]

theorem upPos_mem_writes (i : Instr) :
    .upPos ∈ writes i ↔ (∃ n, i = .upget n) ∨ i ∈ [Instr.upinit, .decode, .decompress] := by
  cases i <;> simp [writes]

/-- Settles O53: each conjunct is the frame of one part, for a command outside that part's list. -/
theorem eachTableHasItsListedWriters : Obligations.EachTableHasItsListedWriters := by
  intro i s t h herr hi
  have hkeep := exec_writes hi h herr
  obtain ⟨hrecord, hinfo⟩ := hkeep .record (record_not_mem_writes i)
  refine ⟨hrecord, hinfo, fun hn => hkeep .freq ?_, fun hn => hkeep .tree ?_, fun hn => hkeep .code ?_,
    fun hn => hkeep .dst ?_, fun hp hn => hkeep .pay ?_, fun hn => hkeep .payLen ?_, fun hp hn => hkeep .bitLen ?_,
    fun hp hn => hkeep .acc ?_, fun hp => hkeep .pkData ?_, fun hp hn => hkeep .upPos ?_⟩
  · rwa [freq_mem_writes]
  · rwa [tree_mem_writes]
  · rwa [code_mem_writes]
  · rwa [dst_mem_writes]
  · rw [pay_mem_writes]
    exact not_or.2 ⟨not_exists.2 hp, hn⟩
  · rwa [payLen_mem_writes]
  · rw [bitLen_mem_writes]
    exact not_or.2 ⟨not_exists.2 hp, hn⟩
  · rw [acc_mem_writes]
    exact not_or.2 ⟨not_exists.2 hp, hn⟩
  · rw [pkData_mem_writes]
    exact not_exists.2 hp
  · rw [upPos_mem_writes]
    exact not_or.2 ⟨not_exists.2 hp, hn⟩

/-- Settles O54: the flags of a command that completes are those its rule leaves, and each command's line of
`flagsAfter` is its row of the table. -/
theorem flagsFollowTheirSetAndClearEvents : Obligations.FlagsFollowTheirSetAndClearEvents := by
  intro i s t haccept h herr hi
  rw [exec_eq_command i hi] at h
  obtain ⟨hdropped, _⟩ | ⟨_, u, hu, rfl⟩ | ⟨_, r, _, rfl⟩ := command_cases h
  · simp [hdropped] at haccept
  · obtain ⟨_, _, hrule⟩ := runRule_ok hu
    rw [finish_status, ruleOf_status hrule]
    by_cases hlen : s.srcLen = 0#32 <;> cases i <;> simp [flagsAfter, hlen] at hi ⊢
  · cases herr

end Sys2Proof.Machine
end

section
/-! PROOF. O10: the CSR map, as the host reads it (spec 10_state.md R30 to R34, 60_exceptions.md R253). -/

namespace Sys2Proof.Machine

/-- The bits of STATUS (R32). -/
theorem statusWord_getLsbD (f : Status) (k : Nat) :
    (statusWord f).getLsbD k =
      [f.busy, f.err, f.treeValid, f.codeValid, f.payValid, f.pkOpen, f.upOpen].getD k false := by
  rw [statusWord]
  change BitVec.getLsbD (w := 25 + 1 + 1 + 1 + 1 + 1 + 1 + 1) _ k = _
  simp only [BitVec.getLsbD_append]
  rcases k with _ | _ | _ | _ | _ | _ | _ | k <;> simp

/-- Settles O10: the offsets of the map are evaluated one by one; STATUS goes bit by bit, and after a fault its free
flags leave BUSY and ERR. -/
theorem csrMapReadsTheRegisters : Obligations.CsrMapReadsTheRegisters := by
  refine ⟨fun s u haccept => ?_, fun s u hidle herr => ?_⟩
  · obtain ⟨hidle, herr⟩ := (accepting_iff s).1 haccept
    refine ⟨?_, fun offset hoffset => ?_, fun k _ => ?_⟩
    · simp [hostRead, csrRead, regRead, herr, Config.idWord, errWord]
    · have hne : ∀ n, n ≤ 0x48 → offset ≠ n := fun n hn => by omega
      simp [hostRead, csrRead, hne]
    · have hread : hostRead .csr 0x08 u s = statusWord s.status := by
        simp [hostRead, csrRead, statusRead, hidle, herr]
      rw [hread, statusWord_getLsbD, hidle, herr]
  · have hread : hostRead .csr 0x08 u s = statusWord (s.status.withFreeFlags u) := by
      simp [hostRead, csrRead, statusRead, hidle, herr]
    refine ⟨?_, ?_, ?_⟩
    · simp [hostRead, csrRead, Config.idWord, errWord]
    · rw [hread, statusWord_getLsbD]
      exact hidle
    · rw [hread, statusWord_getLsbD]
      exact herr

end Sys2Proof.Machine
end

section
/-! PROOF. O59: every step keeps the session interlocks and every byte inside its buffer (spec 10_state.md R21, R26,
R32, 20_memory.md R89). -/

namespace Sys2Proof.Machine

/-! ## What the loops leave inside their buffers -/

/-- A sequence of n bits stays within L_MAX and fits PAY (R171). -/
def BitsFit (s : State) (n : Nat) : Prop := n ≤ Config.lMax ∧ ceil8 n ≤ s.payCap.toNat

theorem bitsFit_zero (s : State) : BitsFit s 0 := ⟨Nat.zero_le _, Nat.zero_le _⟩

@[simp] theorem pkBits_payCap (c : Bits) (s : State) : (c.foldl pkBit s).payCap = s.payCap := by rw [pkBits_frame]

theorem encodeLoop_bitsFit {bs : List Byte} {i : Nat} {s t : State} (h : encodeLoop bs i s = .ok t)
    (hfit : BitsFit s s.bitLen.toNat) : BitsFit s (s.bitLen.toNat + (encodeAll s.code bs).length) := by
  induction bs generalizing i s with
  | nil => exact hfit
  | cons b rest ih =>
    unfold encodeLoop raise at h
    split at h
    · split at h
      · cases h
      next u hu =>
        obtain ⟨hmax, hcap, rfl⟩ := pkPush_ok hu
        have hlen := pkBits_length (entryAt s.code b.toNat).bits s (by simp only [Config.lMax] at hmax; omega)
        have hrest := ih h ⟨by rw [hlen]; exact hmax, by rw [hlen, pkBits_payCap]; exact hcap⟩
        simpa [BitsFit, hlen, encodeAll, Nat.add_assoc] using hrest
    · cases h

/-- ENCODE ends only when all its codes fit (R206). -/
theorem encodeRule_bitsFit {s t : State} (h : encodeRule s = .ok t) :
    BitsFit s (encodeAll s.code (srcBytes s)).length := by
  unfold encodeRule at h
  split at h
  · cases h
  · split at h
    · cases h
    next u hu => simpa [BitsFit] using encodeLoop_bitsFit hu (bitsFit_zero _)

/-- DECODE emits no more symbols than DST holds (R208). -/
theorem decodeLoop_length {code : CodeTable} {cap : Nat} {bits cand : Bits} {out res : List Byte}
    (h : decodeLoop code cap bits cand out = .ok res) (hout : out.length ≤ cap) : res.length ≤ cap := by
  induction bits generalizing cand out with
  | nil =>
    unfold decodeLoop raise at h
    split at h <;> cases h
    exact hout
  | cons b rest ih =>
    unfold decodeLoop raise at h
    split at h
    · exact ih h hout
    · split at h
      next hroom => exact ih h (by simpa using hroom)
      · cases h

/-! ## The invariant of a block without a fault -/

/-- `BufferInv` of a state in which no fault is latched. -/
structure BuffersOk (s : State) : Prop where
  src : s.src.within s.srcCap.toNat = true
  dst : s.dst.within s.dstCap.toNat = true
  pay : s.pay.within s.payCap.toNat = true
  sessions : SessionOk s

theorem BufferInv.buffersOk {s : State} (h : BufferInv s) (herr : s.status.err = false) : BuffersOk s :=
  ⟨h.src, h.dst, h.pay, h.sessions herr⟩

theorem BuffersOk.bufferInv {s : State} (h : BuffersOk s) : BufferInv s := ⟨h.src, h.dst, h.pay, fun _ => h.sessions⟩

theorem Packed.congr {s t : State} {b : Bits} (h : Packed s b) (hlen : t.bitLen = s.bitLen) (hpay : t.pay = s.pay)
    (hacc : t.acc = s.acc) : Packed t b :=
  ⟨by rw [hlen]; exact h.length, by rw [hpay]; exact h.bytes, by rw [hacc]; exact h.rest⟩

/-- From s to t nothing changes that `SessionOk` looks at. -/
structure SameSession (s t : State) : Prop where
  pkOpen : t.status.pkOpen = s.status.pkOpen
  payValid : t.status.payValid = s.status.payValid
  upOpen : t.status.upOpen = s.status.upOpen
  bitLen : t.bitLen = s.bitLen
  acc : t.acc = s.acc
  pay : t.pay = s.pay
  payLen : t.payLen = s.payLen
  payCap : t.payCap = s.payCap
  upPos : t.upPos = s.upPos
  dstLen : t.dstLen = s.dstLen
  dstCap : t.dstCap = s.dstCap

theorem SessionOk.congr {s t : State} (h : SessionOk s) (k : SameSession s t) : SessionOk t where
  pack_alone := by rw [k.pkOpen, k.payValid, k.upOpen]; exact h.pack_alone
  unpack_has_payload := by rw [k.upOpen, k.payValid]; exact h.unpack_has_payload
  pack_holds hopen := by
    obtain ⟨⟨b, hb⟩, hfit⟩ := h.pack_holds (k.pkOpen ▸ hopen)
    exact ⟨⟨b, hb.congr k.bitLen k.pay k.acc⟩, by rw [k.bitLen, k.payCap]; exact hfit⟩
  unpack_inside := by rw [k.upOpen, k.upPos, k.bitLen, k.payLen]; exact h.unpack_inside
  dst_len := by rw [k.dstLen, k.dstCap]; exact h.dst_len
  pay_len := by rw [k.payLen, k.payCap]; exact h.pay_len

/-- With both sessions closed, only the two lengths are left to bound. -/
theorem SessionOk.of_closed {s : State} (hpk : s.status.pkOpen = false) (hup : s.status.upOpen = false)
    (hdst : s.dstLen.toNat ≤ s.dstCap.toNat) (hpay : s.payLen.toNat ≤ s.payCap.toNat) : SessionOk s :=
  ⟨by simp [hpk], by simp [hup], by simp [hpk], by simp [hup], hdst, hpay⟩

/-- An open pack session leaves no payload and no open unpack session (R32). -/
theorem SessionOk.pkOpen_eq_false {s : State} (h : SessionOk s) (hpay : s.status.payValid = true) :
    s.status.pkOpen = false := by
  cases hpk : s.status.pkOpen
  · rfl
  · simp [(h.pack_alone hpk).1] at hpay

theorem toNat_ofNat_of_le {n : Nat} {cap : Word} (h : n ≤ cap.toNat) : (BitVec.ofNat 32 n).toNat = n := by
  rw [BitVec.toNat_ofNat, Nat.mod_eq_of_lt (by have := cap.isLt; omega)]

/-! ## The rules -/

theorem countRule_buffersOk {s t : State} (hs : BuffersOk s) (h : countRule s = .ok t) : BuffersOk t := by
  obtain ⟨_, rfl⟩ := countRule_ok h
  exact ⟨hs.src, hs.dst, hs.pay, hs.sessions.congr (by constructor <;> rfl)⟩

theorem buildRule_buffersOk {s t : State} (hs : BuffersOk s) (h : buildRule s = .ok t) : BuffersOk t := by
  obtain ⟨_, rfl⟩ := buildRule_ok h
  exact ⟨hs.src, hs.dst, hs.pay, hs.sessions.congr (by constructor <;> rfl)⟩

/-- WALK drops the payload and closes the unpack session, and leaves an open pack session as it is (R161). -/
theorem walkRule_buffersOk {s t : State} (hs : BuffersOk s) (h : walkRule s = .ok t) : BuffersOk t := by
  obtain ⟨_, _, rfl⟩ := walkRule_ok h
  refine ⟨hs.src, hs.dst, hs.pay, fun _ => ⟨rfl, rfl⟩, fun hup => hup, fun hpk => ?_, fun hup => Bool.noConfusion hup,
    hs.sessions.dst_len, hs.sessions.pay_len⟩
  obtain ⟨⟨b, hb⟩, hfit⟩ := hs.sessions.pack_holds hpk
  exact ⟨⟨b, hb.congr rfl rfl rfl⟩, hfit⟩

theorem pkinitRule_buffersOk {s t : State} (hs : BuffersOk s) (h : pkinitRule s = .ok t) : BuffersOk t := by
  cases h
  exact ⟨hs.src, hs.dst, hs.pay, fun _ => ⟨rfl, rfl⟩, fun hup => hup,
    fun _ => ⟨⟨[], (pkInit_packed s).congr rfl rfl rfl⟩, (bitsFit_zero s).2⟩, fun hup => Bool.noConfusion hup,
    hs.sessions.dst_len, Nat.zero_le _⟩

/-- PKPUT extends the packed sequence, and only within PAY (R171, R175). -/
theorem pkputRule_buffersOk {n : BitVec 6} {s t : State} (hs : BuffersOk s) (hopen : s.status.pkOpen = true)
    (h : pkputRule n s = .ok t) : BuffersOk t := by
  obtain ⟨hmax, hcap, rfl⟩ := pkPush_ok h
  obtain ⟨hvalid, hup⟩ := hs.sessions.pack_alone hopen
  obtain ⟨⟨b, hb⟩, _⟩ := hs.sessions.pack_holds hopen
  have hlt : s.bitLen.toNat + (putOperand n s.pkData).length < 2 ^ 32 := by
    simp only [Config.lMax] at hmax
    omega
  have hpacked := pkBits_packed (putOperand n s.pkData) s b hb (by rw [← hb.length]; exact hlt)
  have hlen := pkBits_length (putOperand n s.pkData) s hlt
  have hwithin := pkBits_within (putOperand n s.pkData) s s.payCap.toNat hs.pay hlt hcap
  rw [pkBits_frame] at hpacked hlen hwithin ⊢
  exact ⟨hs.src, hs.dst, hwithin, fun _ => ⟨hvalid, hup⟩, fun hup' => absurd hup' (by simp [hup]),
    fun _ => ⟨⟨_, hpacked⟩, by rw [hlen]; exact hcap⟩, fun hup' => absurd hup' (by simp [hup]),
    hs.sessions.dst_len, hs.sessions.pay_len⟩

/-- PKFLUSH writes at most the partial byte of a sequence that fits (R172). -/
theorem pkFlush_within {s : State} (hpay : s.pay.within s.payCap.toNat = true)
    (hfit : ceil8 s.bitLen.toNat ≤ s.payCap.toNat) : (pkFlush s).pay.within s.payCap.toNat = true := by
  rw [pkFlush_pay]
  split
  · exact hpay
  next hrest => exact writeByte_within _ _ _ _ hpay (by rw [ceil8_eq] at hfit; omega)

theorem pkflushRule_buffersOk {s t : State} (hs : BuffersOk s) (hopen : s.status.pkOpen = true)
    (h : pkflushRule s = .ok t) : BuffersOk t := by
  cases h
  obtain ⟨_, hup⟩ := hs.sessions.pack_alone hopen
  obtain ⟨_, hfit⟩ := hs.sessions.pack_holds hopen
  refine ⟨hs.src, hs.dst, pkFlush_within hs.pay hfit, .of_closed rfl hup hs.sessions.dst_len ?_⟩
  show (BitVec.ofNat 32 (ceil8 s.bitLen.toNat)).toNat ≤ _
  rw [toNat_ofNat_of_le hfit]
  exact hfit

theorem upinitRule_buffersOk {s t : State} (hs : BuffersOk s) (hvalid : s.status.payValid = true)
    (h : upinitRule s = .ok t) : BuffersOk t := by
  obtain ⟨hlen, rfl⟩ := upinitRule_ok h
  have hpk := hs.sessions.pkOpen_eq_false hvalid
  exact ⟨hs.src, hs.dst, hs.pay, fun hpk' => absurd hpk' (by simp [hpk]), fun _ => hvalid,
    fun hpk' => absurd hpk' (by simp [hpk]), fun _ => ⟨Nat.zero_le _, hlen⟩, hs.sessions.dst_len, hs.sessions.pay_len⟩

/-- UPGET moves UPPOS no further than BITLEN (R179). -/
theorem upgetRule_buffersOk {n : BitVec 6} {s t : State} (hs : BuffersOk s) (hopen : s.status.upOpen = true)
    (h : upgetRule n s = .ok t) : BuffersOk t := by
  obtain ⟨hlen, rfl⟩ := upgetRule_ok h
  have hvalid := hs.sessions.unpack_has_payload hopen
  have hpk := hs.sessions.pkOpen_eq_false hvalid
  obtain ⟨_, hinside⟩ := hs.sessions.unpack_inside hopen
  refine ⟨hs.src, hs.dst, hs.pay, fun hpk' => absurd hpk' (by simp [hpk]), fun _ => hvalid,
    fun hpk' => absurd hpk' (by simp [hpk]), fun _ => ⟨?_, hinside⟩, hs.sessions.dst_len, hs.sessions.pay_len⟩
  show (BitVec.ofNat 32 (s.upPos.toNat + n.toNat)).toNat ≤ _
  rw [toNat_ofNat_of_le hlen]
  exact hlen

/-- ENCODE leaves a payload of the codes' length, which fits PAY (R206). -/
theorem encodeRule_buffersOk {s t : State} (hs : BuffersOk s) (h : encodeRule s = .ok t) : BuffersOk t := by
  obtain ⟨hmax, hcap⟩ := encodeRule_bitsFit h
  obtain ⟨_, _, rfl⟩ := encodeRule_ok h
  have hlt : (encodeStart s).bitLen.toNat + (encodeAll s.code (srcBytes s)).length < 2 ^ 32 := by
    simp only [Config.lMax] at hmax
    simp only [encodeStart, pkInit_bitLen, BitVec.toNat_zero]
    omega
  have hfit : ceil8 ((encodeStart s).bitLen.toNat + (encodeAll s.code (srcBytes s)).length) ≤ s.payCap.toNat := by
    simpa [encodeStart] using hcap
  have hlen := pkBits_length (encodeAll s.code (srcBytes s)) (encodeStart s) hlt
  have hwithin := pkBits_within (encodeAll s.code (srcBytes s)) (encodeStart s) s.payCap.toNat hs.pay hlt hfit
  rw [← hlen] at hfit
  rw [pkBits_frame] at hfit hwithin ⊢
  refine ⟨hs.src, hs.dst, pkFlush_within hwithin hfit, .of_closed rfl rfl hs.sessions.dst_len ?_⟩
  exact (toNat_ofNat_of_le hfit).trans_le hfit

theorem decodeRule_buffersOk {s t : State} (hs : BuffersOk s) (h : decodeRule s = .ok t) : BuffersOk t := by
  obtain ⟨_, out, hout, rfl⟩ := decodeRule_ok h
  have hroom := decodeLoop_length hout (Nat.zero_le _)
  refine ⟨hs.src, writeBytes_within _ _ _ _ hs.dst ((Nat.zero_add _).trans_le hroom), hs.pay, ?_⟩
  obtain ⟨halone, _, hholds, _, _, hpay⟩ := hs.sessions
  refine ⟨fun hpk => ⟨(halone hpk).1, rfl⟩, fun hup => Bool.noConfusion hup, fun hpk => ?_,
    fun hup => Bool.noConfusion hup, (toNat_ofNat_of_le hroom).trans_le hroom, hpay⟩
  obtain ⟨⟨b, hb⟩, hfit⟩ := hholds hpk
  exact ⟨⟨b, hb.congr rfl rfl rfl⟩, hfit⟩

theorem serRule_buffersOk {s t : State} (hs : BuffersOk s) (h : serRule s = .ok t) : BuffersOk t := by
  obtain ⟨hfit, rfl⟩ := serRule_ok h
  have htotal : 4 + (serTable s.code s.ncode).length + 4 + s.payLen.toNat ≤ s.dstCap.toNat := by omega
  refine ⟨hs.src, ?_, hs.pay, ?_⟩
  · refine writeBytes_within _ _ _ _ (writeBytes_within _ _ _ _ (writeBytes_within _ _ _ _ (writeBytes_within _ _ _ _
      hs.dst ?_) ?_) ?_) ?_ <;> simp only [bigEndian_length, payBytes, readBytes_length] <;> omega
  · obtain ⟨halone, hpayload, hholds, hinside, _, hpay⟩ := hs.sessions
    refine ⟨halone, hpayload, fun hpk => ?_, hinside, (toNat_ofNat_of_le htotal).trans_le htotal, hpay⟩
    obtain ⟨⟨b, hb⟩, hbits⟩ := hholds hpk
    exact ⟨⟨b, hb.congr rfl rfl rfl⟩, hbits⟩

theorem deserRule_buffersOk {s t : State} (hs : BuffersOk s) (h : deserRule s = .ok t) : BuffersOk t := by
  obtain ⟨_, _, hfit, _, _, _, rfl⟩ := deserRule_ok h
  exact ⟨hs.src, hs.dst, writeBytes_within _ _ _ _ hs.pay (by simpa using hfit),
    .of_closed rfl rfl hs.sessions.dst_len ((toNat_ofNat_of_le hfit).trans_le hfit)⟩

theorem compressEmpty_buffersOk {s : State} (hs : BuffersOk s) : BuffersOk (compressEmpty s) :=
  ⟨hs.src, hs.dst, hs.pay, .of_closed rfl rfl hs.sessions.dst_len (by simp)⟩

theorem compressMiddle_buffersOk {s t : State} (hs : BuffersOk s) (h : compressMiddle s = .ok t) : BuffersOk t := by
  obtain ⟨_, rfl⟩ | ⟨_, u, v, hbuild, hwalk, hencode⟩ := compressMiddle_ok h
  · exact compressEmpty_buffersOk hs
  · exact encodeRule_buffersOk (walkRule_buffersOk (buildRule_buffersOk hs hbuild) hwalk) hencode

/-- Every rule keeps the sessions and buffers; the four commands that need an open session or a payload lean on their
prerequisite (R247). -/
theorem ruleOf_buffersOk {i : Instr} {s t : State} (hi : i ≠ .srst) (hready : prerequisite i s.status = true)
    (hs : BuffersOk s) (h : ruleOf i s = .ok t) : BuffersOk t := by
  cases i with
  | srst => exact absurd rfl hi
  | nop =>
    cases h
    exact hs
  | count => exact countRule_buffersOk hs h
  | build => exact buildRule_buffersOk hs h
  | walk => exact walkRule_buffersOk hs h
  | pkinit => exact pkinitRule_buffersOk hs h
  | pkput n => exact pkputRule_buffersOk hs hready h
  | pkflush => exact pkflushRule_buffersOk hs hready h
  | upinit => exact upinitRule_buffersOk hs hready h
  | upget n => exact upgetRule_buffersOk hs hready h
  | encode => exact encodeRule_buffersOk hs h
  | decode => exact decodeRule_buffersOk hs h
  | ser => exact serRule_buffersOk hs h
  | deser => exact deserRule_buffersOk hs h
  | compress =>
    obtain ⟨u, v, hcount, hmiddle, hser⟩ := compressRule_ok h
    exact serRule_buffersOk (compressMiddle_buffersOk (countRule_buffersOk hs hcount) hmiddle) hser
  | decompress =>
    obtain ⟨u, hdeser, hdecode⟩ := decompressRule_ok h
    exact decodeRule_buffersOk (deserRule_buffersOk hs hdeser) hdecode

/-! ## The step -/

/-- From s to t nothing changes that `BufferInv` looks at, SRC apart. -/
theorem BufferInv.congr {s t : State} (h : BufferInv s) (hsrc : t.src.within t.srcCap.toNat = true)
    (hdst : t.dst = s.dst) (hflag : t.status.err = s.status.err) (k : SameSession s t) : BufferInv t :=
  ⟨hsrc, by rw [hdst, k.dstCap]; exact h.dst, by rw [k.pay, k.payCap]; exact h.pay,
    fun herr => (h.sessions (hflag ▸ herr)).congr k⟩

/-- A host write reaches SRC only below SRC_CAP, and no other buffer (R71, R233). -/
theorem hostWrite_bufferInv (space : Space) (index : Nat) (value : Word) {s : State} (h : BufferInv s) :
    BufferInv (hostWrite space index value s) := by
  cases space with
  | csr | freq =>
    simp only [hostWrite]
    split_ifs <;> exact h.congr h.src rfl rfl (by constructor <;> rfl)
  | src =>
    simp only [hostWrite]
    split_ifs with hindex
    · exact h.congr (writeByte_within _ _ _ _ h.src hindex) rfl rfl
        (by constructor <;> rfl)
    · exact h
  | node | code | dst | pay => exact h

theorem reset_sessionOk {s : State} (h : s.status = Status.reset) (hdst : s.dstLen = 0#32) (hpay : s.payLen = 0#32) :
    SessionOk s :=
  .of_closed (by rw [h]; rfl) (by rw [h]; rfl) (by simp [hdst]) (by simp [hpay])

theorem effect_bufferInv {s t : State} (hinv : BufferInv s) (h : Effect s t) : BufferInv t := by
  cases h with
  | nothing => exact hinv
  | completed i u not_srst taken _ ready rule =>
    have hsame : ∀ s : State, SameSession s (begin s) ∧ SameSession s (finish s) := fun s =>
      ⟨(by constructor <;> rfl), (by constructor <;> rfl)⟩
    obtain ⟨_, herr⟩ := (accepting_iff s).1 taken
    have hbegin : BufferInv (begin s) := hinv.congr hinv.src rfl rfl (hsame s).1
    have hrule := ruleOf_buffersOk not_srst (by simpa using ready) (hbegin.buffersOk herr) rule
    exact hrule.bufferInv.congr hrule.src rfl rfl (hsame u).2
  | faulted cmd r _ => exact ⟨hinv.src, forgotten_within _ _, forgotten_within _ _, fun herr => Bool.noConfusion herr⟩
  | reset => exact ⟨hinv.src, hinv.dst, hinv.pay, fun _ => reset_sessionOk rfl rfl rfl⟩
  | abandoned => exact ⟨hinv.src, forgotten_within _ _, forgotten_within _ _, fun _ => reset_sessionOk rfl rfl rfl⟩
  | written space index value _ => exact hostWrite_bufferInv space index value hinv
  | read space index => exact hinv.congr hinv.src rfl rfl (by constructor <;> rfl)

/-- Settles O59: every rule keeps the sessions of a block without a fault, a fault entry forgets DST and PAY, a reset
closes the sessions, and a host write reaches no buffer past its end. -/
theorem stepKeepsSessionsAndBuffers : Obligations.StepKeepsSessionsAndBuffers := by
  intro s t hinv hstep
  obtain rfl | heffect := step_effect hstep
  · exact hinv
  · have hadvance : BufferInv s.advance :=
      hinv.congr hinv.src rfl rfl (by constructor <;> rfl)
    exact effect_bufferInv hadvance heffect

end Sys2Proof.Machine
end

section
/-! SUPPORT. The tree BUILD makes (spec 41_tree_builder.md R145 to R150): the leaves in closed form, the order of R147,
and the forest the merge loop keeps. -/

namespace Sys2Proof.Machine

/-! ## The leaves -/

/-- The symbols a frequency table counts, in ascending order (R146). -/
def counted (freq : FreqTable) (l : List Nat) : List Nat := l.filter fun x => entryAt freq x ≠ 0#32

/-- The leaves' symbols (R146). -/
def leafSyms (freq : FreqTable) : List Nat := counted freq (List.range 256)

/-- The record of a leaf (R148). -/
def leafOf (freq : FreqTable) (x : Nat) : NodeRec :=
  { leaf := true, sym := BitVec.ofNat 8 x, weight := (entryAt freq x).setWidth 40, left := 0#9, right := 0#9 }

theorem addLeaf_eq (freq : FreqTable) (acc : Nat × NodeTable) (x : Nat) :
    addLeaf freq acc x =
      if entryAt freq x = 0#32 then acc else (acc.1 + 1, putEntry acc.2 acc.1 (leafOf freq x)) := rfl

/-- The leaf loop appends one leaf for each counted symbol, and leaves the records before them. -/
theorem foldl_addLeaf (freq : FreqTable) (l : List Nat) (acc : Nat × NodeTable) (hroom : acc.1 + l.length ≤ 511) :
    (l.foldl (addLeaf freq) acc).1 = acc.1 + (counted freq l).length ∧
      (∀ k, k < acc.1 → entryAt (l.foldl (addLeaf freq) acc).2 k = entryAt acc.2 k) ∧
      ∀ k (h : k < (counted freq l).length),
        entryAt (l.foldl (addLeaf freq) acc).2 (acc.1 + k) = leafOf freq (counted freq l)[k] := by
  induction l generalizing acc with
  | nil => simp [counted]
  | cons x rest ih =>
    rw [List.foldl_cons, addLeaf_eq]
    simp only [List.length_cons] at hroom
    by_cases hx : entryAt freq x = 0#32
    · have hc : counted freq (x :: rest) = counted freq rest := by simp [counted, hx]
      rw [if_pos hx, hc]
      exact ih acc (by omega)
    · have hc : counted freq (x :: rest) = x :: counted freq rest := by simp [counted, hx]
      obtain ⟨hcount, hbefore, hleaf⟩ := ih (acc.1 + 1, putEntry acc.2 acc.1 (leafOf freq x)) (by simp only; omega)
      simp only [if_neg hx, hc] at hcount hbefore hleaf ⊢
      refine ⟨by rw [hcount, List.length_cons]; omega, fun k hk => ?_, fun k hk => ?_⟩
      · rw [hbefore k (by omega), entryAt_putEntry_other _ _ _ _ (by omega)]
      · cases k with
        | zero =>
          rw [hbefore _ (by omega)]
          exact entryAt_putEntry_same _ _ _ (by omega)
        | succ k =>
          rw [← Nat.add_assoc, Nat.add_right_comm, hleaf k (by simpa using hk), List.getElem_cons_succ]

theorem makeLeaves_count (freq : FreqTable) (node : NodeTable) :
    (makeLeaves freq node).1 = (leafSyms freq).length := by
  simpa [makeLeaves, leafSyms, Config.alphabet] using (foldl_addLeaf freq (List.range 256) (0, node) (by simp)).1

theorem makeLeaves_entry (freq : FreqTable) (node : NodeTable) (k : Nat) (h : k < (leafSyms freq).length) :
    entryAt (makeLeaves freq node).2 k = leafOf freq (leafSyms freq)[k] := by
  obtain ⟨_, _, hleaf⟩ := foldl_addLeaf freq (List.range 256) (0, node) (by simp)
  have hk := hleaf k h
  rw [Nat.zero_add] at hk
  exact hk

theorem mem_leafSyms (freq : FreqTable) (x : Nat) : x ∈ leafSyms freq ↔ x < 256 ∧ entryAt freq x ≠ 0#32 := by
  simp [leafSyms, counted]

theorem leafSyms_length_le (freq : FreqTable) : (leafSyms freq).length ≤ 256 :=
  (List.length_filter_le _ _).trans (by simp)

theorem leafSyms_sorted (freq : FreqTable) : (leafSyms freq).Pairwise (· < ·) :=
  List.pairwise_lt_range.filter _

/-- The sum of all counts (R150). -/
def totalCount (freq : FreqTable) : Nat := ((List.range 256).map fun x => (entryAt freq x).toNat).sum

theorem sum_counted (freq : FreqTable) (l : List Nat) :
    ((counted freq l).map fun x => (entryAt freq x).toNat).sum = (l.map fun x => (entryAt freq x).toNat).sum := by
  induction l with
  | nil => rfl
  | cons x rest ih =>
    by_cases hx : entryAt freq x = 0#32
    · simpa [counted, hx] using ih
    · simpa [counted, hx] using ih

/-- The counts of 256 symbols do not wrap in 40 bits (R150). -/
theorem totalCount_lt (freq : FreqTable) : totalCount freq < 2 ^ 40 := by
  have hle : totalCount freq ≤ ((List.range 256).map fun _ => 2 ^ 32 - 1).sum :=
    List.sum_le_sum fun x _ => by have := (entryAt freq x).isLt; omega
  simp only [List.map_const', List.sum_replicate, List.length_range, smul_eq_mul] at hle
  omega

/-! ## The order of R147 -/

theorem nodeBefore_iff (node : NodeTable) (i j : Nat) : nodeBefore node i j = true ↔ Precedes node i j := by
  simp [nodeBefore, Precedes]

theorem Precedes.trans {node : NodeTable} {i j k : Nat} (h : Precedes node i j) (h' : Precedes node j k) :
    Precedes node i k := by
  unfold Precedes at *
  omega

theorem Precedes.total {node : NodeTable} {i j : Nat} (h : i ≠ j) (h' : ¬Precedes node i j) : Precedes node j i := by
  unfold Precedes at *
  omega

theorem leastNode_spec (node : NodeTable) (l : List Nat) (best : Nat) :
    leastNode node best l ∈ best :: l ∧
      ∀ j ∈ best :: l, j ≠ leastNode node best l → Precedes node (leastNode node best l) j := by
  induction l generalizing best with
  | nil => simp [leastNode]
  | cons i rest ih =>
    rw [leastNode]
    by_cases hbefore : nodeBefore node i best = true
    · have hi : Precedes node i best := (nodeBefore_iff node i best).1 hbefore
      rw [if_pos hbefore]
      obtain ⟨hmem, hleast⟩ := ih i
      refine ⟨List.mem_cons_of_mem _ hmem, fun j hj hne => ?_⟩
      rcases List.mem_cons.1 hj with rfl | hj
      · by_cases heq : i = leastNode node i rest
        · rwa [← heq]
        · exact (hleast i List.mem_cons_self heq).trans hi
      · exact hleast j hj hne
    · have hi : ¬Precedes node i best := fun h => hbefore ((nodeBefore_iff node i best).2 h)
      rw [if_neg hbefore]
      obtain ⟨hmem, hleast⟩ := ih best
      refine ⟨?_, fun j hj hne => ?_⟩
      · rcases List.mem_cons.1 hmem with h | h
        · exact List.mem_cons.2 (.inl h)
        · exact List.mem_cons_of_mem _ (List.mem_cons_of_mem _ h)
      · rcases List.mem_cons.1 hj with rfl | hj
        · exact hleast j List.mem_cons_self hne
        · rcases List.mem_cons.1 hj with rfl | hj
          · by_cases heq : best = leastNode node best rest
            · rw [← heq] at hne ⊢
              exact Precedes.total hne hi
            · have hbest := hleast best List.mem_cons_self heq
              by_cases hjb : j = best
              · rwa [hjb]
              · exact hbest.trans (Precedes.total hjb hi)
          · exact hleast j (List.mem_cons_of_mem _ hj) hne

/-- What takeLeast removes is in the set and precedes every other member (R147). -/
theorem takeLeast_some {node : NodeTable} {l rest : List Nat} {a : Nat} (h : takeLeast node l = some (a, rest)) :
    a ∈ l ∧ rest = l.erase a ∧ ∀ j ∈ l, j ≠ a → Precedes node a j := by
  cases l with
  | nil => cases h
  | cons i l =>
    cases h
    obtain ⟨hmem, hleast⟩ := leastNode_spec node l i
    exact ⟨hmem, rfl, hleast⟩

theorem takeLeast_none {node : NodeTable} {l : List Nat} (h : takeLeast node l = none) : l = [] := by
  cases l with
  | nil => rfl
  | cons i l => cases h

/-! ## Records that agree -/

/-- Two node memories agree on the records below k. -/
def AgreeBelow (node node' : NodeTable) (k : Nat) : Prop := ∀ i, i < k → entryAt node' i = entryAt node i

theorem AgreeBelow.mono {node node' : NodeTable} {j k : Nat} (h : AgreeBelow node node' k) (hjk : j ≤ k) :
    AgreeBelow node node' j := fun i hi => h i (by omega)

/-- A new record leaves the records below it. -/
theorem agreeBelow_putEntry (node : NodeTable) (k : Nat) (r : NodeRec) : AgreeBelow node (putEntry node k r) k :=
  fun i hi => entryAt_putEntry_other _ _ _ _ (by omega)

theorem AgreeBelow.parentOf {node node' : NodeTable} {n k p c : Nat} (h : AgreeBelow node node' k) :
    ParentOf node' n k p c ↔ ParentOf node n k p c := by
  refine and_congr_right fun _ => and_congr_right fun hp => ?_
  rw [h p hp]

theorem AgreeBelow.activeAt {node node' : NodeTable} {n k j : Nat} (h : AgreeBelow node node' k) :
    ActiveAt node' n k j ↔ ActiveAt node n k j :=
  and_congr_right fun _ => forall_congr' fun _ => not_congr h.parentOf

theorem AgreeBelow.precedes {node node' : NodeTable} {k i j : Nat} (h : AgreeBelow node node' k) (hi : i < k)
    (hj : j < k) : Precedes node' i j ↔ Precedes node i j := by
  rw [Precedes, Precedes, h i hi, h j hj]

/-- Record k is an internal node over two earlier records, and weighs what they weigh (R148). -/
def InternalAt (node : NodeTable) (k : Nat) : Prop :=
  (entryAt node k).leaf = false ∧ (entryAt node k).sym = 0#8 ∧ (entryAt node k).left.toNat < k ∧
    (entryAt node k).right.toNat < k ∧ (entryAt node k).left ≠ (entryAt node k).right ∧
    (entryAt node k).weight.toNat =
      (entryAt node (entryAt node k).left.toNat).weight.toNat + (entryAt node (entryAt node k).right.toNat).weight.toNat

/-- Record k joins the two least nodes that were active when it was made (R147). -/
def GreedyAt (node : NodeTable) (n k : Nat) : Prop :=
  ActiveAt node n k (entryAt node k).left.toNat ∧ ActiveAt node n k (entryAt node k).right.toNat ∧
    Precedes node (entryAt node k).left.toNat (entryAt node k).right.toNat ∧
    ∀ j, ActiveAt node n k j → j ≠ (entryAt node k).left.toNat → j ≠ (entryAt node k).right.toNat →
      Precedes node (entryAt node k).right.toNat j

theorem AgreeBelow.internalAt {node node' : NodeTable} {k : Nat} (h : AgreeBelow node node' (k + 1))
    (hk : InternalAt node k) : InternalAt node' k := by
  obtain ⟨hleaf, hsym, hleft, hright, hne, hweight⟩ := hk
  rw [InternalAt, h k (by omega), h _ (by omega : (entryAt node k).left.toNat < k + 1),
    h _ (by omega : (entryAt node k).right.toNat < k + 1)]
  exact ⟨hleaf, hsym, hleft, hright, hne, hweight⟩

theorem AgreeBelow.greedyAt {node node' : NodeTable} {n k : Nat} (h : AgreeBelow node node' (k + 1))
    (hk : GreedyAt node n k) : GreedyAt node' n k := by
  obtain ⟨hleft, hright, hlt, hleast⟩ := hk
  have hbelow : AgreeBelow node node' k := h.mono (by omega)
  rw [GreedyAt, h k (by omega), hbelow.activeAt, hbelow.activeAt, hbelow.precedes hleft.1 hright.1]
  refine ⟨hleft, hright, hlt, fun j hj hjl hjr => ?_⟩
  rw [hbelow.activeAt] at hj
  rw [hbelow.precedes hright.1 hj.1]
  exact hleast j hj hjl hjr

/-! ## The merge loop -/

/-- What the merge loop keeps (R147 to R149): below `next` stand the leaves and after them greedy internal records, each
record the child of at most one of them; the active set is what has no parent, and its weights add up to all counts. -/
structure Forest (freq : FreqTable) (m : Merge) : Prop where
  leaf : ∀ k (h : k < (leafSyms freq).length), entryAt m.node k = leafOf freq (leafSyms freq)[k]
  internal : ∀ k, (leafSyms freq).length ≤ k → k < m.next → InternalAt m.node k
  greedy : ∀ k, (leafSyms freq).length ≤ k → k < m.next → GreedyAt m.node (leafSyms freq).length k
  one_parent : ∀ c p q, ParentOf m.node (leafSyms freq).length m.next p c →
    ParentOf m.node (leafSyms freq).length m.next q c → p = q
  active : ∀ j, j ∈ m.active ↔ ActiveAt m.node (leafSyms freq).length m.next j
  nodup : m.active.Nodup
  next_ge : (leafSyms freq).length ≤ m.next
  size : m.active.length + m.next = 2 * (leafSyms freq).length
  total : (m.active.map fun j => (entryAt m.node j).weight.toNat).sum = totalCount freq

/-- The merge loop's start: the leaves, all active (R148). -/
theorem forest_leaves (freq : FreqTable) (node : NodeTable) :
    Forest freq
      { node := (makeLeaves freq node).2, active := List.range (makeLeaves freq node).1
        next := (makeLeaves freq node).1 } := by
  have hn := makeLeaves_count freq node
  have hleaf := makeLeaves_entry freq node
  have hnone : ∀ p c, ¬ParentOf (makeLeaves freq node).2 (leafSyms freq).length (makeLeaves freq node).1 p c :=
    fun p c h => by have := h.1; have := h.2.1; omega
  refine ⟨hleaf, fun k _ _ => by simp only at *; omega, fun k _ _ => by simp only at *; omega,
    fun c p q hp => absurd hp (hnone p c), fun j => ?_, List.nodup_range, hn.ge, ?_, ?_⟩
  · simp [ActiveAt, hnone]
  · simp only [List.length_range]
    omega
  · rw [totalCount, ← sum_counted, ← leafSyms, hn]
    congr 1
    refine List.ext_getElem (by simp) fun k h₁ h₂ => ?_
    have hk : k < (leafSyms freq).length := by simpa using h₁
    have hlt := (entryAt freq (leafSyms freq)[k]).isLt
    simp only [List.getElem_map, List.getElem_range, hleaf k hk, leafOf, BitVec.toNat_setWidth]
    omega

/-- The record a merge makes. -/
theorem mergedNode_spec {freq : FreqTable} {m : Merge} (hf : Forest freq m) {a b : Nat} (ha : a ∈ m.active)
    (hb : b ∈ m.active.erase a) : m.next < 511 ∧ a < m.next ∧ b < m.next ∧ b ∈ m.active ∧ b ≠ a ∧
      (mergedNode m.node a b).left.toNat = a ∧ (mergedNode m.node a b).right.toNat = b ∧
      (mergedNode m.node a b).weight.toNat =
        (entryAt m.node a).weight.toNat + (entryAt m.node b).weight.toNat := by
  obtain ⟨hne, hb'⟩ := (hf.nodup.mem_erase_iff).1 hb
  have halt := ((hf.active a).1 ha).1
  have hblt := ((hf.active b).1 hb').1
  have hlen := leafSyms_length_le freq
  have hsize := hf.size
  have h1 := List.length_erase_of_mem ha
  have h2 := List.length_pos_of_mem hb
  have hsum := hf.total
  rw [← List.sum_map_erase _ ha, ← List.sum_map_erase _ hb] at hsum
  have htotal := totalCount_lt freq
  refine ⟨by omega, halt, hblt, hb', hne, ?_, ?_, ?_⟩
  · simp only [mergedNode, BitVec.toNat_ofNat]
    exact Nat.mod_eq_of_lt (by omega)
  · simp only [mergedNode, BitVec.toNat_ofNat]
    exact Nat.mod_eq_of_lt (by omega)
  · simp only [mergedNode, BitVec.toNat_add]
    exact Nat.mod_eq_of_lt (by omega)

/-- The merge loop's state after one merge of a and b (R148). -/
def Merge.join (m : Merge) (a b : Nat) : Merge :=
  { node := putEntry m.node m.next (mergedNode m.node a b), active := (m.active.erase a).erase b ++ [m.next]
    next := m.next + 1 }

/-- Among the records up to `next`, the new one is the parent of a and b, and no other parent is new. -/
theorem parentOf_join {freq : FreqTable} {m : Merge} (hf : Forest freq m) {a b : Nat} (ha : a ∈ m.active)
    (hb : b ∈ m.active.erase a) (p c : Nat) :
    ParentOf (m.join a b).node (leafSyms freq).length (m.join a b).next p c ↔
      ParentOf m.node (leafSyms freq).length m.next p c ∨ (p = m.next ∧ (a = c ∨ b = c)) := by
  obtain ⟨hroom, _, _, _, _, hleft, hright, _⟩ := mergedNode_spec hf ha hb
  have hagree := agreeBelow_putEntry m.node m.next (mergedNode m.node a b)
  have hge := hf.next_ge
  rw [← hagree.parentOf (n := (leafSyms freq).length)]
  simp only [ParentOf, Merge.join]
  by_cases hp : p = m.next
  · subst hp
    simp only [entryAt_putEntry_same _ _ _ hroom, hleft, hright]
    simp [hge]
  · simp only [hp, false_and, or_false]
    refine and_congr_right fun _ => and_congr_left fun _ => ?_
    omega

/-- No record is a child of a record that comes before it. -/
theorem Forest.parent_gt {freq : FreqTable} {m : Merge} (hf : Forest freq m) {p c : Nat}
    (h : ParentOf m.node (leafSyms freq).length m.next p c) : c < p := by
  obtain ⟨hp, hp', hc⟩ := h
  obtain ⟨_, _, hleft, hright, _⟩ := hf.internal p hp hp'
  omega

theorem activeAt_join {freq : FreqTable} {m : Merge} (hf : Forest freq m) {a b : Nat} (ha : a ∈ m.active)
    (hb : b ∈ m.active.erase a) (j : Nat) :
    ActiveAt (m.join a b).node (leafSyms freq).length (m.join a b).next j ↔
      (j ∈ m.active ∧ j ≠ a ∧ j ≠ b) ∨ j = m.next := by
  obtain ⟨_, halt, hblt, _, _⟩ := mergedNode_spec hf ha hb
  simp only [ActiveAt, parentOf_join hf ha hb, hf.active j]
  constructor
  · rintro ⟨hj, hnone⟩
    by_cases hnext : j = m.next
    · exact .inr hnext
    · have hj' : j < m.next := by simp only [Merge.join] at hj; omega
      exact .inl ⟨⟨hj', fun p hp => hnone p (.inl hp)⟩, fun h => hnone m.next (.inr ⟨rfl, .inl h.symm⟩),
        fun h => hnone m.next (.inr ⟨rfl, .inr h.symm⟩)⟩
  · rintro (⟨⟨hj, hnone⟩, hja, hjb⟩ | rfl)
    · refine ⟨by simp only [Merge.join]; omega, fun p hp => ?_⟩
      obtain hp | ⟨_, h | h⟩ := hp
      · exact hnone p hp
      · exact hja h.symm
      · exact hjb h.symm
    · refine ⟨by simp only [Merge.join]; omega, fun p hp => ?_⟩
      obtain hp | ⟨_, h | h⟩ := hp
      · have := hf.parent_gt hp
        have := hp.2.1
        omega
      · omega
      · omega

/-- A merge of the two least active nodes keeps the forest (R147, R148). -/
theorem forest_join {freq : FreqTable} {m : Merge} (hf : Forest freq m) {a b : Nat} (ha : a ∈ m.active)
    (hleast : ∀ j ∈ m.active, j ≠ a → Precedes m.node a j) (hb : b ∈ m.active.erase a)
    (hnext : ∀ j ∈ m.active.erase a, j ≠ b → Precedes m.node b j) : Forest freq (m.join a b) := by
  obtain ⟨hroom, halt, hblt, hb', hne, hleft, hright, hweight⟩ := mergedNode_spec hf ha hb
  have hagree : AgreeBelow m.node (m.join a b).node m.next := agreeBelow_putEntry _ _ _
  have hnew : entryAt (m.join a b).node m.next = mergedNode m.node a b := entryAt_putEntry_same _ _ _ hroom
  have hge := hf.next_ge
  have hsize := hf.size
  constructor
  case leaf =>
    intro k hk
    rw [hagree k (by omega)]
    exact hf.leaf k hk
  case internal =>
    intro k hk hk'
    obtain hlt | rfl : k < m.next ∨ k = m.next := by simp only [Merge.join] at hk'; omega
    · exact (hagree.mono hlt).internalAt (hf.internal k hk hlt)
    · rw [InternalAt, hnew, hleft, hright, hagree a halt, hagree b hblt]
      exact ⟨rfl, rfl, halt, hblt, fun h => hne (hright.symm.trans (h ▸ hleft)), hweight⟩
  case greedy =>
    intro k hk hk'
    obtain hlt | rfl : k < m.next ∨ k = m.next := by simp only [Merge.join] at hk'; omega
    · exact (hagree.mono hlt).greedyAt (hf.greedy k hk hlt)
    · rw [GreedyAt, hnew, hleft, hright, hagree.activeAt, hagree.activeAt, hagree.precedes halt hblt, ← hf.active,
        ← hf.active]
      refine ⟨ha, hb', hleast b hb' hne, fun j hj hja hjb => ?_⟩
      rw [hagree.activeAt, ← hf.active] at hj
      rw [hagree.precedes hblt ((hf.active j).1 hj).1]
      exact hnext j (hf.nodup.mem_erase_iff.2 ⟨hja, hj⟩) hjb
  case one_parent =>
    have hnot : ∀ p c, ParentOf m.node (leafSyms freq).length m.next p c → ¬(a = c ∨ b = c) := by
      rintro p c hp (rfl | rfl)
      · exact ((hf.active a).1 ha).2 p hp
      · exact ((hf.active b).1 hb').2 p hp
    intro c p q hp hq
    rw [parentOf_join hf ha hb] at hp hq
    obtain hp | ⟨rfl, hp⟩ := hp <;> obtain hq | ⟨rfl, hq⟩ := hq
    · exact hf.one_parent c p q hp hq
    · exact absurd hq (hnot p c hp)
    · exact absurd hp (hnot q c hq)
    · rfl
  case active =>
    intro j
    rw [activeAt_join hf ha hb, Merge.join, List.mem_append, List.mem_singleton,
      (hf.nodup.erase a).mem_erase_iff, hf.nodup.mem_erase_iff]
    tauto
  case nodup =>
    refine List.nodup_append.2 ⟨(hf.nodup.erase a).erase b, List.nodup_singleton _, ?_⟩
    intro j hj k hk
    have := ((hf.active j).1 (List.mem_of_mem_erase (List.mem_of_mem_erase hj))).1
    have := List.mem_singleton.1 hk
    omega
  case next_ge => exact Nat.le_succ_of_le hge
  case size =>
    have h1 := List.length_erase_of_mem ha
    have h2 := List.length_erase_of_mem hb
    have h3 := List.length_pos_of_mem ha
    have h4 := List.length_pos_of_mem hb
    simp only [Merge.join, List.length_append, List.length_singleton]
    omega
  case total =>
    have hold : ((m.active.erase a).erase b).map (fun j => (entryAt (m.join a b).node j).weight.toNat) =
        ((m.active.erase a).erase b).map fun j => (entryAt m.node j).weight.toNat := by
      refine List.map_congr_left fun j hj => ?_
      rw [hagree j ((hf.active j).1 (List.mem_of_mem_erase (List.mem_of_mem_erase hj))).1]
    have hsum := hf.total
    rw [← List.sum_map_erase _ ha, ← List.sum_map_erase _ hb] at hsum
    have hjoin : (m.join a b).active = (m.active.erase a).erase b ++ [m.next] := rfl
    rw [hjoin, List.map_append, List.sum_append, hold]
    simp only [List.map_cons, List.map_nil, List.sum_cons, List.sum_nil, hnew, hweight]
    omega

/-- The merge loop keeps the forest, and ends with at most one active node when its fuel lets it (R148, R149). -/
theorem forest_mergeLoop {freq : FreqTable} (fuel : Nat) {m : Merge} (hf : Forest freq m)
    (hfuel : m.active.length ≤ fuel + 1) :
    Forest freq (mergeLoop fuel m) ∧ (mergeLoop fuel m).active.length ≤ 1 := by
  induction fuel generalizing m with
  | zero => exact ⟨hf, hfuel⟩
  | succ fuel ih =>
    unfold mergeLoop
    split
    next hnone => exact ⟨hf, by simp [takeLeast_none hnone]⟩
    next a rest htake =>
      obtain ⟨ha, rfl, hleast⟩ := takeLeast_some htake
      have h1 := List.length_erase_of_mem ha
      split
      next hnone =>
        refine ⟨hf, ?_⟩
        rw [takeLeast_none hnone, List.length_nil] at h1
        omega
      next b rest' htake' =>
        obtain ⟨hb, rfl, hnext⟩ := takeLeast_some htake'
        have h2 := List.length_erase_of_mem hb
        have h3 := List.length_pos_of_mem hb
        refine ih (forest_join hf ha hleast hb hnext) ?_
        simp only [List.length_append, List.length_singleton]
        omega

/-- What the forest says when one node is active: it is the root, the last record made (R148, R149). -/
theorem Forest.single {freq : FreqTable} {m : Merge} (hf : Forest freq m) (hle : m.active.length ≤ 1)
    (hsome : leafSyms freq ≠ []) : m.next = 2 * (leafSyms freq).length - 1 ∧ m.active = [m.next - 1] := by
  have hpos := List.length_pos_of_ne_nil hsome
  have hge := hf.next_ge
  have hsize := hf.size
  have hlast : m.next - 1 ∈ m.active := by
    refine (hf.active _).2 ⟨by omega, fun p hp => ?_⟩
    have := hf.parent_gt hp
    have := hp.2.1
    omega
  have hone : m.active.length = 1 := by
    have := List.length_pos_of_mem hlast
    omega
  obtain ⟨r, hr⟩ := List.length_eq_one_iff.1 hone
  rw [hr, List.mem_singleton] at hlast
  exact ⟨by omega, by rw [hr, hlast]⟩

/-- A forest with one active node, held in NODE, NSYM, NNODE and ROOT, is a strict greedy tree over the counted symbols,
and its root weighs all counts. -/
theorem Forest.tree {s : State} {m : Merge} (hf : Forest s.freq m) (hle : m.active.length ≤ 1)
    (hsome : leafSyms s.freq ≠ []) (hnode : s.node = m.node) (hnsym : s.nsym.toNat = (leafSyms s.freq).length)
    (hnnode : s.nnode.toNat = m.next) (hroot : s.root.toNat = m.next - 1) :
    TreeOk s ∧ GreedyTree s ∧ (entryAt s.node s.root.toNat).weight.toNat = totalCount s.freq := by
  obtain ⟨hnext, hactive⟩ := hf.single hle hsome
  have hpos := List.length_pos_of_ne_nil hsome
  have hsyms := mem_leafSyms s.freq
  have hsym : ∀ k (hk : k < (leafSyms s.freq).length),
      (entryAt m.node k).sym.toNat = (leafSyms s.freq)[k] := fun k hk => by
    have hlt := ((hsyms _).1 (List.getElem_mem hk)).1
    simp only [hf.leaf k hk, leafOf, BitVec.toNat_ofNat]
    exact Nat.mod_eq_of_lt hlt
  have hsorted := List.pairwise_iff_getElem.1 (leafSyms_sorted s.freq)
  refine ⟨?_, ?_, ?_⟩
  · constructor <;> simp only [hnode, hnsym, hnnode, hroot]
    case some_leaf => exact hpos
    case few_leaves => exact leafSyms_length_le s.freq
    case size => exact hnext
    case leaves =>
      intro k hk
      simp [hf.leaf k hk, leafOf]
    case counts =>
      intro k hk
      have hcount := ((hsyms _).1 (List.getElem_mem hk)).2
      have hlt := (entryAt s.freq (leafSyms s.freq)[k]).isLt
      have hweight : (entryAt m.node k).weight.toNat = (entryAt s.freq (leafSyms s.freq)[k]).toNat := by
        simp only [hf.leaf k hk, leafOf, BitVec.toNat_setWidth]
        exact Nat.mod_eq_of_lt (by omega)
      refine ⟨by rw [hsym k hk, hweight], fun h => hcount ?_⟩
      rw [h] at hweight
      exact BitVec.eq_of_toNat_eq hweight.symm
    case ascending =>
      intro j k hjk hk
      rw [hsym j (by omega), hsym k hk]
      exact hsorted j k (by omega) hk hjk
    case complete =>
      intro x hx hcount
      obtain ⟨k, hk, hkx⟩ := List.getElem_of_mem ((hsyms x).2 ⟨hx, hcount⟩)
      exact ⟨k, hk, (hsym k hk).trans hkx⟩
    case internal => exact hf.internal
    case parent =>
      intro c hc
      by_contra hnone
      have hmem := (hf.active c).2 ⟨by omega, fun p hp => hnone ⟨p, hp⟩⟩
      rw [hactive, List.mem_singleton] at hmem
      omega
    case one_parent => exact hf.one_parent
  · rw [GreedyTree, hnode, hnsym, hnnode]
    exact hf.greedy
  · have htotal := hf.total
    rw [hactive] at htotal
    rw [hnode, hroot]
    simpa using htotal

/-- BUILD leaves the strict greedy tree of FREQ (R148). -/
theorem buildRule_tree {s t : State} (h : buildRule s = .ok t) :
    TreeOk t ∧ GreedyTree t ∧ (entryAt t.node t.root.toNat).weight.toNat = totalCount s.freq := by
  obtain ⟨hsome, rfl⟩ := buildRule_ok h
  have hn := makeLeaves_count s.freq s.node
  have hne : leafSyms s.freq ≠ [] := fun hnil => hsome (by rw [hn, hnil]; rfl)
  obtain ⟨hf, hle⟩ : Forest s.freq (builtTree s) ∧ (builtTree s).active.length ≤ 1 :=
    forest_mergeLoop _ (forest_leaves s.freq s.node) (by simp)
  obtain ⟨hnext, hactive⟩ := hf.single hle hne
  have hlen := leafSyms_length_le s.freq
  refine Forest.tree (m := builtTree s) ?_ hle ?_ ?_ ?_ ?_ ?_
  · exact hf
  · exact hne
  · rfl
  · simp only [hn, BitVec.toNat_ofNat]
    exact Nat.mod_eq_of_lt (by omega)
  · simp only [BitVec.toNat_ofNat]
    exact Nat.mod_eq_of_lt (by omega)
  · simp only [hactive, List.headD_cons, BitVec.toNat_ofNat]
    exact Nat.mod_eq_of_lt (by omega)

end Sys2Proof.Machine
end

section
/-! SUPPORT. The codebook WALK makes of a tree (spec 42_codebook.md R160 to R164), and the count of a codebook's valid
entries (10_state.md R44). -/

namespace Sys2Proof.Machine

/-! ## Paths -/

theorem follow_cons (node : NodeTable) (i : Nat) (b : Bool) (p : Bits) :
    follow node i (b :: p) =
      if (entryAt node i).leaf then none
      else follow node (if b then (entryAt node i).right.toNat else (entryAt node i).left.toNat) p := rfl

theorem follow_append {node : NodeTable} {i j : Nat} {p : Bits} (h : follow node i p = some j) (q : Bits) :
    follow node i (p ++ q) = follow node j q := by
  induction p generalizing i with
  | nil =>
    cases h
    rfl
  | cons b p ih =>
    rw [follow_cons] at h
    rw [List.cons_append, follow_cons]
    split at h
    · cases h
    next hleaf =>
      rw [if_neg hleaf]
      exact ih h

/-- A path goes on from an internal node only. -/
theorem follow_leaf {node : NodeTable} {i j : Nat} {p : Bits} (hleaf : (entryAt node i).leaf = true)
    (h : follow node i p = some j) : p = [] ∧ j = i := by
  cases p with
  | nil =>
    cases h
    exact ⟨rfl, rfl⟩
  | cons b p => simp [follow_cons, hleaf] at h

/-- Below b the children of every internal record come before it. -/
def Descending (node : NodeTable) (b : Nat) : Prop :=
  ∀ k, k < b → (entryAt node k).leaf = false → (entryAt node k).left.toNat < k ∧ (entryAt node k).right.toNat < k

/-! ## The walk -/

/-- The path p leads from node i to a leaf of symbol x. -/
def LeadsTo (node : NodeTable) (i : Nat) (p : Bits) (x : Nat) : Prop :=
  ∃ k, follow node i p = some k ∧ (entryAt node k).leaf = true ∧ (entryAt node k).sym.toNat = x

theorem leadsTo_leaf {node : NodeTable} {i x : Nat} {p : Bits} (hleaf : (entryAt node i).leaf = true) :
    LeadsTo node i p x ↔ p = [] ∧ (entryAt node i).sym.toNat = x := by
  constructor
  · rintro ⟨k, hk, _, hsym⟩
    obtain ⟨rfl, rfl⟩ := follow_leaf hleaf hk
    exact ⟨rfl, hsym⟩
  · rintro ⟨rfl, hsym⟩
    exact ⟨i, rfl, hleaf, hsym⟩

theorem leadsTo_cons {node : NodeTable} {i x : Nat} {b : Bool} {p : Bits} (hleaf : (entryAt node i).leaf = false) :
    LeadsTo node i (b :: p) x ↔
      LeadsTo node (if b then (entryAt node i).right.toNat else (entryAt node i).left.toNat) p x := by
  simp [LeadsTo, follow_cons, hleaf]

theorem not_leadsTo_nil {node : NodeTable} {i x : Nat} (hleaf : (entryAt node i).leaf = false) :
    ¬LeadsTo node i [] x := by
  rintro ⟨k, hk, hk', _⟩
  cases hk
  simp [hleaf] at hk'

/-- What the walk from node i has done to the entry of symbol x: a path to a leaf of x is its code, or there is none and
the entry is as before (R161). -/
def EntryWalked (node : NodeTable) (i : Nat) (path : Bits) (code code' : CodeTable) (x : Nat) : Prop :=
  (∃ p, LeadsTo node i p x ∧ entryAt code' x = { valid := true, bits := path ++ p }) ∨
    ((∀ p, ¬LeadsTo node i p x) ∧ entryAt code' x = entryAt code x)

/-- The walk of two subtrees, left before right. -/
theorem EntryWalked.both {node : NodeTable} {i x : Nat} {path : Bits} {c₀ c₁ c₂ : CodeTable}
    (hleaf : (entryAt node i).leaf = false)
    (hl : EntryWalked node (entryAt node i).left.toNat (path ++ [false]) c₀ c₁ x)
    (hr : EntryWalked node (entryAt node i).right.toNat (path ++ [true]) c₁ c₂ x) :
    EntryWalked node i path c₀ c₂ x := by
  obtain ⟨p, hp, hcode⟩ | ⟨hnone, hkeep⟩ := hr
  · exact .inl ⟨true :: p, (leadsTo_cons hleaf).2 hp, by simpa using hcode⟩
  · obtain ⟨p, hp, hcode⟩ | ⟨hnone', hkeep'⟩ := hl
    · exact .inl ⟨false :: p, (leadsTo_cons hleaf).2 hp, by simpa [hkeep] using hcode⟩
    · refine .inr ⟨fun p => ?_, hkeep.trans hkeep'⟩
      match p with
      | [] => exact not_leadsTo_nil hleaf
      | false :: p => exact fun h => hnone' p ((leadsTo_cons hleaf).1 h)
      | true :: p => exact fun h => hnone p ((leadsTo_cons hleaf).1 h)

/-- The walk ends, and does to each entry what `EntryWalked` says. -/
theorem walkFrom_spec {node : NodeTable} {b : Nat} (hdown : Descending node b) (fuel i : Nat) (path : Bits)
    (code : CodeTable) (hi : i < b) (hfuel : i < fuel) :
    ∃ code', walkFrom node fuel i path code = some code' ∧ ∀ x, x < 256 → EntryWalked node i path code code' x := by
  induction fuel generalizing i path code with
  | zero => omega
  | succ fuel ih =>
    unfold walkFrom
    cases hleaf : (entryAt node i).leaf
    · obtain ⟨hleft, hright⟩ := hdown i hi hleaf
      obtain ⟨c₁, hc₁, hl⟩ := ih _ (path ++ [false]) code (by omega) (by omega : (entryAt node i).left.toNat < fuel)
      obtain ⟨c₂, hc₂, hr⟩ := ih _ (path ++ [true]) c₁ (by omega) (by omega : (entryAt node i).right.toNat < fuel)
      exact ⟨c₂, by simp [hc₁, hc₂], fun x hx => (hl x hx).both hleaf (hr x hx)⟩
    · refine ⟨_, if_pos rfl, fun x hx => ?_⟩
      by_cases hx' : (entryAt node i).sym.toNat = x
      · subst hx'
        exact .inl ⟨[], (leadsTo_leaf hleaf).2 ⟨rfl, rfl⟩, by simp [entryAt_putEntry_same _ _ _ hx]⟩
      · exact .inr ⟨fun p h => hx' ((leadsTo_leaf hleaf).1 h).2, entryAt_putEntry_other _ _ _ _ (Ne.symm hx')⟩

/-! ## The tree's paths -/

section
variable {s : State} (ht : TreeOk s)
include ht

theorem TreeOk.leaf_iff {k : Nat} (hk : k < s.nnode.toNat) : (entryAt s.node k).leaf = true ↔ k < s.nsym.toNat := by
  constructor
  · intro hleaf
    by_contra hge
    have hint := (ht.internal k (by omega) hk).1
    simp [hleaf] at hint
  · exact fun h => (ht.leaves k h).1

theorem TreeOk.descending : Descending s.node s.nnode.toNat := by
  intro k hk hleaf
  have hge : s.nsym.toNat ≤ k := by
    by_contra hlt
    simp [(ht.leaf_iff hk).2 (by omega)] at hleaf
  obtain ⟨_, _, hleft, hright, _⟩ := ht.internal k hge hk
  exact ⟨hleft, hright⟩

theorem TreeOk.sym_injective {j k : Nat} (hj : j < s.nsym.toNat) (hk : k < s.nsym.toNat)
    (h : (entryAt s.node j).sym.toNat = (entryAt s.node k).sym.toNat) : j = k := by
  by_contra hne
  obtain hlt | hlt := Nat.lt_or_gt_of_ne hne
  · exact absurd h (ht.ascending j k hlt hk).ne
  · exact absurd h (ht.ascending k j hlt hj).ne'

/-- Every record up to the root is reached from the root: it has a parent, which comes after it (R149). -/
theorem TreeOk.reached (d : Nat) {k : Nat} (hk : k + d = s.root.toNat) :
    ∃ p, follow s.node s.root.toNat p = some k := by
  induction d using Nat.strong_induction_on generalizing k with
  | _ d ih =>
    obtain rfl | hd := Nat.eq_zero_or_pos d
    · exact ⟨[], by simp [follow, ← hk]⟩
    · have hroot := ht.root
      obtain ⟨q, hq, hq', hchild⟩ := ht.parent k (by omega)
      obtain ⟨hleaf, _, hleft, hright, _⟩ := ht.internal q hq hq'
      obtain ⟨p, hp⟩ := ih (s.root.toNat - q) (by omega) (k := q) (by omega)
      obtain hc | hc := hchild
      · exact ⟨p ++ [false], by simp [follow_append hp, hleaf, hc, follow]⟩
      · exact ⟨p ++ [true], by simp [follow_append hp, hleaf, hc, follow]⟩

/-- A path passes internal records of falling index, so it is no longer than there are such records (R164). -/
theorem TreeOk.path_length {i k : Nat} {p : Bits} (hi : i < s.nnode.toNat) (h : follow s.node i p = some k) :
    p.length ≤ i + 1 - s.nsym.toNat ∧ k < s.nnode.toNat := by
  induction p generalizing i with
  | nil =>
    cases h
    exact ⟨Nat.zero_le _, hi⟩
  | cons b p ih =>
    rw [follow_cons] at h
    split at h
    · cases h
    next hleaf =>
      have hge : s.nsym.toNat ≤ i := by
        by_contra hlt
        exact hleaf ((ht.leaf_iff hi).2 (by omega))
      obtain ⟨hleft, hright⟩ := ht.descending i hi (by simpa using hleaf)
      have hchild : (if b then (entryAt s.node i).right.toNat else (entryAt s.node i).left.toNat) < i := by
        split <;> assumption
      obtain ⟨hlen, hk⟩ := ih (by omega) h
      exact ⟨by rw [List.length_cons]; omega, hk⟩

theorem TreeOk.root_lt : s.root.toNat < s.nnode.toNat := by
  have := ht.some_leaf
  have := ht.size
  have := ht.root
  omega

theorem TreeOk.nnode_le : s.nnode.toNat ≤ 511 := by
  have := ht.few_leaves
  have := ht.size
  omega

/-- A path from the root leads to a leaf of x when x is the symbol of one of the leaf records. -/
theorem TreeOk.leadsTo_root {p : Bits} {x : Nat} (h : LeadsTo s.node s.root.toNat p x) :
    ∃ k, k < s.nsym.toNat ∧ follow s.node s.root.toNat p = some k ∧ (entryAt s.node k).sym.toNat = x := by
  obtain ⟨k, hk, hleaf, hsym⟩ := h
  exact ⟨k, (ht.leaf_iff (ht.path_length ht.root_lt hk).2).1 hleaf, hk, hsym⟩

theorem TreeOk.leadsTo_sym {k : Nat} (hk : k < s.nsym.toNat) :
    ∃ p, LeadsTo s.node s.root.toNat p (entryAt s.node k).sym.toNat := by
  have := ht.size
  have := ht.root
  obtain ⟨p, hp⟩ := ht.reached (s.root.toNat - k) (k := k) (by omega)
  exact ⟨p, k, hp, (ht.leaves k hk).1, rfl⟩

end

/-! ## The codebook of a tree -/

/-- Each leaf's symbol has its path from the root as its code ("0" when the tree is one leaf), and no other symbol has
one (R161, R162). -/
structure WalkedCode (s : State) (code : CodeTable) : Prop where
  leaves : ∀ k, k < s.nsym.toNat → ∃ path, follow s.node s.root.toNat path = some k ∧
    entryAt code (entryAt s.node k).sym.toNat =
      { valid := true, bits := if s.nsym.toNat = 1 then [false] else path }
  others : ∀ x, x < 256 → (∀ k, k < s.nsym.toNat → (entryAt s.node k).sym.toNat ≠ x) →
    entryAt code x = { valid := false, bits := [] }

/-- WALK of a tree ends, and leaves the tree's codebook (R161 to R164). -/
theorem walkTree_spec {s : State} (ht : TreeOk s) :
    ∃ code, walkTree s.node s.root.toNat = some code ∧ WalkedCode s code := by
  have hsome := ht.some_leaf
  have hsize := ht.size
  have hroot := ht.root
  unfold walkTree
  by_cases hone : s.nsym.toNat = 1
  · have hzero : s.root.toNat = 0 := by omega
    have hleaf : (entryAt s.node 0).leaf = true := (ht.leaves 0 (by omega)).1
    rw [hzero, if_pos hleaf]
    refine ⟨_, rfl, fun k hk => ⟨[], ?_, ?_⟩, fun x hx hother => ?_⟩
    · rw [hzero, show k = 0 by omega]
      rfl
    · rw [show k = 0 by omega, entryAt_putEntry_same _ _ _ (entryAt s.node 0).sym.isLt, if_pos hone]
    · rw [entryAt_putEntry_other _ _ _ _ (Ne.symm (hother 0 (by omega))), emptyCode_entry x hx]
      rfl
  · have hleaf : ¬(entryAt s.node s.root.toNat).leaf = true := fun h => by
      have := (ht.leaf_iff ht.root_lt).1 h
      omega
    rw [if_neg hleaf]
    have hfuel : s.root.toNat < Config.nodeMax + 1 := by
      have := ht.nnode_le
      simp only [Config.nodeMax]
      omega
    obtain ⟨code, hwalk, hentry⟩ := walkFrom_spec ht.descending _ _ [] emptyCode ht.root_lt hfuel
    refine ⟨code, hwalk, fun k hk => ?_, fun x hx hother => ?_⟩
    · obtain ⟨q, hq⟩ := ht.leadsTo_sym hk
      obtain ⟨p, hp, hcode⟩ | ⟨hnone, _⟩ := hentry _ (entryAt s.node k).sym.isLt
      · obtain ⟨j, hj, hfollow, hsym⟩ := ht.leadsTo_root hp
        obtain rfl := ht.sym_injective hj hk hsym
        exact ⟨p, hfollow, by simpa [hone] using hcode⟩
      · exact absurd hq (hnone q)
    · obtain ⟨p, hp, _⟩ | ⟨_, hkeep⟩ := hentry x hx
      · obtain ⟨j, hj, _, hsym⟩ := ht.leadsTo_root hp
        exact absurd hsym (hother j hj)
      · rw [hkeep, emptyCode_entry x hx]
        rfl

/-! ## Counting the valid entries -/

theorem toList_eq_map_entryAt (code : CodeTable) : code.toList = (List.range 256).map (entryAt code) := by
  refine List.ext_getElem (by simp) fun x h₁ h₂ => ?_
  have hx : x < 256 := by simpa using h₁
  simp [entryAt_eq_getElem code x hx]

/-- The symbols of the valid entries, in ascending order. -/
def validSyms (code : CodeTable) : List Nat := (List.range 256).filter fun x => (entryAt code x).valid

theorem mem_validSyms (code : CodeTable) (x : Nat) : x ∈ validSyms code ↔ x < 256 ∧ (entryAt code x).valid = true := by
  simp [validSyms]

theorem validSyms_nodup (code : CodeTable) : (validSyms code).Nodup := List.nodup_range.filter _

theorem validCodes_eq (code : CodeTable) : validCodes code = (validSyms code).map fun x => (entryAt code x).bits := by
  rw [validCodes, toList_eq_map_entryAt, List.filter_map, List.map_map]
  rfl

/-- A duplicate-free list of exactly the valid symbols counts them. -/
theorem numValid_eq_length {code : CodeTable} {l : List Nat} (hl : l.Nodup)
    (hmem : ∀ x, x ∈ l ↔ x < 256 ∧ (entryAt code x).valid = true) : numValid code = l.length := by
  rw [numValid, validCodes_eq, List.length_map]
  exact ((List.perm_ext_iff_of_nodup (validSyms_nodup code) hl).2 fun x => by rw [mem_validSyms, hmem]).length_eq

/-! ## The codebook of a tree is a codebook -/

/-- A valid entry is that of a leaf (R161). -/
theorem WalkedCode.leaf_of_valid {s : State} {code : CodeTable} (hw : WalkedCode s code) {x : Nat}
    (hx : x < 256) (hvalid : (entryAt code x).valid = true) :
    ∃ k path, k < s.nsym.toNat ∧ (entryAt s.node k).sym.toNat = x ∧ follow s.node s.root.toNat path = some k ∧
      (entryAt code x).bits = if s.nsym.toNat = 1 then [false] else path := by
  by_cases hleaf : ∃ k, k < s.nsym.toNat ∧ (entryAt s.node k).sym.toNat = x
  · obtain ⟨k, hk, rfl⟩ := hleaf
    obtain ⟨path, hpath, hcode⟩ := hw.leaves k hk
    exact ⟨k, path, hk, rfl, hpath, by rw [hcode]⟩
  · rw [hw.others x hx fun k hk h => hleaf ⟨k, hk, h⟩] at hvalid
    cases hvalid

theorem WalkedCode.valid_iff {s : State} {code : CodeTable} (hw : WalkedCode s code) (x : Nat) (hx : x < 256) :
    (entryAt code x).valid = true ↔ ∃ k, k < s.nsym.toNat ∧ (entryAt s.node k).sym.toNat = x := by
  constructor
  · intro hvalid
    obtain ⟨k, _, hk, hsym, _⟩ := hw.leaf_of_valid hx hvalid
    exact ⟨k, hk, hsym⟩
  · rintro ⟨k, hk, rfl⟩
    obtain ⟨path, _, hcode⟩ := hw.leaves k hk
    rw [hcode]

section
variable {s : State} {code : CodeTable} (ht : TreeOk s) (hw : WalkedCode s code)
include ht hw

/-- WALK's codes are 1 to 255 bits long, and none begins another: a path that goes on from a leaf leads nowhere (R163,
R164). -/
theorem WalkedCode.codeOk : CodeOk code where
  lengths x hx hvalid := by
    obtain ⟨k, path, hk, _, hpath, hbits⟩ := hw.leaf_of_valid hx hvalid
    have hfew := ht.few_leaves
    have hsize := ht.size
    have hroot := ht.root
    rw [hbits]
    split
    · simp
    next hone =>
      have hlen := (ht.path_length ht.root_lt hpath).1
      have hpos : path ≠ [] := by
        rintro rfl
        cases hpath
        omega
      have := List.length_pos_of_ne_nil hpos
      omega
  empties x hx hvalid := by
    rw [hw.others x hx fun k hk hsym => ?_]
    rw [(hw.valid_iff x hx).2 ⟨k, hk, hsym⟩] at hvalid
    cases hvalid
  prefix_free x y hx hy hxy hvx hvy := by
    obtain ⟨j, p, hj, rfl, hp, hbits⟩ := hw.leaf_of_valid hx hvx
    obtain ⟨k, q, hk, rfl, hq, hbits'⟩ := hw.leaf_of_valid hy hvy
    have hone : s.nsym.toNat ≠ 1 := fun h => hxy (by rw [show j = k by omega])
    rw [hbits, hbits', if_neg hone, if_neg hone]
    rintro ⟨r, rfl⟩
    rw [follow_append hp] at hq
    obtain ⟨_, rfl⟩ := follow_leaf (ht.leaves j hj).1 hq
    exact hxy rfl

/-- WALK gives as many codes as there are leaves (R161). -/
theorem WalkedCode.numValid_eq : numValid code = s.nsym.toNat := by
  have hcount := numValid_eq_length (code := code)
    (l := (List.range s.nsym.toNat).map fun k => (entryAt s.node k).sym.toNat)
    (List.Nodup.map_on (fun j hj k hk h => ht.sym_injective (by simpa using hj) (by simpa using hk) h) List.nodup_range)
    fun x => ?_
  · simpa using hcount
  · simp only [List.mem_map, List.mem_range]
    constructor
    · rintro ⟨k, hk, rfl⟩
      exact ⟨(entryAt s.node k).sym.isLt, (hw.valid_iff _ (entryAt s.node k).sym.isLt).2 ⟨k, hk, rfl⟩⟩
    · exact fun ⟨hx, hvalid⟩ => (hw.valid_iff x hx).1 hvalid

end

end Sys2Proof.Machine
end

section
/-! SUPPORT. The codebook DESER accepts (spec 44_container.md R195, R196). -/

namespace Sys2Proof.Machine

theorem emptyCode_valid (x : Nat) (hx : x < 256) : (entryAt emptyCode x).valid = false := by
  rw [emptyCode_entry x hx]
  rfl

theorem emptyCode_codeOk : CodeOk emptyCode where
  lengths x hx hvalid := by simp [emptyCode_valid x hx] at hvalid
  empties x hx _ := by
    rw [emptyCode_entry x hx]
    rfl
  prefix_free x y hx _ _ hvalid _ := by simp [emptyCode_valid x hx] at hvalid

theorem emptyCode_numValid : numValid emptyCode = 0 :=
  numValid_eq_length (l := []) List.nodup_nil fun x => by
    simp only [List.not_mem_nil, false_iff, not_and]
    exact fun hx => by simp [emptyCode_valid x hx]

/-! ## The test of R196 -/

theorem unrelated_iff (b c : Bits) : unrelated b c = true ↔ ¬b <+: c ∧ ¬c <+: b := by
  simp [unrelated, ← List.isPrefixOf_iff_prefix]

theorem prefixFreeList_pairwise {l : List Bits} (h : prefixFreeList l = true) :
    l.Pairwise fun b c => unrelated b c = true := by
  induction l with
  | nil => exact .nil
  | cons b rest ih =>
    simp only [prefixFreeList, Bool.and_eq_true, List.all_eq_true] at h
    exact .cons h.1 (ih h.2)

/-- A codebook that passes PrefixFree has no code that begins another (R196). -/
theorem prefixFree_spec {code : CodeTable} (h : prefixFree code = true) (x y : Nat) (hx : x < 256) (hy : y < 256)
    (hxy : x ≠ y) (hvx : (entryAt code x).valid = true) (hvy : (entryAt code y).valid = true) :
    ¬(entryAt code x).bits <+: (entryAt code y).bits := by
  have hpair := prefixFreeList_pairwise h
  rw [validCodes_eq, List.pairwise_map] at hpair
  have hsymm : Std.Symm fun x y => unrelated (entryAt code x).bits (entryAt code y).bits = true :=
    ⟨fun x y h => (unrelated_iff _ _).2 ((unrelated_iff _ _).1 h).symm⟩
  have hunrelated := hpair.forall ((mem_validSyms code x).2 ⟨hx, hvx⟩) ((mem_validSyms code y).2 ⟨hy, hvy⟩) hxy
  exact ((unrelated_iff _ _).1 hunrelated).1

/-! ## The record loop -/

/-- What one pass of the record loop has tested and done (R195). -/
theorem deserRecord_ok {src : Memory} {e : Nat} {t t' : Parse} (h : deserRecord src e t = .ok t') :
    t.p + 2 ≤ e ∧ t.least ≤ (readByte .src src t.p).toNat ∧ (readByte .src src (t.p + 1)).toNat ≠ 0 ∧
      t.p + 2 + ceil8 (readByte .src src (t.p + 1)).toNat ≤ e ∧
      t' = { p := t.p + 2 + ceil8 (readByte .src src (t.p + 1)).toNat
             least := (readByte .src src t.p).toNat + 1
             code := putEntry t.code (readByte .src src t.p).toNat
              { valid := true, bits := bitsRead .src src (t.p + 2) 0 (readByte .src src (t.p + 1)).toNat } } := by
  simp only [deserRecord, raise] at h
  split at h
  · cases h
  split at h
  · cases h
  split at h
  · cases h
  split at h
  · cases h
  split at h
  · cases h
  exact ⟨by omega, by omega, by assumption, by omega, (Except.ok.inj h).symm⟩

/-- What the entries read so far are: k codes of 1 to 255 bits, of symbols below the next record's least one. -/
structure ParsedCode (t : Parse) (k : Nat) : Prop where
  above : ∀ x, x < 256 → t.least ≤ x → (entryAt t.code x).valid = false
  lengths : ∀ x, x < 256 → (entryAt t.code x).valid = true →
    1 ≤ (entryAt t.code x).bits.length ∧ (entryAt t.code x).bits.length ≤ 255
  empties : ∀ x, x < 256 → (entryAt t.code x).valid = false → (entryAt t.code x).bits = []
  count : numValid t.code = k

/-- A code for a symbol that has none adds one to the count. -/
theorem numValid_putEntry {code : CodeTable} {x : Nat} {b : Bits} (hx : x < 256)
    (hnew : (entryAt code x).valid = false) :
    numValid (putEntry code x { valid := true, bits := b }) = numValid code + 1 := by
  have hcode : numValid code = (validSyms code).length := by rw [numValid, validCodes_eq, List.length_map]
  have hmem : x ∉ validSyms code := by simp [mem_validSyms, hnew]
  rw [hcode]
  refine numValid_eq_length (l := x :: validSyms code) (List.nodup_cons.2 ⟨hmem, validSyms_nodup code⟩) fun y => ?_
  rw [List.mem_cons, mem_validSyms, entryAt_putEntry _ _ _ _ hx]
  by_cases hy : y = x
  · simp [hy, hx]
  · simp [hy]

theorem parsedCode_record {src : Memory} {e k : Nat} {t t' : Parse} (ht : ParsedCode t k)
    (h : deserRecord src e t = .ok t') : ParsedCode t' (k + 1) := by
  obtain ⟨_, hleast, hcl, _, rfl⟩ := deserRecord_ok h
  have hsym := (readByte .src src t.p).isLt
  have hclen := (readByte .src src (t.p + 1)).isLt
  constructor
  case above =>
    intro x hx hge
    rw [entryAt_putEntry_other _ _ _ _ (by simp only at hge; omega)]
    exact ht.above x hx (by simp only at hge; omega)
  case lengths =>
    intro x hx hvalid
    rw [entryAt_putEntry _ _ _ _ hsym] at hvalid ⊢
    split at hvalid
    next hxs =>
      simp only [hxs, if_true, bitsRead_length]
      omega
    next hxs =>
      rw [if_neg hxs]
      exact ht.lengths x hx hvalid
  case empties =>
    intro x hx hvalid
    rw [entryAt_putEntry _ _ _ _ hsym] at hvalid ⊢
    split at hvalid
    · cases hvalid
    next hxs =>
      rw [if_neg hxs]
      exact ht.empties x hx hvalid
  case count =>
    rw [numValid_putEntry hsym (ht.above _ hsym hleast), ht.count]

theorem parsedCode_records {src : Memory} {e k cnt : Nat} {t t' : Parse} (ht : ParsedCode t k)
    (h : deserRecords src e cnt t = .ok t') : ParsedCode t' (k + cnt) := by
  induction cnt generalizing t k with
  | zero =>
    cases h
    exact ht
  | succ cnt ih =>
    unfold deserRecords at h
    split at h
    · cases h
    next u hu =>
      rw [← Nat.add_assoc, Nat.add_right_comm]
      exact ih (parsedCode_record ht hu) h

/-- The table DESER accepts is a codebook, and its count is that of its header (R195, R196). -/
theorem deserTable_ok {src : Memory} {e : Nat} {code : CodeTable} {cnt : Nat}
    (h : deserTable src e = .ok (code, cnt)) : CodeOk code ∧ numValid code = cnt ∧ cnt ≤ 256 := by
  have hstart : ParsedCode { p := 7, least := 0, code := emptyCode } 0 :=
    ⟨fun x hx _ => emptyCode_valid x hx, emptyCode_codeOk.lengths, emptyCode_codeOk.empties, emptyCode_numValid⟩
  simp only [deserTable, raise] at h
  split at h
  · cases h
  split at h
  · cases h
  split at h
  · cases h
  next hcnt =>
    split at h
    · cases h
    next t hrecords =>
      split at h
      · cases h
      split at h
      · cases h
      next hfree =>
        cases h
        have hparsed := parsedCode_records hstart hrecords
        exact ⟨⟨hparsed.lengths, hparsed.empties, prefixFree_spec (by simpa using hfree)⟩,
          by rw [hparsed.count, Nat.zero_add], by omega⟩

end Sys2Proof.Machine
end

section
/-! PROOF. O60: every step keeps TREE_VALID and CODE_VALID true to their meaning (spec 10_state.md R32, R42, R44). -/

namespace Sys2Proof.Machine

/-! ## States with the same tree or codebook -/

theorem TreeOk.congr {s t : State} (h : TreeOk s) (htree : Part.tree.Same s t) (hfreq : Part.freq.Same s t) :
    TreeOk t := by
  obtain ⟨hnode, hnsym, hnnode, hroot⟩ := htree
  constructor <;> simp only [hnode, hnsym, hnnode, hroot, show t.freq = s.freq from hfreq]
  case some_leaf => exact h.some_leaf
  case few_leaves => exact h.few_leaves
  case size => exact h.size
  case root => exact h.root
  case leaves => exact h.leaves
  case counts => exact h.counts
  case ascending => exact h.ascending
  case complete => exact h.complete
  case internal => exact h.internal
  case parent => exact h.parent
  case one_parent => exact h.one_parent

theorem GreedyTree.congr {s t : State} (h : GreedyTree s) (htree : Part.tree.Same s t) : GreedyTree t := by
  obtain ⟨hnode, hnsym, hnnode, _⟩ := htree
  rw [GreedyTree, hnode, hnsym, hnnode]
  exact h

/-- CODE and NCODE hold a codebook (R44). -/
def Coded (s : State) : Prop := CodeOk s.code ∧ s.ncode.toNat = numValid s.code

theorem Coded.congr {s t : State} (h : Coded s) (hcode : Part.code.Same s t) : Coded t := by
  obtain ⟨hcode, hncode⟩ := hcode
  rw [Coded, hcode, hncode]
  exact h

theorem TreeInv.congr {s t : State} (h : TreeInv s) (herr : t.status.err = s.status.err)
    (hflag : t.status.treeValid = s.status.treeValid) (htree : Part.tree.Same s t) (hfreq : Part.freq.Same s t) :
    TreeInv t := fun hok hvalid =>
  have ⟨htreeOk, hgreedy⟩ := h (herr ▸ hok) (hflag ▸ hvalid)
  ⟨htreeOk.congr htree hfreq, hgreedy.congr htree⟩

theorem CodeInv.congr {s t : State} (h : CodeInv s) (herr : t.status.err = s.status.err)
    (hflag : t.status.codeValid = s.status.codeValid) (hcode : Part.code.Same s t) : CodeInv t := fun hok hvalid =>
  Coded.congr (h (herr ▸ hok) (hflag ▸ hvalid)) hcode

/-! ## The rules -/

/-- WALK of a tree leaves its codebook, counted by NCODE (R161). -/
theorem walkRule_coded {s t : State} (ht : TreeOk s) (h : walkRule s = .ok t) : Coded t := by
  obtain ⟨code, hwalk, rfl⟩ := walkRule_ok h
  obtain ⟨code', hwalk', hw⟩ := walkTree_spec ht
  obtain rfl : code' = code := Option.some.inj (hwalk'.symm.trans hwalk)
  exact ⟨hw.codeOk ht, (hw.numValid_eq ht).symm⟩

theorem deserRule_coded {s t : State} (h : deserRule s = .ok t) : Coded t := by
  obtain ⟨_, _, _, code, cnt, htable, rfl⟩ := deserRule_ok h
  obtain ⟨hcode, hcount, hle⟩ := deserTable_ok htable
  refine ⟨hcode, ?_⟩
  rw [hcount, BitVec.toNat_ofNat]
  exact Nat.mod_eq_of_lt (by omega)

/-- After the middle stages of COMPRESS the codebook is that of the tree of FREQ, or the empty one, and the tree is
there when the input is not empty (R212). -/
theorem compressMiddle_tree {s t : State} (h : compressMiddle s = .ok t) :
    Coded t ∧ (s.srcLen ≠ 0#32 → TreeOk t ∧ GreedyTree t) := by
  obtain ⟨hlen, rfl⟩ | ⟨_, u, v, hbuild, hwalk, hencode⟩ := compressMiddle_ok h
  · exact ⟨⟨emptyCode_codeOk, emptyCode_numValid.symm⟩, fun hne => absurd hlen hne⟩
  · obtain ⟨htree, hgreedy, _⟩ := buildRule_tree hbuild
    have hrest := (walkRule_writes hwalk).trans (encodeRule_writes hencode)
    exact ⟨(walkRule_coded htree hwalk).congr (encodeRule_writes hencode .code (by simp [writes])), fun _ =>
      ⟨htree.congr (hrest .tree (by simp [writes])) (hrest .freq (by simp [writes])),
        hgreedy.congr (hrest .tree (by simp [writes]))⟩⟩

theorem compressRule_tree {s t : State} (h : compressRule s = .ok t) :
    Coded t ∧ (s.srcLen ≠ 0#32 → TreeOk t ∧ GreedyTree t) := by
  obtain ⟨u, v, hcount, hmiddle, hser⟩ := compressRule_ok h
  obtain ⟨_, hlen, _⟩ := countRule_writes hcount .source (by simp [writes])
  obtain ⟨hcoded, htree⟩ := compressMiddle_tree hmiddle
  have hkeep := serRule_writes hser
  refine ⟨hcoded.congr (hkeep .code (by simp [writes])), fun hne => ?_⟩
  obtain ⟨htreeOk, hgreedy⟩ := htree (by rwa [hlen])
  exact ⟨htreeOk.congr (hkeep .tree (by simp [writes])) (hkeep .freq (by simp [writes])),
    hgreedy.congr (hkeep .tree (by simp [writes]))⟩

/-- A rule clears TREE_VALID, or leaves the tree of FREQ, or leaves NODE, FREQ and TREE_VALID as they were (R32,
R42). -/
theorem ruleOf_treeInv {i : Instr} {s t : State} (hi : i ≠ .srst) (hinv : TreeInv s) (h : ruleOf i s = .ok t) :
    TreeInv t := by
  have hstatus := ruleOf_status h
  have herr := ruleOf_errFlag hi h
  have hkeep := ruleOf_writes hi h
  cases i with
  | srst => exact absurd rfl hi
  | count =>
    intro _ hvalid
    rw [hstatus] at hvalid
    cases hvalid
  | build =>
    obtain ⟨htree, hgreedy, _⟩ := buildRule_tree h
    exact fun _ _ => ⟨htree, hgreedy⟩
  | compress =>
    intro _ hvalid
    refine (compressRule_tree h).2 fun hlen => ?_
    simp [hstatus, flagsAfter, hlen] at hvalid
  | nop | walk | pkinit | pkput | pkflush | upinit | upget | encode | decode | ser | deser | decompress =>
    refine hinv.congr herr ?_ (hkeep .tree (by simp [writes])) (hkeep .freq (by simp [writes]))
    rw [hstatus]
    rfl

/-- A rule leaves a codebook, or leaves CODE and CODE_VALID as they were (R32, R44). -/
theorem ruleOf_codeInv {i : Instr} {s t : State} (hi : i ≠ .srst) (htree : TreeInv s) (hinv : CodeInv s)
    (hok : s.status.err = false) (hready : prerequisite i s.status = true) (h : ruleOf i s = .ok t) : CodeInv t := by
  have hstatus := ruleOf_status h
  have herr := ruleOf_errFlag hi h
  have hkeep := ruleOf_writes hi h
  cases i with
  | srst => exact absurd rfl hi
  | walk => exact fun _ _ => walkRule_coded (htree hok hready).1 h
  | deser => exact fun _ _ => deserRule_coded h
  | compress => exact fun _ _ => (compressRule_tree h).1
  | decompress =>
    obtain ⟨u, hdeser, hdecode⟩ := decompressRule_ok h
    exact fun _ _ => (deserRule_coded hdeser).congr (decodeRule_writes hdecode .code (by simp [writes]))
  | nop | count | build | pkinit | pkput | pkflush | upinit | upget | encode | decode | ser =>
    refine hinv.congr herr ?_ (hkeep .code (by simp [writes]))
    rw [hstatus]
    rfl

/-! ## The step -/

/-- A host write to FREQ clears TREE_VALID; no other reaches the tree, FREQ or the codebook (R32, R40, R233). -/
theorem hostWrite_treeInv_codeInv (space : Space) (index : Nat) (value : Word) {s : State} (htree : TreeInv s)
    (hcode : CodeInv s) : TreeInv (hostWrite space index value s) ∧ CodeInv (hostWrite space index value s) := by
  cases space with
  | freq =>
    simp only [hostWrite]
    split_ifs
    · exact ⟨fun _ hvalid => Bool.noConfusion hvalid, hcode.congr rfl rfl ⟨rfl, rfl⟩⟩
    · exact ⟨htree, hcode⟩
  | csr | src =>
    simp only [hostWrite]
    split_ifs <;> exact ⟨htree.congr rfl rfl ⟨rfl, rfl, rfl, rfl⟩ rfl, hcode.congr rfl rfl ⟨rfl, rfl⟩⟩
  | node | code | dst | pay => exact ⟨htree, hcode⟩

theorem effect_treeInv_codeInv {s t : State} (htree : TreeInv s) (hcode : CodeInv s) (h : Effect s t) :
    TreeInv t ∧ CodeInv t := by
  cases h with
  | nothing => exact ⟨htree, hcode⟩
  | completed i u not_srst taken _ ready rule =>
    obtain ⟨_, herr⟩ := (accepting_iff s).1 taken
    have htree' : TreeInv (begin s) := htree.congr rfl rfl ⟨rfl, rfl, rfl, rfl⟩ rfl
    have hcode' : CodeInv (begin s) := hcode.congr rfl rfl ⟨rfl, rfl⟩
    have htreeRule := ruleOf_treeInv not_srst htree' rule
    have hcodeRule := ruleOf_codeInv not_srst htree' hcode' herr (by simpa using ready) rule
    exact ⟨htreeRule.congr rfl rfl ⟨rfl, rfl, rfl, rfl⟩ rfl, hcodeRule.congr rfl rfl ⟨rfl, rfl⟩⟩
  | faulted cmd r _ => exact ⟨fun herr => Bool.noConfusion herr, fun herr => Bool.noConfusion herr⟩
  | reset => exact ⟨fun _ hvalid => Bool.noConfusion hvalid, fun _ hvalid => Bool.noConfusion hvalid⟩
  | abandoned => exact ⟨fun _ hvalid => Bool.noConfusion hvalid, fun _ hvalid => Bool.noConfusion hvalid⟩
  | written space index value _ => exact hostWrite_treeInv_codeInv space index value htree hcode
  | read space index => exact ⟨htree.congr rfl rfl ⟨rfl, rfl, rfl, rfl⟩ rfl, hcode.congr rfl rfl ⟨rfl, rfl⟩⟩

/-- Settles O60: BUILD leaves a forest with one active node, WALK of such a tree a codebook it counts, DESER one it has
tested; what else writes FREQ clears TREE_VALID. -/
theorem stepKeepsTreeAndCodebook : Obligations.StepKeepsTreeAndCodebook := by
  intro s t htree hcode hstep
  obtain rfl | heffect := step_effect hstep
  · exact ⟨htree, hcode⟩
  · have htree' : TreeInv s.advance := htree.congr rfl rfl ⟨rfl, rfl, rfl, rfl⟩ rfl
    have hcode' : CodeInv s.advance := hcode.congr rfl rfl ⟨rfl, rfl⟩
    exact effect_treeInv_codeInv htree' hcode' heffect

end Sys2Proof.Machine
end

section
/-! SUPPORT. Two runs of a rule that end alike (spec 10_state.md R25): the same raise, or two states that agree on what
the rule is to leave. -/

namespace Sys2Proof.Machine

/-- Two ends of a rule: the same stop, or two results in the relation. -/
inductive EndsAlike {α : Type} (R : α → α → Prop) : Except Stop α → Except Stop α → Prop
  | ok {t u : α} (h : R t u) : EndsAlike R (.ok t) (.ok u)
  | error (x : Stop) : EndsAlike R (.error x) (.error x)

/-- Two runs of a rule in stages: the next stages need only the relation the first ones leave, and that they ended. -/
theorem EndsAlike.bind {α β : Type} {R : α → α → Prop} {Q : β → β → Prop} {e e' : Except Stop α}
    {f g : α → Except Stop β} (h : EndsAlike R e e')
    (hfg : ∀ t u, e = .ok t → e' = .ok u → R t u → EndsAlike Q (f t) (g u)) : EndsAlike Q (e >>= f) (e' >>= g) := by
  cases h with
  | ok h => exact hfg _ _ rfl rfl h
  | error x => exact .error x

/-- The relation of the results may use that both runs ended. -/
theorem EndsAlike.imp {α : Type} {R Q : α → α → Prop} {e e' : Except Stop α} (h : EndsAlike R e e')
    (hRQ : ∀ t u, e = .ok t → e' = .ok u → R t u → Q t u) : EndsAlike Q e e' := by
  cases h with
  | ok h => exact .ok (hRQ _ _ rfl rfl h)
  | error x => exact .error x

theorem EndsAlike.of_eq {α : Type} {e e' : Except Stop α} (h : e' = e) : EndsAlike (fun t u => u = t) e e' := by
  subst h
  cases e' with
  | ok t => exact .ok rfl
  | error x => exact .error x

/-- Two runs of a command whose rule ends alike fault alike, with the same record, or complete with related results. -/
theorem exec_alike {i : Instr} {s₁ s₂ t₁ : State} {R : State → State → Prop} (hi : i ≠ .srst) (hw : i.wf = true)
    (hr₁ : Ready i s₁) (hr₂ : Ready i s₂) (hrule : EndsAlike R (ruleOf i (begin s₁)) (ruleOf i (begin s₂)))
    (h : exec i s₁ = .next t₁) :
    ∃ t₂, exec i s₂ = .next t₂ ∧ t₂.status.err = t₁.status.err ∧
      (t₁.status.err = true → t₂.err = t₁.err ∧ t₂.errInfo = t₁.errInfo) ∧
      (t₁.status.err = false → ∃ u₁ u₂, R u₁ u₂ ∧ t₁ = finish u₁ ∧ t₂ = finish u₂) := by
  generalize he₁ : ruleOf i (begin s₁) = e₁ at hrule
  generalize he₂ : ruleOf i (begin s₂) = e₂ at hrule
  cases hrule with
  | @ok u₁ u₂ hR =>
    obtain rfl : t₁ = finish u₁ := Host.Outcome.next.inj (h.symm.trans (exec_of_rule hi hw hr₁ he₁))
    have herr₁ : u₁.status.err = false :=
      (ruleOf_errFlag hi he₁).trans ((accepting_iff s₁).1 hr₁.1).2
    have herr₂ : u₂.status.err = false :=
      (ruleOf_errFlag hi he₂).trans ((accepting_iff s₂).1 hr₂.1).2
    exact ⟨_, exec_of_rule hi hw hr₂ he₂, herr₂.trans herr₁.symm, fun herr => absurd herr (by simp [herr₁]),
      fun _ => ⟨u₁, u₂, hR, rfl, rfl⟩⟩
  | error x =>
    rw [exec_eq_command i hi] at h ⊢
    cases x with
    | raised r =>
      rw [command_raised hw hr₁ he₁] at h
      cases h
      exact ⟨_, command_raised hw hr₂ he₂, rfl, fun _ => ⟨rfl, rfl⟩, fun herr => Bool.noConfusion herr⟩
    | stuck f =>
      have hp : prerequisite i (begin s₁).status = true := by simpa using hr₁.2
      simp [command, hr₁.1, runRule_eq i (ruleOf i) (begin s₁) hw hp, he₁] at h

/-! ## The input -/

/-- Two states that agree on SRC_LEN, SRC[0..SRC_LEN) and the capacities (R25). -/
structure SameInput (s₁ s₂ : State) : Prop where
  srcLen : s₂.srcLen = s₁.srcLen
  bytes : srcBytes s₂ = srcBytes s₁
  srcCap : s₂.srcCap = s₁.srcCap
  dstCap : s₂.dstCap = s₁.dstCap
  payCap : s₂.payCap = s₁.payCap

theorem srcBytes_congr {s t : State} (h : Part.source.Same s t) : srcBytes t = srcBytes s := by
  obtain ⟨hsrc, hlen, _⟩ := h
  rw [srcBytes, srcBytes, hsrc, hlen]

theorem SameInput.congr {s₁ s₂ t₁ t₂ : State} (h : SameInput s₁ s₂) (h₁ : Part.source.Same s₁ t₁)
    (h₂ : Part.source.Same s₂ t₂) : SameInput t₁ t₂ := by
  have hbytes := (srcBytes_congr h₂).trans (h.bytes.trans (srcBytes_congr h₁).symm)
  obtain ⟨_, hlen₁, hsrcCap₁, hdstCap₁, hpayCap₁⟩ := h₁
  obtain ⟨_, hlen₂, hsrcCap₂, hdstCap₂, hpayCap₂⟩ := h₂
  exact ⟨by rw [hlen₂, hlen₁, h.srcLen], hbytes, by rw [hsrcCap₂, hsrcCap₁, h.srcCap],
    by rw [hdstCap₂, hdstCap₁, h.dstCap], by rw [hpayCap₂, hpayCap₁, h.payCap]⟩

/-- Stages that do not write the source leave two equal inputs equal. -/
theorem SameInput.after {w : List Part} {s₁ s₂ t₁ t₂ : State} (h : SameInput s₁ s₂) (hw : .source ∉ w)
    (h₁ : WritesOnly w s₁ t₁) (h₂ : WritesOnly w s₂ t₂) : SameInput t₁ t₂ :=
  h.congr (h₁ .source hw) (h₂ .source hw)

theorem needSrcFits_congr (op : Byte) {s₁ s₂ : State} (h : SameInput s₁ s₂) :
    needSrcFits op s₂ = needSrcFits op s₁ := by
  rw [needSrcFits, needSrcFits, h.srcLen, h.srcCap]

end Sys2Proof.Machine
end

section
/-! SUPPORT. The stages of COMPRESS in two states that agree on the input (spec 45_codec.md R212). -/

namespace Sys2Proof.Machine

theorem countRule_eq (s : State) : countRule s = needSrcFits 0x10#8 s >>= fun _ =>
    .ok { s with freq := (srcBytes s).foldl countByte zeroFreq, status := s.status.clearTree } := by
  unfold countRule
  cases needSrcFits 0x10#8 s <;> rfl

theorem countRule_alike {s₁ s₂ : State} (h : SameInput s₁ s₂) :
    EndsAlike (fun t₁ t₂ => t₂.freq = t₁.freq) (countRule s₁) (countRule s₂) := by
  rw [countRule_eq, countRule_eq]
  refine (EndsAlike.of_eq (needSrcFits_congr _ h)).bind fun _ _ _ _ _ => .ok ?_
  simp only [h.bytes]

/-! ## BUILD -/

/-- Two node memories that agree below k agree on a new record k too. -/
theorem AgreeBelow.putEntry_succ {node node' : NodeTable} {k : Nat} (h : AgreeBelow node node' k) (r : NodeRec) :
    AgreeBelow (putEntry node k r) (putEntry node' k r) (k + 1) := by
  intro i hi
  obtain hlt | rfl : i < k ∨ i = k := by omega
  · rw [agreeBelow_putEntry node k r i hlt, agreeBelow_putEntry node' k r i hlt, h i hlt]
  · by_cases hroom : i < 511
    · rw [entryAt_putEntry_same _ _ _ hroom, entryAt_putEntry_same _ _ _ hroom]
    · simp [entryAt, hroom]

theorem leastNode_congr {node node' : NodeTable} {k best : Nat} {l : List Nat} (h : AgreeBelow node node' k)
    (hbest : best < k) (hl : ∀ j ∈ l, j < k) : leastNode node' best l = leastNode node best l := by
  induction l generalizing best with
  | nil => rfl
  | cons i rest ih =>
    obtain ⟨hi, hrest⟩ := List.forall_mem_cons.1 hl
    rw [leastNode, leastNode, nodeBefore, nodeBefore, h i hi, h best hbest]
    exact ih (by split <;> assumption) hrest

theorem takeLeast_congr {node node' : NodeTable} {k : Nat} {l : List Nat} (h : AgreeBelow node node' k)
    (hl : ∀ j ∈ l, j < k) : takeLeast node' l = takeLeast node l := by
  cases l with
  | nil => rfl
  | cons i rest =>
    obtain ⟨hi, hrest⟩ := List.forall_mem_cons.1 hl
    rw [takeLeast, takeLeast, leastNode_congr h hi hrest]

/-- Two merge states with the same active set and the same records. -/
structure SameMerge (m₁ m₂ : Merge) : Prop where
  active : m₂.active = m₁.active
  next : m₂.next = m₁.next
  node : AgreeBelow m₁.node m₂.node m₁.next
  below : ∀ j ∈ m₁.active, j < m₁.next

theorem SameMerge.join {m₁ m₂ : Merge} (h : SameMerge m₁ m₂) {a b : Nat} (ha : a < m₁.next) (hb : b < m₁.next) :
    SameMerge (m₁.join a b) (m₂.join a b) := by
  have hrecord : mergedNode m₂.node a b = mergedNode m₁.node a b := by
    rw [mergedNode, mergedNode, h.node a ha, h.node b hb]
  refine ⟨by simp only [Merge.join, h.active, h.next], by simp only [Merge.join, h.next], ?_, fun j hj => ?_⟩
  · simp only [Merge.join, hrecord, h.next]
    exact h.node.putEntry_succ _
  · simp only [Merge.join, List.mem_append, List.mem_singleton] at hj ⊢
    obtain hj | rfl := hj
    · have := h.below j (List.mem_of_mem_erase (List.mem_of_mem_erase hj))
      omega
    · omega

/-- The merge loop depends on the active set and its records alone (R153). -/
theorem mergeLoop_congr (fuel : Nat) {m₁ m₂ : Merge} (h : SameMerge m₁ m₂) :
    SameMerge (mergeLoop fuel m₁) (mergeLoop fuel m₂) := by
  induction fuel generalizing m₁ m₂ with
  | zero => exact h
  | succ fuel ih =>
    have htake : takeLeast m₂.node m₂.active = takeLeast m₁.node m₁.active := by
      rw [h.active, takeLeast_congr h.node h.below]
    rw [mergeLoop, mergeLoop, htake]
    cases h₁ : takeLeast m₁.node m₁.active with
    | none => exact h
    | some p =>
      obtain ⟨a, rest⟩ := p
      obtain ⟨ha, rfl, _⟩ := takeLeast_some h₁
      have hbelow : ∀ j ∈ m₁.active.erase a, j < m₁.next := fun j hj => h.below j (List.mem_of_mem_erase hj)
      simp only [takeLeast_congr h.node hbelow]
      cases h₂ : takeLeast m₁.node (m₁.active.erase a) with
      | none => exact h
      | some q =>
        obtain ⟨b, rest'⟩ := q
        obtain ⟨hb, rfl, _⟩ := takeLeast_some h₂
        have hjoin := h.join (h.below a ha) (hbelow b hb)
        rw [Merge.join, Merge.join, h.active] at hjoin
        exact ih hjoin

/-- Two states with the same counts and, below NNODE, the same tree. -/
structure SameTree (s₁ s₂ : State) : Prop where
  freq : s₂.freq = s₁.freq
  nsym : s₂.nsym = s₁.nsym
  nnode : s₂.nnode = s₁.nnode
  root : s₂.root = s₁.root
  node : AgreeBelow s₁.node s₂.node s₁.nnode.toNat

/-- Stages that write neither FREQ nor the tree leave two equal trees equal. -/
theorem SameTree.after {w : List Part} {s₁ s₂ t₁ t₂ : State} (h : SameTree s₁ s₂) (hfreq : .freq ∉ w)
    (htree : .tree ∉ w) (h₁ : WritesOnly w s₁ t₁) (h₂ : WritesOnly w s₂ t₂) : SameTree t₁ t₂ := by
  obtain ⟨hnode₁, hnsym₁, hnnode₁, hroot₁⟩ := h₁ .tree htree
  obtain ⟨hnode₂, hnsym₂, hnnode₂, hroot₂⟩ := h₂ .tree htree
  have hfreq₁ : t₁.freq = s₁.freq := h₁ .freq hfreq
  have hfreq₂ : t₂.freq = s₂.freq := h₂ .freq hfreq
  refine ⟨by rw [hfreq₂, hfreq₁, h.freq], by rw [hnsym₂, hnsym₁, h.nsym],
    by rw [hnnode₂, hnnode₁, h.nnode], by rw [hroot₂, hroot₁, h.root], ?_⟩
  rw [hnode₁, hnode₂, hnnode₁]
  exact h.node

/-- The leaves depend on FREQ alone (R153). -/
theorem makeLeaves_sameMerge (freq : FreqTable) (node node' : NodeTable) :
    SameMerge
      { node := (makeLeaves freq node).2, active := List.range (makeLeaves freq node).1
        next := (makeLeaves freq node).1 }
      { node := (makeLeaves freq node').2, active := List.range (makeLeaves freq node').1
        next := (makeLeaves freq node').1 } := by
  have hn := makeLeaves_count freq node
  have hn' := makeLeaves_count freq node'
  refine ⟨by rw [hn, hn'], by rw [hn, hn'], fun k hk => ?_, by simp⟩
  simp only [hn] at hk
  rw [makeLeaves_entry freq node k hk, makeLeaves_entry freq node' k hk]

theorem builtTree_congr {s₁ s₂ : State} (h : s₂.freq = s₁.freq) : SameMerge (builtTree s₁) (builtTree s₂) := by
  have hleaves := makeLeaves_sameMerge s₁.freq s₁.node s₂.node
  have hcount : (makeLeaves s₁.freq s₂.node).1 = (makeLeaves s₁.freq s₁.node).1 := hleaves.next
  rw [builtTree, builtTree, h]
  have hloop := mergeLoop_congr (makeLeaves s₁.freq s₁.node).1 hleaves
  rwa [← hcount] at hloop ⊢

theorem buildRule_alike {s₁ s₂ : State} (hfreq : s₂.freq = s₁.freq) :
    EndsAlike SameTree (buildRule s₁) (buildRule s₂) := by
  have hcount : (makeLeaves s₂.freq s₂.node).1 = (makeLeaves s₁.freq s₁.node).1 := by
    rw [makeLeaves_count, makeLeaves_count, hfreq]
  have htree := builtTree_congr hfreq
  by_cases hzero : (makeLeaves s₁.freq s₁.node).1 = 0
  · have hraise : ∀ s : State, (makeLeaves s.freq s.node).1 = 0 → buildRule s = raise 0x11#8 .emptyInput 0#8 0 :=
      fun s hs => by simp [buildRule, hs]
    rw [hraise s₁ hzero, hraise s₂ (hcount.trans hzero)]
    exact .error _
  · have hends : ∀ s : State, (makeLeaves s.freq s.node).1 ≠ 0 → ∃ t, buildRule s = .ok t :=
      fun s hs => by simp [buildRule, hs]
    obtain ⟨t₁, h₁⟩ := hends s₁ hzero
    obtain ⟨t₂, h₂⟩ := hends s₂ (hcount ▸ hzero)
    rw [h₁, h₂]
    obtain ⟨_, rfl⟩ := buildRule_ok h₁
    obtain ⟨_, rfl⟩ := buildRule_ok h₂
    refine .ok ⟨hfreq, by simp only [hcount], by simp only [htree.next], by simp only [htree.active], ?_⟩
    refine htree.node.mono ?_
    simp only [BitVec.toNat_ofNat]
    exact Nat.mod_le _ _

/-! ## WALK -/

theorem walkFrom_congr {node node' : NodeTable} {b : Nat} (h : AgreeBelow node node' b) (hdown : Descending node b)
    (fuel i : Nat) (path : Bits) (code : CodeTable) (hi : i < b) :
    walkFrom node' fuel i path code = walkFrom node fuel i path code := by
  induction fuel generalizing i path code with
  | zero => rfl
  | succ fuel ih =>
    rw [walkFrom, walkFrom, h i hi]
    cases hleaf : (entryAt node i).leaf
    · obtain ⟨hleft, hright⟩ := hdown i hi hleaf
      rw [ih _ _ _ (by omega)]
      cases walkFrom node fuel (entryAt node i).left.toNat (path ++ [false]) code with
      | none => rfl
      | some c => simpa using ih _ _ c (by omega)
    · rfl

/-- WALK depends on the tree alone. -/
theorem walkTree_congr {s₁ s₂ : State} (h : SameTree s₁ s₂) (ht : TreeOk s₁) :
    walkTree s₂.node s₂.root.toNat = walkTree s₁.node s₁.root.toNat := by
  rw [walkTree, walkTree, h.root, h.node _ ht.root_lt,
    walkFrom_congr h.node ht.descending _ _ _ _ ht.root_lt]

theorem walkRule_alike {s₁ s₂ : State} (h : SameTree s₁ s₂) (ht : TreeOk s₁) :
    EndsAlike Part.code.Same (walkRule s₁) (walkRule s₂) := by
  rw [walkRule, walkRule, walkTree_congr h ht]
  cases walkTree s₁.node s₁.root.toNat with
  | none => exact .error _
  | some code => exact .ok ⟨rfl, h.nsym⟩

/-! ## ENCODE -/

/-- ENCODE leaves the packed concatenation of the codes (R206). -/
theorem encodeRule_payload {s t : State} (h : encodeRule s = .ok t) :
    t.bitLen.toNat = (encodeAll s.code (srcBytes s)).length ∧
      t.payLen.toNat = ceil8 (encodeAll s.code (srcBytes s)).length ∧
      payBytes t = bytesOf (encodeAll s.code (srcBytes s)) := by
  obtain ⟨hmax, _⟩ := encodeRule_bitsFit h
  obtain ⟨_, _, rfl⟩ := encodeRule_ok h
  simp only [Config.lMax] at hmax
  have hpacked := pkBits_packed (encodeAll s.code (srcBytes s)) (encodeStart s) [] (pkInit_packed _)
    (by rw [List.length_nil]; omega)
  rw [List.nil_append] at hpacked
  have hlen : ((encodeAll s.code (srcBytes s)).foldl pkBit (encodeStart s)).bitLen.toNat =
      (encodeAll s.code (srcBytes s)).length := hpacked.length
  have hpayLen := ceil8_fits (encodeAll s.code (srcBytes s)).length (by omega)
  refine ⟨hlen, by simp only [pkFlush_payLen, hlen, hpayLen], ?_⟩
  simp only [payBytes, pkFlush_payLen, hlen, hpayLen]
  exact pkFlush_bytes _ _ hpacked

theorem pkPush_alike (op : Byte) (c : Bits) {s₁ s₂ : State} (hlen : s₂.bitLen = s₁.bitLen)
    (hcap : s₂.payCap = s₁.payCap) :
    EndsAlike (fun t₁ t₂ => t₂.bitLen = t₁.bitLen ∧ t₁ = c.foldl pkBit s₁ ∧ t₂ = c.foldl pkBit s₂)
      (pkPush op c s₁) (pkPush op c s₂) := by
  rw [pkPush, pkPush, hlen, hcap]
  split
  · exact .error _
  next hmax =>
    split
    · exact .error _
    · simp only [Config.lMax] at hmax
      have h₁ := pkBits_length c s₁ (by omega)
      have h₂ := pkBits_length c s₂ (by rw [hlen]; omega)
      exact .ok ⟨BitVec.eq_of_toNat_eq (by rw [h₁, h₂, hlen]), rfl, rfl⟩

theorem encodeLoop_alike (bs : List Byte) (i : Nat) {s₁ s₂ : State} (hcode : s₂.code = s₁.code)
    (hlen : s₂.bitLen = s₁.bitLen) (hcap : s₂.payCap = s₁.payCap) :
    EndsAlike (fun _ _ => True) (encodeLoop bs i s₁) (encodeLoop bs i s₂) := by
  induction bs generalizing i s₁ s₂ with
  | nil => exact .ok trivial
  | cons b rest ih =>
    rw [encodeLoop, encodeLoop, hcode]
    split
    · have hpush := pkPush_alike 0x28#8 (entryAt s₁.code b.toNat).bits hlen hcap
      generalize pkPush 0x28#8 (entryAt s₁.code b.toNat).bits s₁ = e₁ at hpush ⊢
      generalize pkPush 0x28#8 (entryAt s₁.code b.toNat).bits s₂ = e₂ at hpush ⊢
      cases hpush with
      | ok h =>
        obtain ⟨hlen', rfl, rfl⟩ := h
        exact ih (i + 1) (by simpa using hcode) hlen' (by simpa using hcap)
      | error x => exact .error x
    · exact .error _

theorem encodeRule_eq (s : State) : encodeRule s = needSrcFits 0x28#8 s >>= fun _ =>
    encodeLoop (srcBytes s) 0 (encodeStart s) >>= fun t => .ok { pkFlush t with status := t.status.setPay } := by
  unfold encodeRule encodeStart
  cases needSrcFits 0x28#8 s with
  | error x => rfl
  | ok u =>
    generalize encodeLoop (srcBytes s) 0 (pkInit { s with status := s.status.payloadDropped }) = e
    cases e <;> rfl

/-- Two states with the same payload, bit for bit inside PAY[0..PAY_LEN). -/
structure SamePayload (s₁ s₂ : State) : Prop where
  bitLen : s₂.bitLen = s₁.bitLen
  payLen : s₂.payLen = s₁.payLen
  bytes : payBytes s₂ = payBytes s₁

theorem encodeRule_alike {s₁ s₂ : State} (h : SameInput s₁ s₂) (hcode : s₂.code = s₁.code) :
    EndsAlike SamePayload (encodeRule s₁) (encodeRule s₂) := by
  have hends : EndsAlike (fun _ _ => True) (encodeRule s₁) (encodeRule s₂) := by
    rw [encodeRule_eq, encodeRule_eq]
    refine (EndsAlike.of_eq (needSrcFits_congr _ h)).bind fun _ _ _ _ _ => ?_
    rw [h.bytes]
    exact (encodeLoop_alike (srcBytes s₁) 0 (s₁ := encodeStart s₁) (s₂ := encodeStart s₂) hcode rfl h.payCap).bind
      fun _ _ _ _ _ => .ok trivial
  refine hends.imp fun t₁ t₂ h₁ h₂ _ => ?_
  obtain ⟨hlen₁, hpayLen₁, hbytes₁⟩ := encodeRule_payload h₁
  obtain ⟨hlen₂, hpayLen₂, hbytes₂⟩ := encodeRule_payload h₂
  rw [hcode, h.bytes] at hlen₂ hpayLen₂ hbytes₂
  exact ⟨BitVec.eq_of_toNat_eq (hlen₂.trans hlen₁.symm), BitVec.eq_of_toNat_eq (hpayLen₂.trans hpayLen₁.symm),
    hbytes₂.trans hbytes₁.symm⟩

/-! ## SER -/

/-- SER leaves the container of the codebook, BITLEN and the payload (R191). -/
theorem serRule_output {s t : State} (h : serRule s = .ok t) :
    t.dstLen.toNat = (containerBytes (serTable s.code s.ncode) s.bitLen.toNat (payBytes s)).length ∧
      dstBytes t = containerBytes (serTable s.code s.ncode) s.bitLen.toNat (payBytes s) := by
  obtain ⟨hfit, rfl⟩ := serRule_ok h
  have hlen : (containerBytes (serTable s.code s.ncode) s.bitLen.toNat (payBytes s)).length =
      4 + (serTable s.code s.ncode).length + 4 + s.payLen.toNat := by
    simp [containerBytes, payBytes, Nat.add_assoc]
  have hdstLen : (BitVec.ofNat 32 (4 + (serTable s.code s.ncode).length + 4 + s.payLen.toNat)).toNat =
      (containerBytes (serTable s.code s.ncode) s.bitLen.toNat (payBytes s)).length := by
    rw [hlen]
    exact toNat_ofNat_of_le (cap := s.dstCap) (by omega)
  have hwrite : writeBytes s.dst 0 (containerBytes (serTable s.code s.ncode) s.bitLen.toNat (payBytes s)) =
      writeBytes
        (memWrite (writeBytes (memWrite s.dst 0 4 (serTable s.code s.ncode).length) 4 (serTable s.code s.ncode))
          (4 + (serTable s.code s.ncode).length) 4 s.bitLen.toNat)
        (8 + (serTable s.code s.ncode).length) (payBytes s) := by
    rw [containerBytes, writeBytes_append, writeBytes_append, writeBytes_append]
    simp only [memWrite, List.length_append, bigEndian_length, Nat.zero_add]
    rw [Nat.add_right_comm]
  refine ⟨hdstLen, ?_⟩
  simp only [dstBytes, hdstLen, ← hwrite]
  exact readBytes_writeBytes _ _ _ _

/-- Two states with the same output in DST[0..DST_LEN). -/
structure SameOutput (s₁ s₂ : State) : Prop where
  dstLen : s₂.dstLen = s₁.dstLen
  bytes : dstBytes s₂ = dstBytes s₁

theorem serRule_alike {s₁ s₂ : State} (h : SameInput s₁ s₂) (hcode : Part.code.Same s₁ s₂)
    (hpay : SamePayload s₁ s₂) : EndsAlike SameOutput (serRule s₁) (serRule s₂) := by
  obtain ⟨hcode, hncode⟩ := hcode
  have hends : EndsAlike (fun _ _ => True) (serRule s₁) (serRule s₂) := by
    simp only [serRule, hcode, hncode, hpay.payLen, h.dstCap]
    split
    · exact .ok trivial
    · exact .error _
  refine hends.imp fun t₁ t₂ h₁ h₂ _ => ?_
  obtain ⟨hlen₁, hbytes₁⟩ := serRule_output h₁
  obtain ⟨hlen₂, hbytes₂⟩ := serRule_output h₂
  rw [hcode, hncode, hpay.bitLen, hpay.bytes] at hlen₂ hbytes₂
  exact ⟨BitVec.eq_of_toNat_eq (hlen₂.trans hlen₁.symm), hbytes₂.trans hbytes₁.symm⟩

end Sys2Proof.Machine
end

section
/-! PROOF. O50: the result of COMPRESS depends on the input and the capacities alone (spec 10_state.md R25, 45_codec.md
R212). -/

namespace Sys2Proof.Machine

/-- Two states with the same tables and payload. -/
structure SameCoding (s₁ s₂ : State) : Prop where
  tree : SameTree s₁ s₂
  code : Part.code.Same s₁ s₂
  payload : SamePayload s₁ s₂

theorem compressEmpty_sameCoding {s₁ s₂ : State} (hfreq : s₂.freq = s₁.freq) :
    SameCoding (compressEmpty s₁) (compressEmpty s₂) where
  tree := ⟨hfreq, rfl, rfl, rfl, fun i hi => absurd hi (Nat.not_lt_zero i)⟩
  code := ⟨rfl, rfl⟩
  payload := ⟨rfl, by simp, by simp [payBytes, readBytes]⟩

theorem compressMiddle_eq (s : State) : compressMiddle s =
    if s.srcLen = 0#32 then .ok (compressEmpty s) else buildRule s >>= fun t => walkRule t >>= encodeRule := by
  unfold compressMiddle
  split
  · rfl
  · cases buildRule s with
    | error x => rfl
    | ok t =>
      change _ = walkRule t >>= encodeRule
      dsimp only
      cases walkRule t <;> rfl

/-- A stage that does not write the codebook leaves two equal codebooks equal. -/
theorem Part.code_same_after {w : List Part} {s₁ s₂ t₁ t₂ : State} (h : Part.code.Same s₁ s₂) (hw : .code ∉ w)
    (h₁ : WritesOnly w s₁ t₁) (h₂ : WritesOnly w s₂ t₂) : Part.code.Same t₁ t₂ := by
  obtain ⟨hcode₁, hncode₁⟩ := h₁ .code hw
  obtain ⟨hcode₂, hncode₂⟩ := h₂ .code hw
  obtain ⟨hcode, hncode⟩ := h
  exact ⟨by rw [hcode₂, hcode₁, hcode], by rw [hncode₂, hncode₁, hncode]⟩

/-- The middle stages of COMPRESS depend on the counts and the input alone: BUILD on FREQ, WALK on the tree, ENCODE on
the codebook and the input (R212). -/
theorem compressMiddle_alike {s₁ s₂ : State} (h : SameInput s₁ s₂) (hfreq : s₂.freq = s₁.freq) :
    EndsAlike SameCoding (compressMiddle s₁) (compressMiddle s₂) := by
  rw [compressMiddle_eq, compressMiddle_eq, h.srcLen]
  split
  · exact .ok (compressEmpty_sameCoding hfreq)
  · refine (buildRule_alike hfreq).bind fun t₁ t₂ hb₁ hb₂ htree => ?_
    obtain ⟨htreeOk, _, _⟩ := buildRule_tree hb₁
    have hin := h.after (source_not_mem_writes .build) (buildRule_writes hb₁) (buildRule_writes hb₂)
    refine (walkRule_alike htree htreeOk).bind fun u₁ u₂ hw₁ hw₂ hcode => ?_
    have hin' := hin.after (source_not_mem_writes .walk) (walkRule_writes hw₁) (walkRule_writes hw₂)
    refine (encodeRule_alike hin' hcode.1).imp fun v₁ v₂ he₁ he₂ hpay => ?_
    exact ⟨htree.after (by simp [writes]) (by simp [writes])
      ((walkRule_writes hw₁).trans (encodeRule_writes he₁)) ((walkRule_writes hw₂).trans (encodeRule_writes he₂)),
      Part.code_same_after hcode (by simp [writes]) (encodeRule_writes he₁) (encodeRule_writes he₂), hpay⟩

theorem compressRule_eq (s : State) :
    compressRule s = countRule s >>= fun t => compressMiddle t >>= serRule := by
  unfold compressRule
  cases countRule s with
  | error x => rfl
  | ok t =>
    change _ = compressMiddle t >>= serRule
    dsimp only
    cases compressMiddle t <;> rfl

/-- Stages that write neither PAY nor its lengths leave two equal payloads equal. -/
theorem SamePayload.after {w : List Part} {s₁ s₂ t₁ t₂ : State} (h : SamePayload s₁ s₂) (hpay : .pay ∉ w)
    (hlen : .payLen ∉ w) (hbit : .bitLen ∉ w) (h₁ : WritesOnly w s₁ t₁) (h₂ : WritesOnly w s₂ t₂) :
    SamePayload t₁ t₂ := by
  have hkeep : ∀ {s t : State}, WritesOnly w s t →
      t.bitLen = s.bitLen ∧ t.payLen = s.payLen ∧ payBytes t = payBytes s := fun {s t} hst => by
    have hp : t.pay = s.pay := hst .pay hpay
    have hl : t.payLen = s.payLen := hst .payLen hlen
    exact ⟨hst .bitLen hbit, hl, by rw [payBytes, payBytes, hp, hl]⟩
  obtain ⟨hb₁, hl₁, hp₁⟩ := hkeep h₁
  obtain ⟨hb₂, hl₂, hp₂⟩ := hkeep h₂
  exact ⟨by rw [hb₂, hb₁, h.bitLen], by rw [hl₂, hl₁, h.payLen], by rw [hp₂, hp₁, h.bytes]⟩

/-- COMPRESS depends on the input alone (R25, R212). -/
theorem compressRule_alike {s₁ s₂ : State} (h : SameInput s₁ s₂) :
    EndsAlike (fun t₁ t₂ => SameCoding t₁ t₂ ∧ SameOutput t₁ t₂) (compressRule s₁) (compressRule s₂) := by
  rw [compressRule_eq, compressRule_eq]
  refine (countRule_alike h).bind fun t₁ t₂ hc₁ hc₂ hfreq => ?_
  have hin := h.after (source_not_mem_writes .count) (countRule_writes hc₁) (countRule_writes hc₂)
  refine (compressMiddle_alike hin hfreq).bind fun u₁ u₂ hm₁ hm₂ hcoding => ?_
  have hin' := hin.after (by simp) (compressMiddle_writes hm₁) (compressMiddle_writes hm₂)
  refine (serRule_alike hin' hcoding.code hcoding.payload).imp fun v₁ v₂ hs₁ hs₂ hout => ?_
  have hw₁ := serRule_writes hs₁
  have hw₂ := serRule_writes hs₂
  exact ⟨⟨hcoding.tree.after (by simp [writes]) (by simp [writes]) hw₁ hw₂,
    Part.code_same_after hcoding.code (by simp [writes]) hw₁ hw₂,
    hcoding.payload.after (by simp [writes]) (by simp [writes]) (by simp [writes]) hw₁ hw₂⟩, hout⟩

theorem begin_sameInput {s₁ s₂ : State} (h : SameInput s₁ s₂) : SameInput (begin s₁) (begin s₂) :=
  h.congr ⟨rfl, rfl, rfl, rfl, rfl⟩ ⟨rfl, rfl, rfl, rfl, rfl⟩

/-- Settles O50: each stage of COMPRESS ends alike in two states that agree on what that stage reads, and COUNT reads
the input alone. -/
theorem compressDependsOnItsInputAlone : Obligations.CompressDependsOnItsInputAlone := by
  intro s₁ s₂ t₁ ha₁ ha₂ hlen hbytes hsrcCap hdstCap hpayCap hexec
  have hin : SameInput s₁ s₂ := ⟨hlen.symm, hbytes.symm, hsrcCap.symm, hdstCap.symm, hpayCap.symm⟩
  obtain ⟨t₂, hexec₂, herr, hfault, hok⟩ :=
    exec_alike (i := .compress) (by simp) rfl ⟨ha₁, rfl⟩ ⟨ha₂, rfl⟩ (compressRule_alike (begin_sameInput hin)) hexec
  refine ⟨t₂, hexec₂, herr, hfault, fun hclean => ?_⟩
  obtain ⟨u₁, u₂, ⟨⟨htree, ⟨hcode, hncode⟩, hpay⟩, hout⟩, rfl, rfl⟩ := hok hclean
  exact ⟨hout.dstLen, hout.bytes, hpay.bitLen, hpay.payLen, hpay.bytes, hcode, hncode, htree.freq, htree.nsym,
    htree.nnode, htree.root, htree.node⟩

end Sys2Proof.Machine
end

section
/-! PROOF. O51: the result of DECOMPRESS depends on the input and the capacities alone (spec 10_state.md R25,
45_codec.md R216). -/

namespace Sys2Proof.Machine

/-! ## Reads inside the bytes two memories share -/

/-- Two memories of a space hold the same bytes below n. -/
def SameBytes (sp : Space) (m m' : Memory) (n : Nat) : Prop := ∀ i, i < n → readByte sp m' i = readByte sp m i

theorem SameBytes.mono {sp : Space} {m m' : Memory} {k n : Nat} (h : SameBytes sp m m' n) (hk : k ≤ n) :
    SameBytes sp m m' k := fun i hi => h i (by omega)

theorem sameBytes_of_readBytes {sp : Space} {m m' : Memory} {n : Nat}
    (h : readBytes sp m' 0 n = readBytes sp m 0 n) : SameBytes sp m m' n := by
  intro i hi
  have hget := congrArg (·[i]?) h
  simpa [readBytes, hi] using hget

theorem SameBytes.readBytes_eq {sp : Space} {m m' : Memory} {n : Nat} (h : SameBytes sp m m' n) (a k : Nat)
    (hk : a + k ≤ n) : readBytes sp m' a k = readBytes sp m a k :=
  readBytes_congr sp m' m a k fun i hi => h (a + i) (by omega)

theorem SameBytes.memRead_eq {sp : Space} {m m' : Memory} {n : Nat} (h : SameBytes sp m m' n) (a k : Nat)
    (hk : a + k ≤ n) : memRead sp m' a k = memRead sp m a k := by
  rw [memRead, h.readBytes_eq a k hk, memRead]

theorem SameBytes.bitsRead_eq {sp : Space} {m m' : Memory} {n : Nat} (h : SameBytes sp m m' n) (a k l : Nat)
    (hl : a + ceil8 (k + l) ≤ n) : bitsRead sp m' a k l = bitsRead sp m a k l := by
  refine List.map_congr_left fun j hj => ?_
  have hj' : j < l := by simpa using hj
  rw [bitRead, bitRead, h _ (by rw [ceil8_eq] at hl; omega)]

theorem SameInput.sameBytes {s₁ s₂ : State} (h : SameInput s₁ s₂) : SameBytes .src s₁.src s₂.src s₁.srcLen.toNat := by
  have hbytes := h.bytes
  rw [srcBytes, srcBytes, h.srcLen] at hbytes
  exact sameBytes_of_readBytes hbytes

/-! ## DESER -/

/-- The bits after a code of cl bits, to the end of its last byte, lie in its bytes. -/
theorem ceil8_padded (cl : Nat) : ceil8 (cl + (8 * ceil8 cl - cl)) = ceil8 cl := by
  simp only [ceil8_eq]
  omega

theorem deserRecord_congr {src src' : Memory} {e : Nat} (h : SameBytes .src src src' e) (t : Parse) :
    deserRecord src' e t = deserRecord src e t := by
  unfold deserRecord
  split
  · rfl
  next hhead =>
    simp only [h t.p (by omega), h (t.p + 1) (by omega)]
    split
    · rfl
    split
    · rfl
    split
    · rfl
    next hcl hbits =>
      rw [h.bitsRead_eq (t.p + 2) _ _ (by rw [ceil8_padded]; rw [ceil8_eq] at hbits ⊢; omega),
        h.bitsRead_eq (t.p + 2) 0 _ (by rw [Nat.zero_add]; rw [ceil8_eq] at hbits ⊢; omega)]

theorem deserRecords_congr {src src' : Memory} {e : Nat} (h : SameBytes .src src src' e) (cnt : Nat) (t : Parse) :
    deserRecords src' e cnt t = deserRecords src e cnt t := by
  induction cnt generalizing t with
  | zero => rfl
  | succ cnt ih =>
    rw [deserRecords, deserRecords, deserRecord_congr h]
    cases deserRecord src e t with
    | error x => rfl
    | ok t' => exact ih t'

theorem deserTable_congr {src src' : Memory} {e : Nat} (h : SameBytes .src src src' e) :
    deserTable src' e = deserTable src e := by
  unfold deserTable
  split
  · rfl
  next hhead => simp only [h 4 (by omega), h.memRead_eq 5 2 (by omega), deserRecords_congr h]

/-- DESER leaves in PAY the bytes after the table and the bit length (R195). -/
theorem deserRule_payload {s t : State} (h : deserRule s = .ok t) :
    payBytes t = readBytes .src s.src (tableEnd s + 4) (payloadSize s) := by
  obtain ⟨_, _, hfit, _, _, _, rfl⟩ := deserRule_ok h
  have hread := readBytes_writeBytes .pay (readBytes .src s.src (tableEnd s + 4) (payloadSize s)) s.pay 0
  rw [readBytes_length] at hread
  simpa only [payBytes, toNat_ofNat_of_le hfit] using hread

/-- DESER ends alike on the same container: the same raise, or the same codebook and payload (R195). -/
theorem deserRule_alike {s₁ s₂ : State} (h : SameInput s₁ s₂) :
    EndsAlike (fun t₁ t₂ => Part.code.Same t₁ t₂ ∧ SamePayload t₁ t₂) (deserRule s₁) (deserRule s₂) := by
  have hsrc := h.sameBytes
  have hends : EndsAlike (fun t₁ t₂ => Part.code.Same t₁ t₂ ∧ t₂.bitLen = t₁.bitLen ∧ t₂.payLen = t₁.payLen)
      (deserRule s₁) (deserRule s₂) := by
    unfold deserRule
    rw [needSrcFits_congr _ h]
    cases needSrcFits 0x31#8 s₁ with
    | error x => exact .error x
    | ok _ =>
      simp only [h.srcLen, h.payCap]
      split
      · exact .error _
      next hsize =>
        rw [hsrc.memRead_eq 0 4 (by omega)]
        split
        · exact .error _
        next hroom =>
          rw [deserTable_congr (hsrc.mono (by omega))]
          cases deserTable s₁.src (4 + memRead .src s₁.src 0 4) with
          | error x => exact .error x
          | ok p =>
            simp only
            split
            · exact .error _
            next hlen =>
              rw [hsrc.memRead_eq _ 4 (by omega : 4 + memRead .src s₁.src 0 4 + 4 ≤ s₁.srcLen.toNat)]
              split
              · exact .error _
              · exact .ok ⟨⟨rfl, rfl⟩, rfl, rfl⟩
  refine hends.imp fun t₁ t₂ h₁ h₂ ⟨hcode, hbit, hlen⟩ => ⟨hcode, hbit, hlen, ?_⟩
  obtain ⟨_, hroom, _⟩ := deserRule_ok h₁
  have hend : tableEnd s₂ = tableEnd s₁ := by
    rw [tableEnd, tableEnd, hsrc.memRead_eq 0 4 (by omega)]
  have hsize : payloadSize s₂ = payloadSize s₁ := by rw [payloadSize, payloadSize, hend, h.srcLen]
  rw [deserRule_payload h₁, deserRule_payload h₂, hend, hsize]
  exact hsrc.readBytes_eq _ _ (by rw [payloadSize]; omega)

/-! ## DECODE -/

/-- DECODE's loop on the bits of the payload (R208). -/
def decodeBits (s : State) : Except Stop (List Byte) :=
  decodeLoop s.code s.dstCap.toNat (bitsRead .pay s.pay 0 0 s.bitLen.toNat) [] []

/-- The state DECODE leaves when it has emitted a sequence (R208). -/
def decodedTo (s : State) (out : List Byte) : State :=
  { s with
    dst := writeBytes s.dst 0 out, dstLen := BitVec.ofNat 32 out.length, upPos := s.bitLen
    status := s.status.unpackClosed }

theorem decodeRule_eq (s : State) : decodeRule s =
    if ceil8 s.bitLen.toNat ≤ s.payLen.toNat then decodeBits s >>= fun out => .ok (decodedTo s out)
    else raise 0x29#8 .truncatedStream 1#8 s.payLen.toNat := by
  by_cases hlen : ceil8 s.bitLen.toNat ≤ s.payLen.toNat
  · simp only [decodeRule, upInit, if_pos hlen, upBits, BitVec.toNat_zero, decodeBits]
    cases decodeLoop s.code s.dstCap.toNat (bitsRead .pay s.pay 0 0 s.bitLen.toNat) [] [] <;> rfl
  · simp only [decodeRule, upInit, if_neg hlen, raise]

/-- DECODE leaves the emitted sequence in DST[0..DST_LEN), when it fits. -/
theorem decodedTo_dstBytes {s : State} {out : List Byte} (h : out.length ≤ s.dstCap.toNat) :
    dstBytes (decodedTo s out) = out := by
  rw [dstBytes, show (decodedTo s out).dstLen.toNat = out.length from toNat_ofNat_of_le h]
  exact readBytes_writeBytes _ _ _ _

theorem decodeRule_alike {s₁ s₂ : State} (hcode : Part.code.Same s₁ s₂) (hpay : SamePayload s₁ s₂)
    (hcap : s₂.dstCap = s₁.dstCap) :
    EndsAlike (fun t₁ t₂ => SameOutput t₁ t₂ ∧ t₂.upPos = t₁.upPos) (decodeRule s₁) (decodeRule s₂) := by
  rw [decodeRule_eq, decodeRule_eq, hpay.bitLen, hpay.payLen]
  split
  next hlen =>
    have hbytes := hpay.bytes
    rw [payBytes, payBytes, hpay.payLen] at hbytes
    have hbits : decodeBits s₂ = decodeBits s₁ := by
      rw [decodeBits, decodeBits, hcode.1, hcap, hpay.bitLen,
        (sameBytes_of_readBytes hbytes).bitsRead_eq 0 0 _ (by simpa using hlen)]
    refine (EndsAlike.of_eq hbits).bind fun out out' hout _ heq => ?_
    subst heq
    have hfit := decodeLoop_length hout (Nat.zero_le _)
    refine .ok ⟨⟨rfl, ?_⟩, hpay.bitLen⟩
    rw [decodedTo_dstBytes hfit, decodedTo_dstBytes (hcap ▸ hfit)]
  · exact .error _

theorem decompressRule_eq (s : State) : decompressRule s = deserRule s >>= decodeRule := by
  unfold decompressRule
  cases deserRule s <;> rfl

/-- DECOMPRESS depends on the input alone (R25, R216). -/
theorem decompressRule_alike {s₁ s₂ : State} (h : SameInput s₁ s₂) :
    EndsAlike (fun t₁ t₂ => Part.code.Same t₁ t₂ ∧ SamePayload t₁ t₂ ∧ SameOutput t₁ t₂ ∧ t₂.upPos = t₁.upPos)
      (decompressRule s₁) (decompressRule s₂) := by
  rw [decompressRule_eq, decompressRule_eq]
  refine (deserRule_alike h).bind fun t₁ t₂ h₁ h₂ ⟨hcode, hpay⟩ => ?_
  have hin := h.after (source_not_mem_writes .deser) (deserRule_writes h₁) (deserRule_writes h₂)
  refine (decodeRule_alike hcode hpay hin.dstCap).imp fun u₁ u₂ hd₁ hd₂ ⟨hout, hpos⟩ => ?_
  have hw₁ := decodeRule_writes hd₁
  have hw₂ := decodeRule_writes hd₂
  exact ⟨Part.code_same_after hcode (by simp [writes]) hw₁ hw₂,
    hpay.after (by simp [writes]) (by simp [writes]) (by simp [writes]) hw₁ hw₂, hout, hpos⟩

/-- Settles O51: DESER reads no byte past SRC_LEN, and DECODE no bit past the payload DESER leaves. -/
theorem decompressDependsOnItsInputAlone : Obligations.DecompressDependsOnItsInputAlone := by
  intro s₁ s₂ t₁ ha₁ ha₂ hlen hbytes hsrcCap hdstCap hpayCap hexec
  have hin : SameInput s₁ s₂ := ⟨hlen.symm, hbytes.symm, hsrcCap.symm, hdstCap.symm, hpayCap.symm⟩
  obtain ⟨t₂, hexec₂, herr, hfault, hok⟩ :=
    exec_alike (i := .decompress) (by simp) rfl ⟨ha₁, rfl⟩ ⟨ha₂, rfl⟩ (decompressRule_alike (begin_sameInput hin)) hexec
  refine ⟨t₂, hexec₂, herr, hfault, fun hclean => ?_⟩
  obtain ⟨u₁, u₂, ⟨⟨hcode, hncode⟩, hpay, hout, hpos⟩, rfl, rfl⟩ := hok hclean
  exact ⟨hout.dstLen, hout.bytes, hpay.bitLen, hpay.payLen, hpay.bytes, hcode, hncode, hpos⟩

end Sys2Proof.Machine
end

section
/-! PROOF. O11: reads out of range return 0 (spec 20_memory.md R71). -/

namespace Sys2Proof.Machine

/-! ## The range test of each space: a read that fails it reads 0 -/

theorem hostRead_freq_of_le {i : Nat} (u : Word) (s : State) (h : 256 ≤ i) : hostRead .freq i u s = 0#32 :=
  if_neg (Nat.not_lt.2 h)

theorem hostRead_node_of_le {i : Nat} (u : Word) (s : State) (h : 4 * Config.nodeMax ≤ i) :
    hostRead .node i u s = 0#32 :=
  if_neg (Nat.not_lt.2 h)

/-- CODE has two ends: its last entry, and word 8 of each entry. -/
theorem hostRead_code_of_not_word {i : Nat} (u : Word) (s : State) (h : ¬(i < 16 * 256 ∧ i % 16 ≤ 8)) :
    hostRead .code i u s = 0#32 :=
  if_neg h

theorem hostRead_src_of_le {i : Nat} (u : Word) (s : State) (h : s.srcCap.toNat ≤ i) : hostRead .src i u s = 0#32 :=
  if_neg (Nat.not_lt.2 h)

theorem hostRead_dst_of_le {i : Nat} (u : Word) (s : State) (h : s.dstCap.toNat ≤ i) : hostRead .dst i u s = 0#32 :=
  if_neg (Nat.not_lt.2 h)

theorem hostRead_pay_of_le {i : Nat} (u : Word) (s : State) (h : s.payCap.toNat ≤ i) : hostRead .pay i u s = 0#32 :=
  if_neg (Nat.not_lt.2 h)

/-- Settles O11: each clause places the index past an end of its space; a NODE record is 4 words and a CODE entry 16. -/
theorem outOfRangeReadsReturnZero : Obligations.OutOfRangeReadsReturnZero := by
  intro s u i
  refine ⟨hostRead_freq_of_le u s, fun hrecord => ?_, fun hsymbol => ?_, fun hword => ?_, hostRead_src_of_le u s,
    hostRead_dst_of_le u s, hostRead_pay_of_le u s⟩
  · exact hostRead_node_of_le u s (by simp only [Config.nodeMax]; omega)
  · exact hostRead_code_of_not_word u s (by omega)
  · exact hostRead_code_of_not_word u s (by omega)

end Sys2Proof.Machine
end

section
/-! SUPPORT. The encoder's fields, the decoder's rows, and the decoder as the inverse of the encoder (spec 30_encoding.md
R102 to R107). -/

namespace Sys2Proof.Machine

/-! ## The fields of a command's word -/

theorem opcField_encode (i : Instr) : opcField (encode i) = i.opcode := BitVec.extractLsb'_append_eq_left

theorem low24_encode (i : Instr) : (encode i).extractLsb' 0 24 = i.low24 := BitVec.extractLsb'_append_eq_right

theorem formatN_reserved (opc : Byte) (n : BitVec 6) : (opc ++ (0#18 ++ n) : Word).extractLsb' 6 18 = 0#18 := by
  rw [BitVec.extractLsb'_append_eq_of_add_le (by decide)]
  exact BitVec.extractLsb'_append_eq_left

theorem countField_formatN (opc : Byte) (n : BitVec 6) : countField (opc ++ (0#18 ++ n)) = n := by
  rw [countField, BitVec.extractLsb'_append_eq_of_add_le (by decide)]
  exact BitVec.extractLsb'_append_eq_right

/-! ## The rows of the opcode map -/

/-- The commands of format Z (R102, R104). -/
def formatZ : List Instr :=
  [.nop, .srst, .count, .build, .walk, .pkinit, .pkflush, .upinit, .encode, .decode, .ser, .deser, .compress,
    .decompress]

theorem mem_formatZ_or_formatN (i : Instr) : i ∈ formatZ ∨ (∃ n, i = .pkput n) ∨ ∃ n, i = .upget n := by
  cases i <;> simp [formatZ]

theorem wf_of_mem_formatZ : ∀ {i : Instr}, i ∈ formatZ → i.wf = true := by decide

theorem low24_of_mem_formatZ : ∀ {i : Instr}, i ∈ formatZ → i.low24 = 0#24 := by decide

theorem decodeWord_of_formatZ {w : Word} {i : Instr} (hi : i ∈ formatZ) (h : opcField w = i.opcode) :
    decodeWord w = decodeZ w i := by
  cases i with
  | pkput n | upget n => simp [formatZ] at hi
  | _ => simp [decodeWord, h, Instr.opcode]

theorem decodeWord_of_pkput {w : Word} (h : opcField w = 0x21#8) : decodeWord w = decodeN w .pkput := by
  simp [decodeWord, h]

theorem decodeWord_of_upget {w : Word} (h : opcField w = 0x24#8) : decodeWord w = decodeN w .upget := by
  simp [decodeWord, h]

theorem decodeWord_of_reserved {w : Word} (hz : opcField w ∉ formatZ.map Instr.opcode)
    (hn : opcField w ∉ [0x21#8, 0x24#8]) : decodeWord w = .error .reservedOpcode := by
  simp only [formatZ, List.map_cons, List.map_nil, Instr.opcode, List.mem_cons, List.not_mem_nil, or_false,
    not_or] at hz hn
  simp [decodeWord, hz, hn]

/-! ## The decoder inverts the encoder -/

theorem decodeN_formatN (opc : Byte) (n : BitVec 6) (f : BitVec 6 → Instr) :
    decodeN (opc ++ (0#18 ++ n)) f = if countLegal n then .ok (f n) else .error .badCount := by
  rw [decodeN, formatN_reserved, countField_formatN, if_pos rfl]

/-- The word of a command decodes to it, unless its operand is out of range (R103, R106). -/
theorem decodeWord_encode (i : Instr) : decodeWord (encode i) = if i.wf then .ok i else .error .badCount := by
  obtain hz | ⟨n, rfl⟩ | ⟨n, rfl⟩ := mem_formatZ_or_formatN i
  · rw [decodeWord_of_formatZ hz (opcField_encode i), decodeZ, low24_encode, low24_of_mem_formatZ hz,
      wf_of_mem_formatZ hz, if_pos rfl, if_pos rfl]
  · rw [decodeWord_of_pkput (opcField_encode _)]
    exact decodeN_formatN _ n .pkput
  · rw [decodeWord_of_upget (opcField_encode _)]
    exact decodeN_formatN _ n .upget

/-- The words that decode to a command: its own word, when it is well formed. -/
theorem decodeWord_eq_ok_iff {w : Word} {i : Instr} : decodeWord w = .ok i ↔ i.wf = true ∧ encode i = w := by
  constructor
  · intro h
    have hw : encode i = w := encode_of_decodeWord h
    rw [← hw, decodeWord_encode] at h
    exact ⟨by_contra fun hwf => by simp [hwf] at h, hw⟩
  · rintro ⟨hwf, rfl⟩
    rw [decodeWord_encode, if_pos hwf]

end Sys2Proof.Machine
end

section
/-! PROOF. O1, O2, O3: the words of the commands (spec 30_encoding.md R102 to R107). -/

namespace Sys2Proof.Machine

/-- Settles O3: both directions are the two halves of the characterisation of the decoder by the encoder. -/
theorem decodeEncodeAgree : Obligations.DecodeEncodeAgree :=
  ⟨fun _ hwf => decodeWord_eq_ok_iff.2 ⟨hwf, rfl⟩, fun _ _ h => decodeWord_eq_ok_iff.1 h⟩

/-! ## Match and mask -/

/-- The mask of format N and the mask of its operand together cover the word. -/
theorem formatN_masks_cover (w : Word) : w &&& 0xFFFFFFC0#32 ||| w &&& 0x3F#32 = w := by
  rw [← BitVec.and_or_distrib_left]
  exact BitVec.and_allOnes

/-- A word with the fixed bits m and the operand n is determined by them (R107). -/
theorem formatN_word_eq_iff {v w m : Word} {n : BitVec 6} (hm : v &&& 0xFFFFFFC0#32 = m)
    (hn : v &&& 0x3F#32 = n.setWidth 32) :
    v = w ↔ w &&& 0xFFFFFFC0#32 = m ∧ n.toNat = (w &&& 0x3F#32).toNat := by
  have hval : (v &&& 0x3F#32).toNat = n.toNat := by
    rw [hn, BitVec.toNat_setWidth_of_le (by decide)]
  constructor
  · rintro rfl
    exact ⟨hm, hval.symm⟩
  · rintro ⟨hwm, hwn⟩
    rw [← formatN_masks_cover v, ← formatN_masks_cover w, hm, hwm, BitVec.eq_of_toNat_eq (hval.trans hwn)]

theorem countLegal_iff (n : BitVec 6) : countLegal n = true ↔ 1 ≤ n.toNat ∧ n.toNat ≤ 32 := by
  simp [countLegal]

/-- A legal operand and a word of the row, as R107 writes them for format N. -/
theorem formatN_word_iff {v w m : Word} {n : BitVec 6} (hm : v &&& 0xFFFFFFC0#32 = m)
    (hn : v &&& 0x3F#32 = n.setWidth 32) :
    countLegal n = true ∧ v = w ↔ w &&& 0xFFFFFFC0#32 = m ∧ 1 ≤ (w &&& 0x3F#32).toNat ∧
      (w &&& 0x3F#32).toNat ≤ 32 ∧ n.toNat = (w &&& 0x3F#32).toNat := by
  rw [countLegal_iff, formatN_word_eq_iff hm hn]
  constructor
  · rintro ⟨⟨hlow, hhigh⟩, hw, hval⟩
    exact ⟨hw, hval ▸ hlow, hval ▸ hhigh, hval⟩
  · rintro ⟨hw, hlow, hhigh, hval⟩
    exact ⟨⟨hval ▸ hlow, hval ▸ hhigh⟩, hw, hval⟩

/-- Settles O2: the words of each command are its own word alone, and the opcode table's match and mask say which. -/
theorem wordIsCommandIffTabulated : Obligations.WordIsCommandIffTabulated := by
  intro w
  refine ⟨fun p hp => ?_, fun n => ?_, fun n => ?_⟩
  · have hrow : p.2.wf = true ∧ encode p.2 = p.1 <<< 24 := by
      revert p
      decide
    have hmask : w &&& 0xFFFFFFFF#32 = w := BitVec.and_allOnes
    rw [decodeWord_eq_ok_iff, hrow.2, hmask, and_iff_right hrow.1, eq_comm]
  · obtain ⟨hmatch, hoperand⟩ := Laws.TableRow.pkput n
    exact decodeWord_eq_ok_iff.trans (formatN_word_iff hmatch (hoperand n (.inl rfl)))
  · obtain ⟨hmatch, hoperand⟩ := Laws.TableRow.upget n
    exact decodeWord_eq_ok_iff.trans (formatN_word_iff hmatch (hoperand n (.inr rfl)))

/-- Settles O1: each row's word is the word of its command, which is well formed. -/
theorem tabulatedWordsDecode : Obligations.TabulatedWordsDecode := by
  intro p hp
  rw [decodeWord_eq_ok_iff]
  revert p
  decide

end Sys2Proof.Machine
end

section
/-! PROOF. O4, O5: what a word written to CMD does: a command's word runs the command, any other word raises
IllegalCommand (spec 30_encoding.md R101, R106, 46_system.md R237). -/

namespace Sys2Proof.Machine

theorem presentWord_of_ok {w : Word} {i : Instr} (h : decodeWord w = .ok i) (s : State) :
    presentWord w s = exec i s := by
  simp [presentWord, h]

theorem presentWord_of_error {w : Word} {e : DecodeError} (h : decodeWord w = .error e) (s : State) :
    presentWord w s = .next (illegalWord w e s) := by
  simp [presentWord, h]

theorem step_of_cmdWrite {s : State} {w : Word} (h : s.script[s.index]? = some (.wr .csr 0x04 w)) :
    step s = presentWord w s.advance := by
  simp [step, h, hostStep]

theorem step_of_script_end {s : State} (h : s.script[s.index]? = none) : step s = .next s := by
  simp only [step, h]

/-- Settles O5: the step presents the word, and a word that decodes runs its command. -/
theorem stepRunsTheDecodedCommand : Obligations.StepRunsTheDecodedCommand :=
  ⟨fun s _ _ hop hdecode => (step_of_cmdWrite hop).trans (presentWord_of_ok hdecode s.advance),
    fun _ hend => step_of_script_end hend⟩

/-- A word that is no command, taken by the block, ends in a fault entry with the decoder's sub-cause (R106, R246). -/
theorem presentWord_illegal {w : Word} {e : DecodeError} {s : State} (haccept : accepting s = true)
    (h : decodeWord w = .error e) :
    ∃ t, presentWord w s = .next t ∧
      FaultLatched (opcField w) { op := opcField w, cause := .illegalCommand, sub := e.sub, info := w } s t :=
  ⟨_, by rw [presentWord_of_error h, illegalWord, if_pos haccept], faultEntry_latched _ _ s⟩

theorem decodeWord_formatZ_reserved {w : Word} (hopc : opcField w ∈ formatZ.map Instr.opcode)
    (hlow : w.extractLsb' 0 24 ≠ 0#24) : decodeWord w = .error .reservedBits := by
  obtain ⟨i, hi, hrow⟩ := List.mem_map.1 hopc
  rw [decodeWord_of_formatZ hi hrow.symm, decodeZ, if_neg hlow]

theorem decodeWord_of_formatN {w : Word} (hopc : opcField w ∈ [0x21#8, 0x24#8]) :
    ∃ f, decodeWord w = decodeN w f := by
  simp only [List.mem_cons, List.not_mem_nil, or_false] at hopc
  obtain hput | hget := hopc
  · exact ⟨_, decodeWord_of_pkput hput⟩
  · exact ⟨_, decodeWord_of_upget hget⟩

theorem not_countLegal {n : BitVec 6} (h : n = 0#6 ∨ 32 < n.toNat) : ¬countLegal n = true := by
  rw [countLegal_iff]
  rintro ⟨hlow, hhigh⟩
  obtain rfl | hover := h
  · exact absurd hlow (by decide)
  · omega

/-- Settles O4: the decoder's rows give the sub-cause of each clause, and the fault entry latches it. -/
theorem undecodableWordsRaiseIllegalCommand : Obligations.UndecodableWordsRaiseIllegalCommand := by
  intro w s haccept
  refine ⟨fun hz hn => ?_, fun hz hlow => ?_, fun hn hmid => ?_, fun hn hmid hcount => ?_⟩
  · exact presentWord_illegal haccept (decodeWord_of_reserved hz hn)
  · exact presentWord_illegal haccept (decodeWord_formatZ_reserved hz hlow)
  · obtain ⟨f, hf⟩ := decodeWord_of_formatN hn
    exact presentWord_illegal (e := .reservedBits) haccept (hf.trans (if_neg hmid))
  · obtain ⟨f, hf⟩ := decodeWord_of_formatN hn
    have hillegal : ¬countLegal (countField w) = true := not_countLegal hcount
    exact presentWord_illegal haccept (by rw [hf, decodeN, if_pos hmid, if_neg hillegal])

end Sys2Proof.Machine
end

section
/-! PROOF. O12: the windows show the tables and the byte memories (spec 30_encoding.md R120 to R122, 46_system.md
R234). -/

namespace Sys2Proof.Machine

/-! ## The bits of a NODE record's words (R120) -/

/-- Word 0 of a record of NODE or CODE: a flag in bit 31, a byte in bits 7:0. -/
theorem flagOverByte_getLsbD (b : Bool) (v : Byte) (k : Nat) :
    (BitVec.ofBool b ++ 0#23 ++ v : BitVec (1 + 23 + 8)).getLsbD k =
      if k = 31 then b else if k < 8 then v.getLsbD k else false := by
  simp only [BitVec.getLsbD_append, BitVec.getLsbD_zero, BitVec.getLsbD_ofBool]
  by_cases hbyte : k < 8
  · have hne : k ≠ 31 := by omega
    simp [hbyte, hne]
  · by_cases hgap : k - 8 < 23
    · have hne : k ≠ 31 := by omega
      simp [hbyte, hgap, hne]
    · have hflag : k - 8 - 23 = 0 ↔ k = 31 := by omega
      simp [hbyte, hgap, hflag]

theorem nodeWord_zero_getLsbD (r : NodeRec) (k : Nat) :
    (nodeWord r 0).getLsbD k = if k = 31 then r.leaf else if k < 8 then r.sym.getLsbD k else false :=
  flagOverByte_getLsbD r.leaf r.sym k

/-- Each child index fills the low 9 bits of its half. -/
theorem nodeWord_one_getLsbD (r : NodeRec) {k : Nat} (hk : k < 32) :
    (nodeWord r 1).getLsbD k = if 16 ≤ k then r.right.getLsbD (k - 16) else r.left.getLsbD k := by
  change BitVec.getLsbD (w := 7 + 9 + 7 + 9) (0#7 ++ r.right ++ 0#7 ++ r.left) k = _
  simp only [BitVec.getLsbD_append, BitVec.getLsbD_zero]
  by_cases hhigh : 16 ≤ k
  · have hleft : ¬k < 9 := by omega
    have hgap : ¬k - 9 < 7 := by omega
    have hright : k - 9 - 7 = k - 16 := by omega
    by_cases hin : k - 16 < 9
    · simp [hhigh, hleft, hgap, hright, hin]
    · simp [hhigh, hleft, hgap, hright, hin, BitVec.getLsbD_of_ge r.right (k - 16) (by omega)]
  · by_cases hleft : k < 9
    · simp [hhigh, hleft]
    · have hgap : k - 9 < 7 := by omega
      simp [hhigh, hleft, hgap, BitVec.getLsbD_of_ge r.left k (by omega)]

theorem nodeWord_two_getLsbD (r : NodeRec) {k : Nat} (hk : k < 32) :
    (nodeWord r 2).getLsbD k = r.weight.getLsbD k := by
  simp [nodeWord, hk]

theorem nodeWord_three_getLsbD (r : NodeRec) (k : Nat) :
    (nodeWord r 3).getLsbD k = if k < 8 then r.weight.getLsbD (32 + k) else false := by
  change BitVec.getLsbD (w := 24 + 8) (0#24 ++ r.weight.extractLsb' 32 8) k = _
  rw [BitVec.getLsbD_append, BitVec.getLsbD_extractLsb', BitVec.getLsbD_zero]
  by_cases hk : k < 8 <;> simp [hk]

/-! ## The bits of a CODE entry's words (R121) -/

theorem codeWord_zero_getLsbD (e : CodeEntry) (k : Nat) :
    (codeWord e 0).getLsbD k =
      if k = 31 then e.valid else if k < 8 then e.bits.length.testBit k else false := by
  refine (flagOverByte_getLsbD e.valid (BitVec.ofNat 8 e.bits.length) k).trans ?_
  rw [BitVec.getLsbD_ofNat]
  by_cases hk : k < 8 <;> simp [hk]

/-- The code is left-aligned: bit 31 - j of word w is the code's bit 32 (w - 1) + j, 0 past its end. -/
theorem codeWord_getLsbD (e : CodeEntry) {w k : Nat} (hlow : 1 ≤ w) (hhigh : w ≤ 8) (hk : k < 32) :
    (codeWord e w).getLsbD k = e.bits.getD (32 * (w - 1) + (31 - k)) false := by
  have hw : w ≠ 0 := by omega
  rw [codeWord, if_neg hw, if_pos hhigh, BitVec.getLsbD_ofNat, testBit_bitsVal, bitGroup_length, if_pos hk,
    bitGroup_getD _ _ _ _ (by omega)]
  simp [hk]

/-- An entry that is not valid reads 0 (R43). -/
theorem codeWord_invalid (w : Nat) (hw : w ≤ 8) : codeWord { valid := false, bits := [] } w = 0#32 := by
  obtain rfl | hlow := Nat.eq_zero_or_pos w
  · decide
  · refine BitVec.eq_of_getLsbD_eq fun k hk => ?_
    rw [codeWord_getLsbD _ hlow hw hk, List.getD_nil, BitVec.getLsbD_zero]

/-! ## The meaningful entries of each window -/

section
variable {s : State} (u : Word)

theorem hostRead_freq_entry (herr : s.status.err = false) {x : Nat} (hx : x < 256) :
    hostRead .freq x u s = entryAt s.freq x := by
  simp [hostRead, regRead, herr, hx]

theorem hostRead_node_word (herr : s.status.err = false) (htree : s.status.treeValid = true) {i w : Nat}
    (hi : i < s.nnode.toNat) (hmax : i < 511) (hw : w < 4) :
    hostRead .node (4 * i + w) u s = nodeWord (entryAt s.node i) w := by
  have hrange : 4 * i + w < 4 * Config.nodeMax := by simp only [Config.nodeMax]; omega
  have hdiv : (4 * i + w) / 4 = i := by omega
  have hmod : (4 * i + w) % 4 = w := by omega
  rw [hostRead, if_pos hrange, hdiv, hmod, if_pos ⟨herr, htree, hi⟩]

theorem hostRead_code_word (herr : s.status.err = false) (hcode : s.status.codeValid = true) {x w : Nat}
    (hx : x < 256) (hw : w ≤ 8) : hostRead .code (16 * x + w) u s = codeWord (entryAt s.code x) w := by
  have hdiv : (16 * x + w) / 16 = x := by omega
  have hmod : (16 * x + w) % 16 = w := by omega
  have hrange : 16 * x + w < 16 * 256 := by omega
  rw [hostRead, hdiv, hmod, if_pos ⟨hrange, hw⟩, if_pos ⟨herr, hcode⟩]

theorem hostRead_dst_byte (herr : s.status.err = false) {i : Nat} (hi : i < s.dstLen.toNat)
    (hcap : i < s.dstCap.toNat) : hostRead .dst i u s = (readByte .dst s.dst i).setWidth 32 := by
  rw [hostRead, if_pos hcap, if_pos ⟨herr, hi⟩]

theorem hostRead_pay_byte (herr : s.status.err = false) (hpay : s.status.payValid = true) {i : Nat}
    (hi : i < s.payLen.toNat) (hcap : i < s.payCap.toNat) :
    hostRead .pay i u s = (readByte .pay s.pay i).setWidth 32 := by
  rw [hostRead, if_pos hcap, if_pos ⟨herr, hpay, hi⟩]

theorem hostRead_src_byte {i : Nat} (hi : i < s.srcLen.toNat) (hcap : i < s.srcCap.toNat) :
    hostRead .src i u s = (readByte .src s.src i).setWidth 32 := by
  rw [hostRead, if_pos hcap, if_pos hi]

end

/-- Settles O12: each meaningful index reads its entry, and the bits of a record's words are those of R120 and R121. -/
theorem tableWindowsShowTheTables : Obligations.TableWindowsShowTheTables := by
  refine ⟨fun s u haccept => ?_, fun s u i _ hi hcap => hostRead_src_byte u hi hcap⟩
  obtain ⟨-, herr⟩ := (accepting_iff s).1 haccept
  refine ⟨fun x hx => hostRead_freq_entry u herr hx, fun htree i k hi hmax hk => ?_, fun hcode x k hx hk => ?_,
    fun hcode x w hx hw hinvalid => ?_, fun i hi hcap => hostRead_dst_byte u herr hi hcap,
    fun hpay i hi hcap => hostRead_pay_byte u herr hpay hi hcap⟩
  · have hword (w : Nat) (hw : w < 4) : hostRead .node (4 * i + w) u s = nodeWord (entryAt s.node i) w :=
      hostRead_node_word u herr htree hi hmax hw
    have hword0 : hostRead .node (4 * i) u s = nodeWord (entryAt s.node i) 0 := hword 0 (by decide)
    refine ⟨?_, ?_, ?_, ?_⟩
    · rw [hword0, nodeWord_zero_getLsbD]
    · rw [hword 1 (by decide), nodeWord_one_getLsbD _ hk]
    · rw [hword 2 (by decide), nodeWord_two_getLsbD _ hk]
    · rw [hword 3 (by decide), nodeWord_three_getLsbD]
  · have hword0 : hostRead .code (16 * x) u s = codeWord (entryAt s.code x) 0 :=
      hostRead_code_word u herr hcode hx (Nat.zero_le 8)
    refine ⟨?_, fun w hlow hhigh => ?_⟩
    · rw [hword0, codeWord_zero_getLsbD]
    · rw [hostRead_code_word u herr hcode hx hhigh, codeWord_getLsbD _ hlow hhigh hk]
  · rw [hostRead_code_word u herr hcode hx hw, hinvalid, codeWord_invalid w hw]

end Sys2Proof.Machine
end

section
/-! SUPPORT. The test that SRC fits, both ways (spec 60_exceptions.md R248); and the table the fold of COUNT leaves: each
byte adds one to its own entry, so an entry gains the number of its symbol's occurrences (spec 40_frequency.md R141). -/

namespace Sys2Proof.Machine

/-! ## The test that SRC fits -/

theorem needSrcFits_of_le (op : Byte) {s : State} (h : s.srcLen.toNat ≤ s.srcCap.toNat) :
    needSrcFits op s = .ok () := if_pos h

theorem needSrcFits_of_lt (op : Byte) {s : State} (h : s.srcCap.toNat < s.srcLen.toNat) :
    needSrcFits op s = .error (.raised (faultOf op .capacityExceeded 1#8 s.srcLen.toNat)) :=
  if_neg (Nat.not_le.2 h)

/-! ## The counts -/

theorem entryAt_countByte (t : FreqTable) (b : Byte) (x : Nat) :
    entryAt (countByte t b) x = if b.toNat = x then entryAt t x + 1#32 else entryAt t x := by
  rw [countByte, entryAt_putEntry _ _ _ _ b.isLt]
  by_cases hx : x = b.toNat
  · simp [hx]
  · simp [hx, Ne.symm hx]

/-- From any table, modulo the width of an entry. -/
theorem entryAt_countBytes (bs : List Byte) (t : FreqTable) (x : Nat) :
    entryAt (bs.foldl countByte t) x = entryAt t x + BitVec.ofNat 32 (bs.countP fun b => b.toNat == x) := by
  induction bs generalizing t with
  | nil => simp
  | cons b bs ih =>
    rw [List.foldl_cons, ih, entryAt_countByte, List.countP_cons]
    by_cases hb : b.toNat = x
    · simp only [hb, beq_self_eq_true, if_true, BitVec.ofNat_add]
      rw [BitVec.add_assoc, BitVec.add_comm 1#32]
    · simp [hb]

/-- From the zero table no count wraps, for fewer than 2^32 bytes. -/
theorem entryAt_histogram (bs : List Byte) (hlen : bs.length < 2 ^ 32) (x : Nat) (hx : x < 256) :
    (entryAt (bs.foldl countByte zeroFreq) x).toNat = bs.countP fun b => b.toNat == x := by
  have hcount : (bs.countP fun b => b.toNat == x) < 2 ^ 32 := bs.countP_le_length.trans_lt hlen
  rw [entryAt_countBytes, zeroFreq_entry x hx, BitVec.zero_add, BitVec.toNat_ofNat, Nat.mod_eq_of_lt hcount]

theorem srcBytes_length_lt (s : State) : (srcBytes s).length < 2 ^ 32 :=
  (readBytes_length .src s.src 0 s.srcLen.toNat).trans_lt s.srcLen.isLt

/-- The occurrences in SRC[0..SRC_LEN), counted by their indices (R53). -/
theorem countP_srcBytes (s : State) (p : Byte → Bool) :
    (srcBytes s).countP p = ((List.range s.srcLen.toNat).filter fun i => p (readByte .src s.src i)).length := by
  rw [srcBytes, readBytes, List.countP_map, List.countP_eq_length_filter]
  simp only [Function.comp_def, Nat.zero_add]

end Sys2Proof.Machine
end

section
/-! PROOF. O20: COUNT leaves the histogram of SRC[0..SRC_LEN) in FREQ (spec 40_frequency.md R141). -/

namespace Sys2Proof.Machine

theorem countRule_of_le {s : State} (h : s.srcLen.toNat ≤ s.srcCap.toNat) :
    countRule s = .ok { s with freq := (srcBytes s).foldl countByte zeroFreq, status := s.status.clearTree } := by
  rw [countRule_eq, needSrcFits_of_le _ h]
  rfl

theorem countRule_of_lt {s : State} (h : s.srcCap.toNat < s.srcLen.toNat) :
    countRule s = .error (.raised (faultOf 0x10#8 .capacityExceeded 1#8 s.srcLen.toNat)) := by
  rw [countRule_eq, needSrcFits_of_lt _ h]
  rfl

/-- The whole result of COUNT (R141). -/
theorem exec_count {s : State} (haccept : accepting s = true) (hfit : s.srcLen.toNat ≤ s.srcCap.toNat) :
    exec .count s =
      .next { s with freq := (srcBytes s).foldl countByte zeroFreq, status := s.status.clearTree } := by
  have hidle : s.status.busyOn.busyOff = s.status := busyOn_busyOff _ ((accepting_iff s).1 haccept).1
  have hstatus : s.status.busyOn.clearTree.busyOff = s.status.clearTree := congrArg Status.clearTree hidle
  rw [exec_of_rule (i := .count) (by decide) rfl ⟨haccept, rfl⟩ (countRule_of_le (s := begin s) hfit), ← hstatus]
  rfl

/-- Settles O20: the fold of COUNT counts each symbol's occurrences, and SRC_LEN < 2^32 keeps a count from wrapping. -/
theorem countWritesTheHistogram : Obligations.CountWritesTheHistogram := by
  refine fun s haccept => ⟨fun hfit => ⟨_, exec_count haccept hfit, fun x hx => ?_, rfl⟩, fun hover => ?_⟩
  · rw [entryAt_histogram _ (srcBytes_length_lt s) x hx, countP_srcBytes]
  · exact raises_of_rule (i := .count) (by decide) rfl ⟨haccept, rfl⟩ (countRule_of_lt (s := begin s) hover)

end Sys2Proof.Machine
end

section
/-! SUPPORT. What BUILD answers, both ways (spec 41_tree_builder.md R148, R151), with the state it leaves by name; and
what WALK answers on a tree (spec 42_codebook.md R161). -/

namespace Sys2Proof.Machine

/-- A tree has a leaf when some symbol is counted (R146). -/
theorem leafSyms_ne_nil_iff (freq : FreqTable) : leafSyms freq ≠ [] ↔ ∃ x, x < 256 ∧ entryAt freq x ≠ 0#32 := by
  rw [Ne, List.eq_nil_iff_forall_not_mem]
  simp only [mem_leafSyms, not_forall, not_not]

/-- The state BUILD leaves when some symbol is counted (R148). -/
def built (s : State) : State :=
  { s with
    node := (builtTree s).node
    nsym := BitVec.ofNat 9 (makeLeaves s.freq s.node).1
    nnode := BitVec.ofNat 10 (builtTree s).next
    root := BitVec.ofNat 9 ((builtTree s).active.headD 0)
    status := s.status.setTree }

theorem buildRule_of_counted {s : State} (hsome : leafSyms s.freq ≠ []) : buildRule s = .ok (built s) := by
  have hcount : (makeLeaves s.freq s.node).1 ≠ 0 := by simpa [makeLeaves_count] using hsome
  simp only [buildRule, if_neg hcount]
  rfl

theorem buildRule_of_uncounted {s : State} (hnone : leafSyms s.freq = []) :
    buildRule s = .error (.raised (faultOf 0x11#8 .emptyInput 0#8 0)) := by
  have hcount : (makeLeaves s.freq s.node).1 = 0 := by simp [makeLeaves_count, hnone]
  simp only [buildRule, if_pos hcount]
  rfl

/-- The whole result of BUILD when some symbol is counted (R148). -/
theorem exec_build {s : State} (haccept : accepting s = true) (hsome : leafSyms s.freq ≠ []) :
    exec .build s = .next (built s) := by
  have hidle : s.status.busyOn.busyOff = s.status := busyOn_busyOff _ ((accepting_iff s).1 haccept).1
  have hfinish : finish (built (begin s)) = built s :=
    congrArg (fun f : Status => { built s with status := f.setTree }) hidle
  rw [exec_of_rule (i := .build) (by decide) rfl ⟨haccept, rfl⟩ (buildRule_of_counted (s := begin s) hsome), hfinish]

/-- The merge loop from the leaves of FREQ keeps their forest to its end (R148). -/
theorem builtTree_forest (s : State) : Forest s.freq (builtTree s) ∧ (builtTree s).active.length ≤ 1 :=
  forest_mergeLoop _ (forest_leaves s.freq s.node) (by simp)

/-- The merge loop ends with the root alone active (R148, R149). -/
theorem builtTree_single {s : State} (hsome : leafSyms s.freq ≠ []) :
    (builtTree s).next = 2 * (leafSyms s.freq).length - 1 ∧ (builtTree s).active = [(builtTree s).next - 1] :=
  have ⟨hforest, hle⟩ := builtTree_forest s
  hforest.single hle hsome

/-- The state BUILD leaves holds the strict greedy tree of FREQ (R148). -/
theorem built_tree {s : State} (hsome : leafSyms s.freq ≠ []) :
    TreeOk (built s) ∧ GreedyTree (built s) ∧
      (entryAt (built s).node (built s).root.toNat).weight.toNat = totalCount s.freq :=
  buildRule_tree (buildRule_of_counted hsome)

/-- The whole result of WALK of a tree (R161). -/
theorem exec_walk {s : State} (hready : Ready .walk s) (ht : TreeOk s) :
    ∃ code, WalkedCode s code ∧
      exec .walk s = .next { s with code := code, ncode := s.nsym, status := s.status.walked } := by
  obtain ⟨code, hwalk, hw⟩ := walkTree_spec ht
  have hrule : walkRule (begin s) = .ok { begin s with
      code := code, ncode := s.nsym, status := (begin s).status.walked } := by
    simp only [walkRule, begin, hwalk]
  have hidle : s.status.busyOn.busyOff = s.status := busyOn_busyOff _ ((accepting_iff s).1 hready.1).1
  have hstatus : s.status.busyOn.walked.busyOff = s.status.walked := congrArg Status.walked hidle
  refine ⟨code, hw, ?_⟩
  rw [exec_of_rule (i := .walk) (by decide) rfl hready hrule, ← hstatus]
  rfl

end Sys2Proof.Machine
end

section
/-! PROOF. O21: BUILD makes the strict greedy tree of FREQ (spec 41_tree_builder.md R146 to R151). -/

namespace Sys2Proof.Machine

/-- Settles O21: the merge loop's forest ends as one strict greedy tree, and no leaf is EmptyInput. -/
theorem buildMakesTheGreedyTree : Obligations.BuildMakesTheGreedyTree := by
  refine fun s haccept => ⟨fun hcounted => ?_, fun hzero => ?_⟩
  · have hsome := (leafSyms_ne_nil_iff s.freq).2 hcounted
    obtain ⟨htree, hgreedy, hweight⟩ := built_tree hsome
    exact ⟨built s, exec_build haccept hsome, htree, hgreedy, hweight, rfl⟩
  · have hnone : leafSyms s.freq = [] := by
      by_contra hsome
      obtain ⟨x, hx, hcount⟩ := (leafSyms_ne_nil_iff s.freq).1 hsome
      exact hcount (hzero x hx)
    exact raises_of_rule (i := .build) (by decide) rfl ⟨haccept, rfl⟩ (buildRule_of_uncounted (s := begin s) hnone)

end Sys2Proof.Machine
end

section
/-! PROOF. O22: BUILD is a function of FREQ alone (spec 41_tree_builder.md R153). -/

namespace Sys2Proof.Machine

/-- Settles O22: two runs of BUILD from the same counts end alike, with the same records below NNODE. -/
theorem buildDependsOnFreqAlone : Obligations.BuildDependsOnFreqAlone := by
  intro s₁ s₂ t₁ haccept₁ haccept₂ hfreq hexec herr
  have halike : EndsAlike SameTree (ruleOf .build (begin s₁)) (ruleOf .build (begin s₂)) := buildRule_alike hfreq.symm
  obtain ⟨t₂, hexec₂, herr₂, _, hsame⟩ :=
    exec_alike (i := .build) (by decide) rfl ⟨haccept₁, rfl⟩ ⟨haccept₂, rfl⟩ halike hexec
  obtain ⟨u₁, u₂, htree, rfl, rfl⟩ := hsame herr
  exact ⟨_, hexec₂, herr₂.trans herr, htree.nsym, htree.nnode, htree.root, htree.node⟩

end Sys2Proof.Machine
end

section
/-! PROOF. O25: one symbol gives the one-leaf tree and the code "0" (spec 41_tree_builder.md R152, 42_codebook.md
R162). -/

namespace Sys2Proof.Machine

theorem leafSyms_eq_singleton {freq : FreqTable} {z : Byte} (hz : entryAt freq z.toNat ≠ 0#32)
    (hothers : ∀ x, x < 256 → x ≠ z.toNat → entryAt freq x = 0#32) : leafSyms freq = [z.toNat] := by
  refine List.perm_singleton.1 ((List.perm_ext_iff_of_nodup ?_ (List.nodup_singleton _)).2 fun x => ?_)
  · exact (leafSyms_sorted freq).imp ne_of_lt
  · rw [mem_leafSyms, List.mem_singleton]
    constructor
    · rintro ⟨hx, hcount⟩
      by_contra hne
      exact hcount (hothers x hx hne)
    · rintro rfl
      exact ⟨z.isLt, hz⟩

/-- BUILD on one counted symbol leaves its leaf as the only record (R152). -/
theorem built_of_singleton {s : State} {z : Byte} (hsyms : leafSyms s.freq = [z.toNat]) :
    (built s).nsym = 1#9 ∧ (built s).nnode = 1#10 ∧ (built s).root = 0#9 ∧
      entryAt (built s).node 0 = leafOf s.freq z.toNat := by
  obtain ⟨hforest, _⟩ := builtTree_forest s
  obtain ⟨hnext, hactive⟩ := builtTree_single (s := s) (by simp [hsyms])
  have hleaf := hforest.leaf 0 (by simp [hsyms])
  simp only [hsyms, List.length_singleton, List.getElem_cons_zero] at hnext hleaf
  refine ⟨?_, ?_, ?_, hleaf⟩
  · simp only [built, makeLeaves_count, hsyms, List.length_singleton]
  · simp only [built, hnext]
  · simp only [built, hactive, hnext, List.headD_cons]

/-- Settles O25: the only leaf is the root, so WALK gives its symbol the code "0". -/
theorem oneSymbolGetsTheCodeZero : Obligations.OneSymbolGetsTheCodeZero := by
  intro s z haccept hz hothers
  have hsyms := leafSyms_eq_singleton hz hothers
  have hsome : leafSyms s.freq ≠ [] := by simp [hsyms]
  obtain ⟨hnsym, hnnode, hroot, hleaf⟩ := built_of_singleton hsyms
  have hsym : (entryAt (built s).node 0).sym = z := by simp [hleaf, leafOf]
  have hready : Ready .walk (built s) := ⟨haccept, rfl⟩
  obtain ⟨code, hcode, hwalk⟩ := exec_walk hready (built_tree hsome).1
  refine ⟨_, _, exec_build haccept hsome, hnsym, hnnode, hroot, ?_, hwalk, hnsym, fun x hx => ?_⟩
  · rw [hleaf, leafOf, BitVec.ofNat_toNat, BitVec.setWidth_eq]
  · split
    next hxz =>
      obtain ⟨_, _, hentry⟩ := hcode.leaves 0 (by simp [hnsym])
      simpa [hsym, hnsym, hxz] using hentry
    next hxz =>
      refine hcode.others x hx fun k hk => ?_
      obtain rfl : k = 0 := by simpa [hnsym] using hk
      rw [hsym]
      exact Ne.symm hxz

end Sys2Proof.Machine
end

section
/-! PROOF. O45: every byte sequence has a codebook that covers it (spec 41_tree_builder.md R153, 42_codebook.md R163,
45_codec.md R213, R214). -/

namespace Sys2Proof.Machine

/-- The state after reset, with the counts of a byte sequence in FREQ. -/
def countedState (bs : List Byte) : State := { State.reset with freq := bs.foldl countByte zeroFreq }

/-- ROOT holds the root's index unwrapped. -/
theorem built_root_toNat {s : State} (hsome : leafSyms s.freq ≠ []) :
    (built s).root.toNat = (builtTree s).active.headD 0 := by
  obtain ⟨hnext, hactive⟩ := builtTree_single hsome
  have hfew := leafSyms_length_le s.freq
  simp only [built, hactive, List.headD_cons, BitVec.toNat_ofNat]
  exact Nat.mod_eq_of_lt (by omega)

/-- The codebook of a sequence that is not empty is what WALK makes of the tree BUILD makes of its counts (R213). -/
theorem huffmanCode_eq_walkTree {bs : List Byte} (hbs : bs ≠ []) (hsome : leafSyms (countedState bs).freq ≠ []) :
    huffmanCode bs = walkTree (built (countedState bs)).node (built (countedState bs)).root.toNat := by
  rw [huffmanCode, if_neg hbs, built_root_toNat hsome]
  rfl

/-- A byte of the sequence is counted. -/
theorem countedState_freq_ne_zero {bs : List Byte} (hlen : bs.length < 2 ^ 32) {b : Byte} (hb : b ∈ bs) :
    entryAt (countedState bs).freq b.toNat ≠ 0#32 := by
  intro hzero
  have hcount := entryAt_histogram bs hlen b.toNat b.isLt
  rw [show entryAt (bs.foldl countByte zeroFreq) b.toNat = 0#32 from hzero] at hcount
  have hpos : 0 < bs.countP fun c => c.toNat == b.toNat := List.countP_pos_iff.2 ⟨b, hb, beq_self_eq_true _⟩
  exact hpos.ne hcount

/-- Settles O45: each byte of the sequence is counted, so it is a leaf's symbol, and WALK gives every leaf a code. -/
theorem everySequenceHasACodebook : Obligations.EverySequenceHasACodebook := by
  intro bs hlen
  by_cases hbs : bs = []
  · subst hbs
    exact ⟨emptyCode, rfl, emptyCode_codeOk, fun b hb => absurd hb List.not_mem_nil⟩
  · obtain ⟨b₀, hb₀⟩ := List.exists_mem_of_ne_nil bs hbs
    have hsome : leafSyms (countedState bs).freq ≠ [] :=
      (leafSyms_ne_nil_iff _).2 ⟨b₀.toNat, b₀.isLt, countedState_freq_ne_zero hlen hb₀⟩
    obtain ⟨htree, _⟩ := built_tree hsome
    obtain ⟨code, hwalk, hcode⟩ := walkTree_spec htree
    refine ⟨code, (huffmanCode_eq_walkTree hbs hsome).trans hwalk, hcode.codeOk htree, fun b hb => ?_⟩
    exact (hcode.valid_iff _ b.isLt).2 (htree.complete _ b.isLt (countedState_freq_ne_zero hlen hb))

end Sys2Proof.Machine
end

section
/-! PROOF. O23: WALK gives each leaf its path (spec 42_codebook.md R160 to R162). -/

namespace Sys2Proof.Machine

/-- Settles O23: WALK of a tree ends, with the tree's codebook, its count and R161's flags the only changes. -/
theorem walkGivesEachLeafItsPath : Obligations.WalkGivesEachLeafItsPath := by
  intro s hready ht
  obtain ⟨_, hcode, hwalk⟩ := exec_walk hready ht
  exact ⟨_, hwalk, hcode.leaves, hcode.others, rfl⟩

end Sys2Proof.Machine
end

section
/-! PROOF. O24: WALK's codebook is prefix-free and full (spec 42_codebook.md R163). The codes are the
root's paths to the leaves, once each, and at every internal node the two subtrees share the Kraft weight in equal
halves. -/

namespace Sys2Proof.Machine

/-! ## The valid codes -/

theorem mem_validCodes (code : CodeTable) (p : Bits) :
    p ∈ validCodes code ↔ ∃ x, x < 256 ∧ (entryAt code x).valid = true ∧ (entryAt code x).bits = p := by
  simp [validCodes_eq, mem_validSyms, and_assoc]

/-- No two symbols share a code, for each would begin the other (R44). -/
theorem CodeOk.validCodes_nodup {code : CodeTable} (hok : CodeOk code) : (validCodes code).Nodup := by
  rw [validCodes_eq]
  refine (validSyms_nodup code).map_on fun x hx y hy hbits => ?_
  obtain ⟨hx, hvx⟩ := (mem_validSyms code x).1 hx
  obtain ⟨hy, hvy⟩ := (mem_validSyms code y).1 hy
  by_contra hxy
  exact hok.prefix_free x y hx hy hxy hvx hvy (hbits ▸ List.prefix_rfl)

/-- The Kraft sum may be taken over any duplicate-free list of exactly the codes. -/
theorem CodeOk.kraftSum_eq {code : CodeTable} (hok : CodeOk code) {l : List Bits} (hl : l.Nodup)
    (hmem : ∀ p, p ∈ validCodes code ↔ p ∈ l) : kraftSum code = (l.map fun p => 2 ^ (255 - p.length)).sum :=
  (((List.perm_ext_iff_of_nodup hok.validCodes_nodup hl).2 hmem).map _).sum_eq

/-! ## The paths of a tree -/

/-- The paths from a node to the leaves below it, by at most the given number of nodes. -/
def leafPaths (node : NodeTable) : Nat → Nat → List Bits
  | 0, _ => []
  | fuel + 1, i =>
    if (entryAt node i).leaf then [[]]
    else
      (leafPaths node fuel (entryAt node i).left.toNat).map (false :: ·) ++
        (leafPaths node fuel (entryAt node i).right.toNat).map (true :: ·)

theorem leafPaths_of_leaf {node : NodeTable} {fuel i : Nat} (hleaf : (entryAt node i).leaf = true) :
    leafPaths node (fuel + 1) i = [[]] := if_pos hleaf

theorem leafPaths_of_internal {node : NodeTable} {fuel i : Nat} (hleaf : (entryAt node i).leaf = false) :
    leafPaths node (fuel + 1) i =
      (leafPaths node fuel (entryAt node i).left.toNat).map (false :: ·) ++
        (leafPaths node fuel (entryAt node i).right.toNat).map (true :: ·) :=
  if_neg (by simp [hleaf])

theorem mem_leafPaths {node : NodeTable} {b : Nat} (hdown : Descending node b) {fuel i : Nat} (hi : i < b)
    (hfuel : i < fuel) (p : Bits) : p ∈ leafPaths node fuel i ↔ ∃ x, LeadsTo node i p x := by
  induction fuel generalizing i p with
  | zero => omega
  | succ fuel ih =>
    cases hleaf : (entryAt node i).leaf
    · obtain ⟨hleft, hright⟩ := hdown i hi hleaf
      have hl := ih (i := (entryAt node i).left.toNat) (by omega) (by omega)
      have hr := ih (i := (entryAt node i).right.toNat) (by omega) (by omega)
      rw [leafPaths_of_internal hleaf]
      match p with
      | [] => simp [not_leadsTo_nil hleaf]
      | false :: p => simp [hl, leadsTo_cons hleaf]
      | true :: p => simp [hr, leadsTo_cons hleaf]
    · simp [leafPaths_of_leaf hleaf, leadsTo_leaf hleaf]

theorem leafPaths_nodup (node : NodeTable) (fuel i : Nat) : (leafPaths node fuel i).Nodup := by
  induction fuel generalizing i with
  | zero => exact List.nodup_nil
  | succ fuel ih =>
    cases hleaf : (entryAt node i).leaf
    · rw [leafPaths_of_internal hleaf]
      refine ((ih _).map List.cons_injective).append ((ih _).map List.cons_injective) fun p hl hr => ?_
      obtain ⟨_, _, rfl⟩ := List.mem_map.1 hl
      simp at hr
    · simp [leafPaths_of_leaf hleaf]

/-- One edge label halves the weight of every path below it. -/
theorem sum_weights_cons (l : List Bits) (b : Bool) (d : Nat) :
    ((l.map (b :: ·)).map fun p => 2 ^ (d + 1 - p.length)).sum = (l.map fun p => 2 ^ (d - p.length)).sum := by
  simp [Function.comp_def]

theorem follow_snoc {node : NodeTable} {i k : Nat} {p : Bits} {b : Bool} (h : follow node i (p ++ [b]) = some k) :
    ∃ j, follow node i p = some j ∧ (entryAt node j).leaf = false ∧
      k = if b then (entryAt node j).right.toNat else (entryAt node j).left.toNat := by
  induction p generalizing i with
  | nil =>
    cases hleaf : (entryAt node i).leaf
    · exact ⟨i, rfl, hleaf, by simpa [follow, hleaf, eq_comm] using h⟩
    · simp [follow, hleaf] at h
  | cons c p ih =>
    rw [List.cons_append, follow_cons] at h
    rw [follow_cons]
    split at h
    · cases h
    next hleaf =>
      rw [if_neg hleaf]
      exact ih h

section
variable {s : State} (ht : TreeOk s)
include ht

/-- The paths from a node to the leaves below it weigh 2^d together when no path is longer than d. -/
theorem TreeOk.sum_weights_leafPaths {fuel i : Nat} (d : Nat) (hi : i < s.nnode.toNat) (hfuel : i < fuel)
    (hd : i + 1 - s.nsym.toNat ≤ d) : ((leafPaths s.node fuel i).map fun p => 2 ^ (d - p.length)).sum = 2 ^ d := by
  induction fuel generalizing i d with
  | zero => omega
  | succ fuel ih =>
    cases hleaf : (entryAt s.node i).leaf
    · have hge : ¬i < s.nsym.toNat := fun h => by simp [(ht.leaf_iff hi).2 h] at hleaf
      obtain ⟨hleft, hright⟩ := ht.descending i hi hleaf
      obtain ⟨d, rfl⟩ : ∃ e, d = e + 1 := ⟨d - 1, by omega⟩
      rw [leafPaths_of_internal hleaf, List.map_append, List.sum_append, sum_weights_cons, sum_weights_cons,
        ih d (by omega) (by omega) (by omega), ih d (by omega) (by omega) (by omega), Nat.pow_succ, Nat.mul_two]
    · simp [leafPaths_of_leaf hleaf]

/-- The last edge of a path from the root comes from the parent of the node it ends in. -/
theorem TreeOk.last_edge {p : Bits} {b : Bool} {k : Nat} (h : follow s.node s.root.toNat (p ++ [b]) = some k) :
    ∃ j, follow s.node s.root.toNat p = some j ∧ ParentOf s.node s.nsym.toNat s.nnode.toNat j k ∧
      k = if b then (entryAt s.node j).right.toNat else (entryAt s.node j).left.toNat := by
  obtain ⟨j, hj, hleaf, hk⟩ := follow_snoc h
  obtain ⟨_, hjlt⟩ := ht.path_length ht.root_lt hj
  have hge : ¬j < s.nsym.toNat := fun hlt => by simp [(ht.leaf_iff hjlt).2 hlt] at hleaf
  refine ⟨j, hj, ⟨by omega, hjlt, ?_⟩, hk⟩
  cases b
  · exact .inl hk.symm
  · exact .inr hk.symm

/-- No path but the empty one comes back to the root: children come before their parents (R149). -/
theorem TreeOk.root_path_nil {p : Bits} (h : follow s.node s.root.toNat p = some s.root.toNat) : p = [] := by
  obtain rfl | ⟨p, b, rfl⟩ := p.eq_nil_or_concat'
  · rfl
  · obtain ⟨j, _, hparent, _⟩ := ht.last_edge h
    obtain ⟨hge, hlt, hchild⟩ := hparent
    obtain ⟨_, _, hleft, hright, _⟩ := ht.internal j hge hlt
    have hroot := ht.root
    omega

/-- One path at most leads from the root to a node: a node has one parent, of which it is one child (R149). -/
theorem TreeOk.path_unique {p q : Bits} {k : Nat} (hp : follow s.node s.root.toNat p = some k)
    (hq : follow s.node s.root.toNat q = some k) : p = q := by
  induction p using List.reverseRecOn generalizing q k with
  | nil =>
    cases hp
    exact (ht.root_path_nil hq).symm
  | append_singleton p b ih =>
    obtain ⟨j, hj, hjk, hk⟩ := ht.last_edge hp
    obtain rfl | ⟨q, c, rfl⟩ := q.eq_nil_or_concat'
    · cases hq
      exact ht.root_path_nil hp
    · obtain ⟨j', hj', hjk', hk'⟩ := ht.last_edge hq
      obtain rfl := ht.one_parent k j j' hjk hjk'
      obtain ⟨_, _, _, _, hne, _⟩ := ht.internal j hjk.1 hjk.2.1
      have hbc : b = c := by
        have hne' := mt BitVec.eq_of_toNat_eq hne
        cases b <;> cases c
        · rfl
        · exact absurd (hk.symm.trans hk') hne'
        · exact absurd (hk'.symm.trans hk) hne'
        · rfl
      rw [ih hj hj', hbc]

end

/-! ## The Kraft sum of WALK's codebook -/

/-- The code of the only symbol is "0" (R162). -/
theorem WalkedCode.mem_validCodes_singleton {s : State} {code : CodeTable} (hw : WalkedCode s code)
    (hone : s.nsym.toNat = 1) (p : Bits) : p ∈ validCodes code ↔ p ∈ [[false]] := by
  rw [mem_validCodes, List.mem_singleton]
  constructor
  · rintro ⟨x, hx, hvalid, rfl⟩
    obtain ⟨_, _, _, _, _, hbits⟩ := hw.leaf_of_valid hx hvalid
    rw [hbits, if_pos hone]
  · rintro rfl
    obtain ⟨_, _, hentry⟩ := hw.leaves 0 (by omega)
    exact ⟨_, (entryAt s.node 0).sym.isLt, by rw [hentry], by rw [hentry, if_pos hone]⟩

section
variable {s : State} {code : CodeTable} (ht : TreeOk s) (hw : WalkedCode s code)
include ht hw

/-- The codes of two symbols or more are the paths from the root to the leaves (R161). -/
theorem WalkedCode.mem_validCodes_iff (hmany : 2 ≤ s.nsym.toNat) (p : Bits) :
    p ∈ validCodes code ↔ ∃ x, LeadsTo s.node s.root.toNat p x := by
  rw [mem_validCodes]
  constructor
  · rintro ⟨x, hx, hvalid, rfl⟩
    obtain ⟨k, path, hk, hsym, hpath, hbits⟩ := hw.leaf_of_valid hx hvalid
    rw [hbits, if_neg (by omega)]
    exact ⟨x, k, hpath, (ht.leaves k hk).1, hsym⟩
  · rintro ⟨x, hx⟩
    obtain ⟨k, hk, hfollow, _⟩ := ht.leadsTo_root hx
    obtain ⟨path, hpath, hentry⟩ := hw.leaves k hk
    rw [if_neg (by omega), ht.path_unique hpath hfollow] at hentry
    exact ⟨_, (entryAt s.node k).sym.isLt, by rw [hentry], by rw [hentry]⟩

theorem WalkedCode.kraftSum_many (hmany : 2 ≤ s.nsym.toNat) : kraftSum code = 2 ^ 255 := by
  have hroot := ht.root
  have hsize := ht.size
  have hfew := ht.few_leaves
  have hfuel : s.root.toNat < s.root.toNat + 1 := Nat.lt_succ_self _
  rw [(hw.codeOk ht).kraftSum_eq (leafPaths_nodup s.node (s.root.toNat + 1) s.root.toNat) fun p => by
    rw [hw.mem_validCodes_iff ht hmany, mem_leafPaths ht.descending ht.root_lt hfuel]]
  exact ht.sum_weights_leafPaths 255 ht.root_lt hfuel (by omega)

theorem WalkedCode.kraftSum_one (hone : s.nsym.toNat = 1) : kraftSum code = 2 ^ 254 :=
  (hw.codeOk ht).kraftSum_eq (List.nodup_singleton _) (hw.mem_validCodes_singleton hone)

end

/-- Settles O24: WALK's codebook is that of the tree, whose paths to the leaves fill the code space. -/
theorem walkedCodebookIsPrefixFreeAndFull : Obligations.WalkedCodebookIsPrefixFreeAndFull := by
  intro s t hready ht hexec
  obtain ⟨code, hw, hwalk⟩ := exec_walk hready ht
  cases hwalk.symm.trans hexec
  exact ⟨hw.codeOk ht, (hw.numValid_eq ht).symm, hw.kraftSum_many ht, hw.kraftSum_one ht⟩

end Sys2Proof.Machine
end

section
/-! SUPPORT. What the pack and unpack commands answer, both ways, each with the state it leaves (spec 43_bitpack.md R174
to R180). -/

namespace Sys2Proof.Machine

/-- A rule that ends with a flag update which leaves BUSY alone, as exec answers it. -/
theorem exec_of_rule_flags {i : Instr} {s u : State} {f : Status → Status} (hi : i ≠ .srst) (hw : i.wf = true)
    (hr : Ready i s) (hb : ruleOf i (begin s) = .ok { u with status := f s.status.busyOn })
    (hf : (f s.status.busyOn).busyOff = f s.status.busyOn.busyOff) :
    exec i s = .next { u with status := f s.status } := by
  have hidle : s.status.busyOn.busyOff = s.status := busyOn_busyOff _ ((accepting_iff s).1 hr.1).1
  rw [hidle] at hf
  rw [exec_of_rule hi hw hr hb, ← hf]
  rfl

/-! ## Packing -/

/-- The whole result of PKINIT (R174). -/
theorem exec_pkinit {s : State} (haccept : accepting s = true) :
    exec .pkinit s = .next { pkInit s with status := s.status.packOpened } :=
  exec_of_rule_flags (u := pkInit s) (f := Status.packOpened) (by decide) rfl ⟨haccept, rfl⟩ rfl rfl

@[simp] theorem putOperand_length (n : BitVec 6) (v : Word) : (putOperand n v).length = n.toNat := lowBits_length _ _

theorem pkBit_begin (s : State) (x : Bool) : pkBit (begin s) x = begin (pkBit s x) := by
  by_cases h8 : (s.bitLen.toNat + 1) % 8 = 0 <;> simp only [pkBit, begin, h8, if_true, if_false]

/-- The loop of pk_push does not see BUSY (R171). -/
theorem pkBits_begin (c : Bits) (s : State) : c.foldl pkBit (begin s) = begin (c.foldl pkBit s) :=
  List.foldl_hom begin fun t x => pkBit_begin t x

/-- The whole result of PKPUT n when its bits fit (R171, R175). -/
theorem exec_pkput {s : State} {n : BitVec 6} (hw : WellFormed (.pkput n)) (hready : Ready (.pkput n) s)
    (hmax : s.bitLen.toNat + n.toNat ≤ 2 ^ 32 - 1) (hcap : ceil8 (s.bitLen.toNat + n.toNat) ≤ s.payCap.toNat) :
    exec (.pkput n) s = .next ((putOperand n s.pkData).foldl pkBit s) := by
  have hrule : pkputRule n (begin s) = .ok (begin ((putOperand n s.pkData).foldl pkBit s)) := by
    rw [← pkBits_begin]
    exact pkPush_eq_ok _ _ _ (by simpa using hmax) (by simpa using hcap)
  have hidle := ((accepting_iff s).1 hready.1).1
  rw [exec_of_rule (i := .pkput n) (by simp) hw hready hrule, finish_begin _ (by rw [pkBits_status, hidle])]

/-- The size limit is tested first (R171, R243). -/
theorem pkPush_of_size_limit (op : Byte) {c : Bits} {s : State} (h : 2 ^ 32 - 1 < s.bitLen.toNat + c.length) :
    pkPush op c s = .error (.raised (faultOf op .sizeLimitExceeded 0#8 s.bitLen.toNat)) := if_pos h

/-- The capacity is tested after the size limit (R171, R248). -/
theorem pkPush_of_capacity (op : Byte) {c : Bits} {s : State} (hmax : s.bitLen.toNat + c.length ≤ 2 ^ 32 - 1)
    (hcap : s.payCap.toNat < ceil8 (s.bitLen.toNat + c.length)) :
    pkPush op c s = .error (.raised (faultOf op .capacityExceeded 2#8 0)) :=
  (if_neg (Nat.not_lt.2 hmax)).trans (if_pos hcap)

/-- The whole result of PKFLUSH (R177). -/
theorem exec_pkflush {s : State} (hready : Ready .pkflush s) :
    exec .pkflush s = .next { pkFlush s with status := s.status.packClosed } :=
  exec_of_rule_flags (u := pkFlush s) (f := Status.packClosed) (by decide) rfl hready rfl rfl

/-- pk_flush writes no byte but the last, partial one (R172). -/
theorem readByte_pkFlush (s : State) {a : Nat} (h : a ≠ s.bitLen.toNat / 8 ∨ s.bitLen.toNat % 8 = 0) :
    readByte .pay (pkFlush s).pay a = readByte .pay s.pay a := by
  rw [pkFlush_pay]
  by_cases h8 : s.bitLen.toNat % 8 = 0
  · rw [if_pos h8]
  · rw [if_neg h8, readByte_writeByte_other _ _ _ _ _ (h.resolve_right h8)]

theorem Packed.length_lt {s : State} {b : Bits} (h : Packed s b) : b.length < 2 ^ 32 := h.length ▸ s.bitLen.isLt

theorem Packed.pkFlush_payLen {s : State} {b : Bits} (h : Packed s b) : (pkFlush s).payLen.toNat = ceil8 b.length := by
  simp only [Machine.pkFlush_payLen, h.length, ceil8_fits _ h.length_lt]

/-! ## Unpacking -/

theorem upInit_of_le (op : Byte) {s : State} (h : ceil8 s.bitLen.toNat ≤ s.payLen.toNat) :
    upInit op s = .ok { s with upPos := 0#32 } := if_pos h

theorem upInit_of_lt (op : Byte) {s : State} (h : s.payLen.toNat < ceil8 s.bitLen.toNat) :
    upInit op s = .error (.raised (faultOf op .truncatedStream 1#8 s.payLen.toNat)) := if_neg (Nat.not_le.2 h)

theorem upinitRule_of_le {s : State} (h : ceil8 s.bitLen.toNat ≤ s.payLen.toNat) :
    upinitRule s = .ok { s with upPos := 0#32, status := s.status.unpackOpened } := by
  rw [upinitRule, upInit_of_le _ h]

theorem upinitRule_of_lt {s : State} (h : s.payLen.toNat < ceil8 s.bitLen.toNat) :
    upinitRule s = .error (.raised (faultOf 0x23#8 .truncatedStream 1#8 s.payLen.toNat)) := by
  rw [upinitRule, upInit_of_lt _ h]

/-- The whole result of UPINIT when PAY holds the bits (R178). -/
theorem exec_upinit {s : State} (hready : Ready .upinit s) (hlen : ceil8 s.bitLen.toNat ≤ s.payLen.toNat) :
    exec .upinit s = .next { s with upPos := 0#32, status := s.status.unpackOpened } :=
  exec_of_rule_flags (u := { s with upPos := 0#32 }) (f := Status.unpackOpened) (by decide) rfl hready
    (upinitRule_of_le (s := begin s) hlen) rfl

theorem upgetRule_of_le {n : BitVec 6} {s : State} (h : s.upPos.toNat + n.toNat ≤ s.bitLen.toNat) :
    upgetRule n s = .ok { s with
      pkData := getResult (upBits n.toNat s), upPos := BitVec.ofNat 32 (s.upPos.toNat + n.toNat) } := if_pos h

theorem upgetRule_of_lt {n : BitVec 6} {s : State} (h : s.bitLen.toNat < s.upPos.toNat + n.toNat) :
    upgetRule n s = .error (.raised (faultOf 0x24#8 .truncatedStream 3#8 s.upPos.toNat)) := if_neg (Nat.not_le.2 h)

/-- The whole result of UPGET n when n bits remain (R179). -/
theorem exec_upget {n : BitVec 6} {s : State} (hw : WellFormed (.upget n)) (hready : Ready (.upget n) s)
    (hlen : s.upPos.toNat + n.toNat ≤ s.bitLen.toNat) :
    exec (.upget n) s = .next { s with
      pkData := getResult (upBits n.toNat s), upPos := BitVec.ofNat 32 (s.upPos.toNat + n.toNat) } :=
  exec_of_rule_flags (f := id) (u := { s with
      pkData := getResult (upBits n.toNat s), upPos := BitVec.ofNat 32 (s.upPos.toNat + n.toNat) })
    (by simp) hw hready (upgetRule_of_le (s := begin s) hlen) rfl

@[simp] theorem upBits_length (n : Nat) (s : State) : (upBits n s).length = n := bitsRead_length _ _ _ _ _

/-- A legal operand asks for no more bits than PKDATA holds (R103). -/
theorem countLegal_le {n : BitVec 6} (h : countLegal n = true) : n.toNat ≤ 32 := ((countLegal_iff n).1 h).2

/-- The bits of PKDATA after UPGET: the sequence, last bit in bit 0, and 0 above it (R179). -/
theorem getResult_getLsbD {b : Bits} (hb : b.length ≤ 32) (k : Nat) :
    (getResult b).getLsbD k = if k < b.length then b.getD (b.length - 1 - k) false else false := by
  rw [getResult, BitVec.getLsbD_ofNat, testBit_bitsVal]
  by_cases hk : k < b.length
  · simp [hk.trans_le hb]
  · simp [hk]

theorem getResult_toNat {b : Bits} (hb : b.length ≤ 32) : (getResult b).toNat = bitsVal b := by
  rw [getResult, BitVec.toNat_ofNat]
  exact Nat.mod_eq_of_lt ((bitsVal_lt b).trans_le (Nat.pow_le_pow_right (by decide) hb))

end Sys2Proof.Machine
end

section
/-! PROOF. O26: PKINIT opens a session on the empty sequence (spec 43_bitpack.md R170, R174). -/

namespace Sys2Proof.Machine

/-- Settles O26: PKINIT runs pk_init, which holds the empty sequence. -/
theorem pkinitOpensAnEmptySession : Obligations.PkinitOpensAnEmptySession :=
  fun s haccept => ⟨_, exec_pkinit haccept, (pkInit_packed s).congr rfl rfl rfl, rfl⟩

end Sys2Proof.Machine
end

section
/-! PROOF. O27, O28: PKPUT n appends its operand, or faults when it does not fit (spec 43_bitpack.md R171, R175). -/

namespace Sys2Proof.Machine

/-- Settles O27: the loop of pk_push appends the operand bit by bit, and writes only the bytes it completes. -/
theorem pkputAppendsItsOperand : Obligations.PkputAppendsItsOperand := by
  intro s n b hw hready hp hmax hcap
  have hfit : b.length + (putOperand n s.pkData).length < 2 ^ 32 := by
    rw [putOperand_length]
    omega
  refine ⟨_, exec_pkput hw hready (hp.length ▸ hmax) (hp.length ▸ hcap), pkBits_packed _ s b hp hfit,
    fun a ha => ?_, pkBits_frame _ s⟩
  rw [← putOperand_length n s.pkData] at ha
  rw [← hp.length] at hfit ha
  exact pkBits_pay _ s a hfit ha

/-- Settles O28: pk_push tests the size limit, then the capacity. -/
theorem pkputBeyondItsLimitsFaults : Obligations.PkputBeyondItsLimitsFaults := by
  refine fun s n hw hready => ⟨fun hmax => ?_, fun hmax hcap => ?_⟩
  · rw [← putOperand_length n s.pkData] at hmax
    exact raises_of_rule (by simp) hw hready (pkPush_of_size_limit 0x21#8 (s := begin s) hmax)
  · rw [← putOperand_length n s.pkData] at hmax hcap
    exact raises_of_rule (by simp) hw hready (pkPush_of_capacity 0x21#8 (s := begin s) hmax hcap)

end Sys2Proof.Machine
end

section
/-! PROOF. O29: PKFLUSH leaves the padded payload in PAY (spec 43_bitpack.md R172, R177). -/

namespace Sys2Proof.Machine

/-- Settles O29: pk_flush writes ACC, whose bits past the end of the sequence are 0, as the last, partial byte. -/
theorem pkflushLeavesThePaddedPayload : Obligations.PkflushLeavesThePaddedPayload := by
  intro s b hready hp
  refine ⟨_, exec_pkflush hready, hp.pkFlush_payLen, ?_, fun a ha => readByte_pkFlush s (hp.length.symm ▸ ha), rfl⟩
  exact (congrArg (readBytes .pay (pkFlush s).pay 0) hp.pkFlush_payLen).trans (pkFlush_bytes s b hp)

end Sys2Proof.Machine
end

section
/-! PROOF. O30: UPINIT opens an unpack session at bit 0, or faults (spec 43_bitpack.md R176, R178). -/

namespace Sys2Proof.Machine

/-- Settles O30: up_init compares PAY_LEN with the bytes BITLEN asks for. -/
theorem upinitOpensAtBitZero : Obligations.UpinitOpensAtBitZero := by
  refine fun s hready => ⟨exec_upinit hready, fun hshort => ?_⟩
  exact raises_of_rule (i := .upinit) (by decide) rfl hready (upinitRule_of_lt (s := begin s) hshort)

end Sys2Proof.Machine
end

section
/-! PROOF. O31: UPGET n returns the next n bits of the payload, and none past BITLEN (spec 43_bitpack.md R179, R180). -/

namespace Sys2Proof.Machine

/-- Settles O31: bit n - 1 - k of the value read is bit UPPOS + k of PAY. -/
theorem upgetReturnsTheNextBits : Obligations.UpgetReturnsTheNextBits := by
  refine fun s n hw hready => ⟨fun hlen => ?_, fun hshort => ?_⟩
  · have hn : (upBits n.toNat s).length ≤ 32 := (upBits_length _ _).trans_le (countLegal_le hw)
    refine ⟨_, exec_upget hw hready hlen, fun k hk => ?_, fun k hk => ?_, ?_, rfl⟩
    · have hback : n.toNat - 1 - (n.toNat - 1 - k) = k := by omega
      rw [getResult_getLsbD hn, upBits_length, if_pos (by omega), hback, upBits, bitsRead_getD, if_pos hk, bitRead,
        Nat.zero_add]
    · rw [getResult_getLsbD hn, upBits_length, if_neg (Nat.not_lt.2 hk)]
    · rw [BitVec.toNat_ofNat, Nat.mod_eq_of_lt (hlen.trans_lt s.bitLen.isLt)]
  · exact raises_of_rule (by simp) hw hready (upgetRule_of_lt (s := begin s) hshort)

end Sys2Proof.Machine
end

section
/-! PROOF. O32: PKPUT n, then UPGET n, returns the value mod 2^n (spec 43_bitpack.md R179, R181). -/

namespace Sys2Proof.Machine

/-- From any packed sequence, PKFLUSH and UPINIT open an unpack session whose first bits are the sequence (R181). -/
theorem flush_then_upinit {s : State} {b : Bits} (hready : Ready .pkflush s) (hp : Packed s b) :
    ∃ t u, exec .pkflush s = .next t ∧ exec .upinit t = .next u ∧ accepting u = true ∧ u.status.upOpen = true ∧
      u.upPos = 0#32 ∧ u.bitLen.toNat = b.length ∧ upBits b.length u = b := by
  have hheld : ceil8 (pkFlush s).bitLen.toNat ≤ (pkFlush s).payLen.toNat := by
    rw [pkFlush_bitLen, hp.length, hp.pkFlush_payLen]
  refine ⟨_, _, exec_pkflush hready, exec_upinit ⟨hready.1, rfl⟩ hheld, hready.1, rfl, rfl, hp.length, ?_⟩
  exact bitsRead_of_bytes .pay (pkFlush s).pay 0 b (pkFlush_bytes s b hp)

/-- A fresh session holds the operand of PKPUT n alone (R174, R175). -/
theorem pkinit_then_pkput {s : State} {n : BitVec 6} (haccept : accepting s = true) (hw : WellFormed (.pkput n))
    (hcap : ceil8 n.toNat ≤ s.payCap.toNat) :
    ∃ t u, exec .pkinit s = .next t ∧ exec (.pkput n) t = .next u ∧ Ready .pkflush u ∧
      Packed u (putOperand n s.pkData) := by
  have hn := countLegal_le hw
  have hpacked : Packed { pkInit s with status := s.status.packOpened } [] := (pkInit_packed s).congr rfl rfl rfl
  refine ⟨_, _, exec_pkinit haccept, exec_pkput hw ⟨haccept, rfl⟩ ?_ ?_, ?_, ?_⟩
  · simp only [pkInit_bitLen, BitVec.toNat_zero]
    omega
  · simpa using hcap
  · simp only [Ready, accepting, prerequisite, pkBits_status]
    exact ⟨haccept, rfl⟩
  · exact pkBits_packed _ _ [] hpacked (by simp; omega)

/-- Settles O32: the session packs the operand of PKPUT alone, and UPGET reads that sequence back. -/
theorem putThenGetReturnsTheValue : Obligations.PutThenGetReturnsTheValue := by
  intro s n haccept hw hcap
  obtain ⟨t₁, t₂, hpkinit, hpkput, hready₂, hpacked⟩ := pkinit_then_pkput haccept hw hcap
  obtain ⟨t₃, t₄, hpkflush, hupinit, haccept₄, hopen₄, hpos, hlen, hbits⟩ := flush_then_upinit hready₂ hpacked
  rw [putOperand_length] at hlen hbits
  have hn : (putOperand n s.pkData).length ≤ 32 := (putOperand_length _ _).trans_le (countLegal_le hw)
  refine ⟨t₁, t₂, t₃, t₄, _, hpkinit, hpkput, hpkflush, hupinit,
    exec_upget hw ⟨haccept₄, hopen₄⟩ (by simp [hpos, hlen]), ((accepting_iff t₄).1 haccept₄).2, ?_⟩
  rw [hbits, getResult_toNat hn]
  exact bitsVal_lowBits _ _

end Sys2Proof.Machine
end

section
/-! SUPPORT. The records of a codebook's table, and the table of a list of records: each undoes the other (spec
30_encoding.md R112 to R114, 44_container.md R192). -/

namespace Sys2Proof.Machine

/-! ## The bytes of records -/

/-- A record has a byte for its symbol, one for its length, and those of its code (R112). -/
theorem recordBytes_singleton (r : Byte × Bits) :
    recordBytes [r] = r.1 :: BitVec.ofNat 8 r.2.length :: bytesOf r.2 := by
  simp [recordBytes]

theorem recordBytes_cons (r : Byte × Bits) (rest : List (Byte × Bits)) :
    recordBytes (r :: rest) = recordBytes [r] ++ recordBytes rest := by
  simp [recordBytes]

theorem recordBytes_singleton_length (r : Byte × Bits) : (recordBytes [r]).length = 2 + ceil8 r.2.length := by
  simp only [recordBytes_singleton, List.length_cons, bytesOf_length]
  omega

/-! ## The records of a codebook -/

/-- The records of a codebook, by ascending symbol (R112). -/
def recordsOf (code : CodeTable) : List (Byte × Bits) :=
  (validSyms code).map fun x => (BitVec.ofNat 8 x, (entryAt code x).bits)

theorem mem_recordsOf {code : CodeTable} {r : Byte × Bits} :
    r ∈ recordsOf code ↔ (entryAt code r.1.toNat).valid = true ∧ r.2 = (entryAt code r.1.toNat).bits := by
  obtain ⟨b, c⟩ := r
  simp only [recordsOf, List.mem_map, mem_validSyms, Prod.mk.injEq]
  constructor
  · rintro ⟨x, ⟨hx, hvalid⟩, rfl, rfl⟩
    rw [BitVec.toNat_ofNat, Nat.mod_eq_of_lt hx]
    exact ⟨hvalid, rfl⟩
  · rintro ⟨hvalid, rfl⟩
    exact ⟨b.toNat, ⟨b.isLt, hvalid⟩, BitVec.ofNat_toNat .., rfl⟩

theorem recordsOf_syms (code : CodeTable) : (recordsOf code).map (·.1.toNat) = validSyms code := by
  rw [recordsOf, List.map_map, List.map_congr_left (g := id), List.map_id]
  intro x hx
  exact Nat.mod_eq_of_lt ((mem_validSyms code x).1 hx).1

theorem validCodes_eq_recordsOf (code : CodeTable) : validCodes code = (recordsOf code).map (·.2) := by
  rw [validCodes_eq, recordsOf, List.map_map]
  rfl

theorem recordsOf_length (code : CodeTable) : (recordsOf code).length = numValid code := by
  rw [numValid, validCodes_eq_recordsOf, List.length_map]

theorem numValid_le (code : CodeTable) : numValid code ≤ 256 := by
  rw [numValid, validCodes_eq, List.length_map]
  exact (List.length_filter_le _ _).trans_eq List.length_range

theorem validSyms_ascending (code : CodeTable) : (validSyms code).Pairwise (· < ·) := List.pairwise_lt_range.filter _

theorem recordsOf_ascending (code : CodeTable) : (recordsOf code).Pairwise fun r q => r.1.toNat < q.1.toNat := by
  rw [← List.pairwise_map (f := fun r : Byte × Bits => r.1.toNat), recordsOf_syms]
  exact validSyms_ascending code

/-! ## The serialized codebook -/

/-- SER's loop over the symbols from k on writes the records of the valid ones (R192). -/
theorem serRecords_eq (code : CodeTable) (n k : Nat) :
    serRecords ((List.range' k n).map (entryAt code)) k =
      recordBytes (((List.range' k n).filter fun x => (entryAt code x).valid).map fun x =>
        (BitVec.ofNat 8 x, (entryAt code x).bits)) := by
  induction n generalizing k with
  | zero => rfl
  | succ n ih =>
    rw [List.range'_succ, List.map_cons, serRecords, ih, List.filter_cons]
    split
    · rw [List.map_cons, recordBytes_cons, recordBytes_singleton]
      rfl
    · rfl

/-- Elements that give nothing may be left out beforehand. -/
theorem flatMap_filter {α β : Type} (p : α → Bool) (f : α → List β) (l : List α) :
    (l.filter p).flatMap f = l.flatMap fun x => if p x then f x else [] := by
  induction l with
  | nil => rfl
  | cons x rest ih =>
    rw [List.flatMap_cons, ← ih, List.filter_cons]
    split <;> rfl

/-- The serialized codebook lists its records after the version and the count (R112). -/
theorem tableBytes_eq (code : CodeTable) (count : Nat) :
    tableBytes code count = 0x01#8 :: (bigEndian 2 count ++ recordBytes (recordsOf code)) := by
  rw [recordsOf, recordBytes, List.flatMap_map, validSyms, flatMap_filter]
  rfl

/-- SerTable is the serialized codebook (R112, R192). -/
theorem serTable_eq (code : CodeTable) (ncode : BitVec 9) : serTable code ncode = tableBytes code ncode.toNat := by
  rw [serTable, tableBytes_eq, toList_eq_map_entryAt, List.range_eq_range', serRecords_eq, ← List.range_eq_range']
  rfl

theorem tableBytes_length (code : CodeTable) (count : Nat) :
    (tableBytes code count).length = 3 + (recordBytes (recordsOf code)).length := by
  rw [tableBytes_eq, List.length_cons, List.length_append, bigEndian_length]
  omega

/-! ## The codebook of a list of records -/

theorem prefixFreeList_iff (l : List Bits) :
    prefixFreeList l = true ↔ l.Pairwise fun b c => unrelated b c = true := by
  refine ⟨prefixFreeList_pairwise, fun hpair => ?_⟩
  induction hpair with
  | nil => rfl
  | cons hb _ ih => simpa [prefixFreeList, ih] using hb

/-- The entry a record gives its symbol (R195). -/
def putRecord (code : CodeTable) (r : Byte × Bits) : CodeTable :=
  putEntry code r.1.toNat { valid := true, bits := r.2 }

/-- The codebook a table's records give, written one after another (R195). -/
def codeOfRecords (recs : List (Byte × Bits)) : CodeTable := recs.foldl putRecord emptyCode

/-- Records of other symbols leave an entry as it was. -/
theorem entryAt_putRecords_of_not_mem {recs : List (Byte × Bits)} {x : Nat} (h : ∀ r ∈ recs, x ≠ r.1.toNat)
    (code : CodeTable) : entryAt (recs.foldl putRecord code) x = entryAt code x := by
  induction recs generalizing code with
  | nil => rfl
  | cons r rest ih =>
    obtain ⟨hr, hrest⟩ := List.forall_mem_cons.1 h
    rw [List.foldl_cons, ih hrest, putRecord, entryAt_putEntry_other _ _ _ _ hr]

/-- Each record of ascending symbols gives the entry of its own symbol. -/
theorem entryAt_putRecords_of_mem {recs : List (Byte × Bits)} {r : Byte × Bits}
    (hasc : recs.Pairwise fun r q => r.1.toNat < q.1.toNat) (hr : r ∈ recs) (code : CodeTable) :
    entryAt (recs.foldl putRecord code) r.1.toNat = { valid := true, bits := r.2 } := by
  induction recs generalizing code with
  | nil => cases hr
  | cons q rest ih =>
    obtain ⟨hq, hrest⟩ := List.pairwise_cons.1 hasc
    obtain rfl | hr := List.mem_cons.1 hr
    · rw [List.foldl_cons, entryAt_putRecords_of_not_mem fun p hp => (hq p hp).ne, putRecord,
        entryAt_putEntry_same _ _ _ r.1.isLt]
    · exact ih hrest hr _

section
variable {recs : List (Byte × Bits)} (hasc : recs.Pairwise fun r q => r.1.toNat < q.1.toNat)
include hasc

theorem validSyms_codeOfRecords : validSyms (codeOfRecords recs) = recs.map (·.1.toNat) := by
  refine (validSyms_ascending _).eq_of_mem_iff (List.pairwise_map.2 hasc) fun x => ?_
  rw [mem_validSyms, List.mem_map]
  constructor
  · rintro ⟨hx, hvalid⟩
    by_contra hnone
    rw [codeOfRecords, entryAt_putRecords_of_not_mem fun r hr heq => hnone ⟨r, hr, heq.symm⟩,
      emptyCode_valid x hx] at hvalid
    cases hvalid
  · rintro ⟨r, hr, rfl⟩
    exact ⟨r.1.isLt, by rw [codeOfRecords, entryAt_putRecords_of_mem hasc hr]⟩

/-- The codebook of ascending records has those records (R114). -/
theorem recordsOf_codeOfRecords : recordsOf (codeOfRecords recs) = recs := by
  rw [recordsOf, validSyms_codeOfRecords hasc, List.map_map, List.map_congr_left (g := id), List.map_id]
  intro r hr
  simp [codeOfRecords, entryAt_putRecords_of_mem hasc hr]

/-- PrefixFree, of the codebook of a list of records: no record's code begins that of another symbol (R196). -/
theorem prefixFree_codeOfRecords :
    prefixFree (codeOfRecords recs) = true ↔ ∀ r ∈ recs, ∀ q ∈ recs, r.1 ≠ q.1 → ¬r.2 <+: q.2 := by
  rw [prefixFree, validCodes_eq_recordsOf, recordsOf_codeOfRecords hasc, prefixFreeList_iff, List.pairwise_map]
  constructor
  · intro hpair r hr q hq hne
    have hsymm : Std.Symm fun r q : Byte × Bits => unrelated r.2 q.2 = true :=
      ⟨fun r q h => (unrelated_iff _ _).2 ((unrelated_iff _ _).1 h).symm⟩
    exact ((unrelated_iff _ _).1 (hpair.forall hr hq fun h => hne (congrArg Prod.fst h))).1
  · refine fun hfree => hasc.imp_of_mem fun {r q} hr hq hlt => (unrelated_iff _ _).2 ?_
    have hne : r.1 ≠ q.1 := fun h => hlt.ne (congrArg BitVec.toNat h)
    exact ⟨hfree r hr q hq hne, hfree q hq r hr hne.symm⟩

end

/-- A codebook is that of its own records (R114). -/
theorem codeOfRecords_recordsOf {code : CodeTable} (hempty : ∀ x, x < 256 → (entryAt code x).valid = false →
    (entryAt code x).bits = []) : codeOfRecords (recordsOf code) = code := by
  refine table_ext _ _ fun x hx => ?_
  have hbyte : (BitVec.ofNat 8 x).toNat = x := Nat.mod_eq_of_lt hx
  cases hvalid : (entryAt code x).valid with
  | true =>
    have hmem : ((BitVec.ofNat 8 x, (entryAt code x).bits) : Byte × Bits) ∈ recordsOf code :=
      mem_recordsOf.2 (by simp [hbyte, hvalid])
    have hentry := entryAt_putRecords_of_mem (recordsOf_ascending code) hmem emptyCode
    simp only [hbyte] at hentry
    rw [codeOfRecords, hentry, ← hvalid]
  | false =>
    rw [codeOfRecords, entryAt_putRecords_of_not_mem, emptyCode_entry x hx, CodeEntry.invalid, ← hvalid,
      ← hempty x hx hvalid]
    rintro r hr rfl
    simp [(mem_recordsOf.1 hr).1] at hvalid

end Sys2Proof.Machine
end

section
/-! PROOF. O37: SER writes the container, or faults when it does not fit (spec 44_container.md R191, R192). -/

namespace Sys2Proof.Machine

/-- The container SER writes (R110, R191). -/
def serContainer (s : State) : List Byte := containerBytes (tableBytes s.code s.ncode.toNat) s.bitLen.toNat (payBytes s)

theorem containerBytes_length (table : List Byte) (bitLen : Nat) (payload : List Byte) :
    (containerBytes table bitLen payload).length = 4 + table.length + 4 + payload.length := by
  simp only [containerBytes, List.length_append, bigEndian_length]

theorem serContainer_length (s : State) :
    (serContainer s).length = 4 + (tableBytes s.code s.ncode.toNat).length + 4 + s.payLen.toNat := by
  rw [serContainer, containerBytes_length, payBytes, readBytes_length]

/-- SER writes its four parts one after another (R191). -/
theorem serRule_of_le {s : State} (h : (serContainer s).length ≤ s.dstCap.toNat) :
    serRule s = .ok { s with
      dst := writeBytes s.dst 0 (serContainer s), dstLen := BitVec.ofNat 32 (serContainer s).length } := by
  rw [serContainer_length] at h
  simp only [serRule, serTable_eq, if_pos h, serContainer_length]
  simp only [serContainer, containerBytes, writeBytes_append, memWrite, List.length_append, bigEndian_length,
    Nat.zero_add, Nat.add_right_comm 4 _ 4]

theorem serRule_of_lt {s : State} (h : s.dstCap.toNat < (serContainer s).length) :
    serRule s = .error (.raised (faultOf 0x30#8 .capacityExceeded 3#8 0)) := by
  rw [serContainer_length] at h
  simp only [serRule, serTable_eq, if_neg (Nat.not_le.2 h)]
  rfl

/-- The whole result of SER when the container fits (R191). -/
theorem exec_ser {s : State} (hready : Ready .ser s) (h : (serContainer s).length ≤ s.dstCap.toNat) :
    exec .ser s = .next { s with
      dst := writeBytes s.dst 0 (serContainer s), dstLen := BitVec.ofNat 32 (serContainer s).length } :=
  exec_of_rule_flags (f := id) (u := { s with
      dst := writeBytes s.dst 0 (serContainer s), dstLen := BitVec.ofNat 32 (serContainer s).length })
    (by decide) rfl hready (serRule_of_le (s := begin s) h) rfl

/-- Settles O37: the parts SER writes are the container's, and it writes nothing after them. -/
theorem serWritesTheContainer : Obligations.SerWritesTheContainer := by
  refine fun s hready => ⟨fun hfit => ?_, fun hover => ?_⟩
  · have hlen : (BitVec.ofNat 32 (serContainer s).length).toNat = (serContainer s).length := toNat_ofNat_of_le hfit
    refine ⟨_, exec_ser hready hfit, hlen, ?_, fun a ha => ?_, rfl⟩
    · rw [dstBytes, hlen]
      exact readBytes_writeBytes _ _ _ _
    · exact readByte_writeBytes_out _ _ _ _ _ (.inr ((Nat.zero_add _).trans_le ha))
  · exact raises_of_rule (i := .ser) (by decide) rfl hready (serRule_of_lt (s := begin s) hover)

end Sys2Proof.Machine
end

section
/-! SUPPORT. DESER's record loop reads exactly the well-formed records (spec 44_container.md R195). -/

namespace Sys2Proof.Machine

/-! ## Bytes a memory holds -/

/-- A memory holds a byte sequence from index a upward (R88). -/
def Holds (sp : Space) (m : Memory) (a : Nat) (bs : List Byte) : Prop := readBytes sp m a bs.length = bs

theorem holds_append {sp : Space} {m : Memory} {a : Nat} {bs cs : List Byte} :
    Holds sp m a (bs ++ cs) ↔ Holds sp m a bs ∧ Holds sp m (a + bs.length) cs := by
  rw [Holds, List.length_append, readBytes_append, List.append_eq_append_iff_of_size_eq_left (by simp)]
  rfl

theorem holds_cons {sp : Space} {m : Memory} {a : Nat} {b : Byte} {bs : List Byte} :
    Holds sp m a (b :: bs) ↔ readByte sp m a = b ∧ Holds sp m (a + 1) bs := by
  rw [← List.singleton_append, holds_append]
  simp [Holds, readBytes]

theorem holds_readBytes (sp : Space) (m : Memory) (a n : Nat) : Holds sp m a (readBytes sp m a n) := by
  rw [Holds, readBytes_length]

/-- A field is the big-endian form of the number it holds (R88). -/
theorem holds_memRead (sp : Space) (m : Memory) (a n : Nat) : Holds sp m a (bigEndian n (memRead sp m a n)) := by
  rw [bigEndian_memRead]
  exact holds_readBytes _ _ _ _

/-- The number in a field of a memory (R88). -/
theorem Holds.memRead_eq {sp : Space} {m : Memory} {a n v : Nat} (h : Holds sp m a (bigEndian n v))
    (hv : v < 256 ^ n) : memRead sp m a n = v :=
  memRead_of_bytes sp m a n v (by rwa [Holds, bigEndian_length] at h) hv

/-! ## Well-formed records -/

/-- Well-formed records, of symbols from `least` on, in strictly ascending order (R195). -/
structure RecordsFrom (least : Nat) (recs : List (Byte × Bits)) : Prop where
  above : ∀ r ∈ recs, least ≤ r.1.toNat
  ascending : recs.Pairwise fun r q => r.1.toNat < q.1.toNat
  lengths : ∀ r ∈ recs, 1 ≤ r.2.length ∧ r.2.length ≤ 255

theorem recordsFrom_nil (least : Nat) : RecordsFrom least [] := ⟨by simp, .nil, by simp⟩

theorem recordsFrom_cons {least : Nat} {r : Byte × Bits} {rest : List (Byte × Bits)} :
    RecordsFrom least (r :: rest) ↔
      (least ≤ r.1.toNat ∧ 1 ≤ r.2.length ∧ r.2.length ≤ 255) ∧ RecordsFrom (r.1.toNat + 1) rest := by
  constructor
  · rintro ⟨habove, hasc, hlen⟩
    obtain ⟨hr, hrest⟩ := List.pairwise_cons.1 hasc
    exact ⟨⟨habove r (by simp), hlen r (by simp)⟩, hr, hrest, fun q hq => hlen q (by simp [hq])⟩
  · rintro ⟨⟨hleast, hlen⟩, habove, hasc, hlens⟩
    refine ⟨List.forall_mem_cons.2 ⟨hleast, fun q hq => ?_⟩, hasc.cons habove, List.forall_mem_cons.2 ⟨hlen, hlens⟩⟩
    have := habove q hq
    omega

theorem recordsFrom_singleton {least : Nat} {r : Byte × Bits} :
    RecordsFrom least [r] ↔ least ≤ r.1.toNat ∧ 1 ≤ r.2.length ∧ r.2.length ≤ 255 := by
  simp [recordsFrom_cons, recordsFrom_nil]

/-- The record loop after a list of records (R195). -/
def Parse.after (t : Parse) (recs : List (Byte × Bits)) : Parse where
  p := t.p + (recordBytes recs).length
  least := recs.foldl (fun _ r => r.1.toNat + 1) t.least
  code := recs.foldl putRecord t.code

theorem Parse.after_cons (t : Parse) (r : Byte × Bits) (rest : List (Byte × Bits)) :
    t.after (r :: rest) = (t.after [r]).after rest := by
  simp [after, recordBytes_cons r rest, Nat.add_assoc]

/-- A symbol is too small for the next record when it is not above those read (R195). -/
theorem Parse.lt_least_after {t : Parse} {recs : List (Byte × Bits)} (h : RecordsFrom t.least recs) (x : Nat) :
    x < (t.after recs).least ↔ x < t.least ∨ ∃ r ∈ recs, x ≤ r.1.toNat := by
  induction recs generalizing t with
  | nil => simp [after]
  | cons r rest ih =>
    obtain ⟨⟨hleast, _⟩, hrest⟩ := recordsFrom_cons.1 h
    have hr : (t.after [r]).least = r.1.toNat + 1 := rfl
    rw [after_cons, ih hrest, hr, List.exists_mem_cons_iff, ← or_assoc]
    exact or_congr_left (by omega)

/-- The records stand in SRC at the parse pointer, before the table's end, and are well-formed (R195). -/
structure ReadsRecords (src : Memory) (e : Nat) (t : Parse) (recs : List (Byte × Bits)) : Prop where
  wellFormed : RecordsFrom t.least recs
  bytes : Holds .src src t.p (recordBytes recs)
  inside : t.p + (recordBytes recs).length ≤ e

theorem readsRecords_cons {src : Memory} {e : Nat} {t : Parse} {r : Byte × Bits} {rest : List (Byte × Bits)} :
    ReadsRecords src e t (r :: rest) ↔ ReadsRecords src e t [r] ∧ ReadsRecords src e (t.after [r]) rest := by
  have hsplit := recordBytes_cons r rest
  constructor
  · rintro ⟨hform, hbytes, hin⟩
    rw [hsplit, List.length_append] at hin
    obtain ⟨hfirst, hrest⟩ := holds_append.1 (hsplit ▸ hbytes)
    obtain ⟨hr, hform⟩ := recordsFrom_cons.1 hform
    refine ⟨⟨recordsFrom_cons.2 ⟨hr, recordsFrom_nil _⟩, hfirst, by omega⟩, hform, hrest, ?_⟩
    simp only [Parse.after]
    omega
  · rintro ⟨⟨hr, hfirst, _⟩, hform, hrest, hin⟩
    refine ⟨recordsFrom_cons.2 ⟨(recordsFrom_cons.1 hr).1, hform⟩, hsplit ▸ holds_append.2 ⟨hfirst, hrest⟩, ?_⟩
    rw [hsplit, List.length_append, ← Nat.add_assoc]
    exact hin

/-! ## One record -/

/-- The record at index p, as its header reads (R195). -/
def recordAt (src : Memory) (p : Nat) : Byte × Bits :=
  (readByte .src src p, bitsRead .src src (p + 2) 0 (readByte .src src (p + 1)).toNat)

/-- A record in SRC is the record its header reads. -/
theorem Holds.recordAt_eq {src : Memory} {p : Nat} {r : Byte × Bits} (h : Holds .src src p (recordBytes [r]))
    (hlen : r.2.length ≤ 255) : (readByte .src src (p + 1)).toNat = r.2.length ∧ recordAt src p = r := by
  rw [recordBytes_singleton, holds_cons, holds_cons] at h
  obtain ⟨hsym, hcl, hbits⟩ := h
  have hclen : (readByte .src src (p + 1)).toNat = r.2.length := by
    rw [hcl, BitVec.toNat_ofNat, Nat.mod_eq_of_lt (by omega)]
  rw [Holds, bytesOf_length] at hbits
  rw [recordAt, hclen, hsym, bitsRead_of_bytes _ _ _ _ hbits]
  exact ⟨rfl, rfl⟩

/-- The bits after a code, to the end of its last byte, are 0 (R9). -/
theorem pad_eq_false {sp : Space} {m : Memory} {a : Nat} {b : Bits} (h : Holds sp m a (bytesOf b)) :
    (bitsRead sp m a b.length (8 * ceil8 b.length - b.length)).any id = false := by
  rw [Holds, bytesOf_length] at h
  refine List.any_eq_false.2 fun x hx => ?_
  obtain ⟨j, hj, rfl⟩ := List.mem_map.1 hx
  have hj := List.mem_range.1 hj
  rw [bitRead_of_bytes sp m a b h _ (by omega), List.getD_eq_default _ _ (by omega)]
  simp

/-- A pass of the loop that ends has found the bits after the code to be 0 (R195). -/
theorem deserRecord_pad {src : Memory} {e cl : Nat} {t t' : Parse} (h : deserRecord src e t = .ok t')
    (hread : (readByte .src src (t.p + 1)).toNat = cl) :
    (bitsRead .src src (t.p + 2) cl (8 * ceil8 cl - cl)).any id = false := by
  simp only [deserRecord, raise, hread] at h
  split at h
  · cases h
  split at h
  · cases h
  split at h
  · cases h
  split at h
  · cases h
  split at h
  · cases h
  next hpad => simpa using hpad

/-- The loop reads one record exactly when a well-formed record stands at the parse pointer (R195). -/
theorem deserRecord_eq_ok {src : Memory} {e : Nat} {t t' : Parse} :
    deserRecord src e t = .ok t' ↔ ∃ r, ReadsRecords src e t [r] ∧ t' = t.after [r] := by
  constructor
  · intro h
    have hpad := deserRecord_pad h rfl
    obtain ⟨_, hleast, hcl, hin, rfl⟩ := deserRecord_ok h
    have hclen := (readByte .src src (t.p + 1)).isLt
    have hlen := bitsRead_length .src src (t.p + 2) 0 (readByte .src src (t.p + 1)).toNat
    refine ⟨recordAt src t.p, ⟨recordsFrom_singleton.2 ⟨hleast, ?_⟩, ?_, ?_⟩, ?_⟩
    · simp only [recordAt, hlen]
      omega
    · rw [recordBytes_singleton, holds_cons, holds_cons, Holds, bytesOf_length]
      simp only [recordAt, hlen, BitVec.ofNat_toNat, BitVec.setWidth_eq, true_and]
      exact (bytesOf_bitsRead _ _ _ _ hpad).symm
    · simp only [recordBytes_singleton_length, recordAt, hlen]
      omega
    · simp only [Parse.after, recordBytes_singleton_length, recordAt, hlen, Nat.add_assoc]
      rfl
  · rintro ⟨r, ⟨hform, hbytes, hin⟩, rfl⟩
    obtain ⟨hleast, hone, hmax⟩ := recordsFrom_singleton.1 hform
    obtain ⟨hcl, hrecord⟩ := hbytes.recordAt_eq hmax
    rw [recordBytes_singleton_length] at hin
    rw [recordBytes_singleton, holds_cons, holds_cons] at hbytes
    simp only [recordAt, hcl] at hrecord
    have hsym := congrArg Prod.fst hrecord
    have hbits := congrArg Prod.snd hrecord
    simp only at hsym hbits
    simp only [deserRecord, hsym, hcl, hbits, pad_eq_false hbytes.2.2, if_neg (by omega : ¬e - t.p < 2),
      if_neg (Nat.not_lt.2 hleast), if_neg (by omega : ¬r.2.length = 0),
      if_neg (by omega : ¬e - (t.p + 2) < ceil8 r.2.length)]
    simp only [Parse.after, recordBytes_singleton_length, Nat.add_assoc]
    rfl

/-! ## The loop -/

theorem deserRecords_succ (src : Memory) (e cnt : Nat) (t : Parse) :
    deserRecords src e (cnt + 1) t = deserRecord src e t >>= deserRecords src e cnt := by
  rw [deserRecords]
  cases deserRecord src e t <;> rfl

/-- The loop goes through well-formed records, and on with the passes left (R195). -/
theorem deserRecords_add {src : Memory} {e : Nat} {t : Parse} {recs : List (Byte × Bits)}
    (h : ReadsRecords src e t recs) (k : Nat) :
    deserRecords src e (recs.length + k) t = deserRecords src e k (t.after recs) := by
  induction recs generalizing t with
  | nil => rw [List.length_nil, Nat.zero_add]; rfl
  | cons r rest ih =>
    obtain ⟨hr, hrest⟩ := readsRecords_cons.1 h
    rw [List.length_cons, Nat.add_right_comm, deserRecords_succ, t.after_cons r rest,
      deserRecord_eq_ok.2 ⟨r, hr, rfl⟩]
    exact ih hrest

/-- The loop ends exactly when as many well-formed records stand in SRC (R195). -/
theorem deserRecords_eq_ok {src : Memory} {e cnt : Nat} {t t' : Parse} (hp : t.p ≤ e) :
    deserRecords src e cnt t = .ok t' ↔
      ∃ recs, recs.length = cnt ∧ ReadsRecords src e t recs ∧ t' = t.after recs := by
  constructor
  · intro h
    induction cnt generalizing t with
    | zero =>
      cases h
      exact ⟨[], rfl, ⟨recordsFrom_nil _, rfl, hp⟩, rfl⟩
    | succ cnt ih =>
      unfold deserRecords at h
      split at h
      · cases h
      next u hu =>
        obtain ⟨r, hr, rfl⟩ := deserRecord_eq_ok.1 hu
        obtain ⟨recs, rfl, hrecs, rfl⟩ := ih hr.inside h
        exact ⟨r :: recs, rfl, readsRecords_cons.2 ⟨hr, hrecs⟩, (t.after_cons r recs).symm⟩
  · rintro ⟨recs, rfl, hrecs, rfl⟩
    exact deserRecords_add hrecs 0

end Sys2Proof.Machine
end

section
/-! SUPPORT. The tests DESER makes, in the order it makes them, and its answer on a table of well-formed records (spec
44_container.md R195). -/

namespace Sys2Proof.Machine

/-- Two stages that end: the first one ends, and the second one on its result. -/
theorem bind_eq_ok {α β : Type} {x : Except Stop α} {f : α → Except Stop β} {b : β} (h : x >>= f = .ok b) :
    ∃ a, x = .ok a ∧ f a = .ok b := by
  cases x with
  | error _ => cases h
  | ok a => exact ⟨a, rfl, h⟩

/-! ## The tests at a record -/

section
variable {src : Memory} {e : Nat} {t : Parse}

theorem deserRecord_header_cut (h : e < t.p + 2) :
    deserRecord src e t = .error (.raised (faultOf 0x31#8 .corruptTable 6#8 t.p)) := if_pos (by omega)

variable (hhead : t.p + 2 ≤ e)
include hhead

theorem deserRecord_not_ascending (h : (readByte .src src t.p).toNat < t.least) :
    deserRecord src e t = .error (.raised (faultOf 0x31#8 .corruptTable 7#8 t.p)) := by
  simp only [deserRecord, if_neg (by omega : ¬e - t.p < 2), if_pos h]
  rfl

variable (hleast : t.least ≤ (readByte .src src t.p).toNat)
include hleast

theorem deserRecord_empty_code (h : (readByte .src src (t.p + 1)).toNat = 0) :
    deserRecord src e t = .error (.raised (faultOf 0x31#8 .corruptTable 8#8 (t.p + 1))) := by
  simp only [deserRecord, if_neg (by omega : ¬e - t.p < 2), if_neg (Nat.not_lt.2 hleast), if_pos h]
  rfl

variable {cl : Nat} (hread : (readByte .src src (t.p + 1)).toNat = cl) (hcl : cl ≠ 0)
include hread hcl

theorem deserRecord_code_cut (h : e < t.p + 2 + ceil8 cl) :
    deserRecord src e t = .error (.raised (faultOf 0x31#8 .corruptTable 6#8 (t.p + 2))) := by
  simp only [deserRecord, hread, if_neg (by omega : ¬e - t.p < 2), if_neg (Nat.not_lt.2 hleast), if_neg hcl,
    if_pos (by omega : e - (t.p + 2) < ceil8 cl)]
  rfl

theorem deserRecord_pad_set (h : t.p + 2 + ceil8 cl ≤ e)
    (hset : ∃ j, cl ≤ j ∧ j < 8 * ceil8 cl ∧ bitRead .src src (t.p + 2) j = true) :
    deserRecord src e t = .error (.raised (faultOf 0x31#8 .corruptTable 9#8 (t.p + 2 + ceil8 cl - 1))) := by
  obtain ⟨j, hj, hlast, hbit⟩ := hset
  have hany : (bitsRead .src src (t.p + 2) cl (8 * ceil8 cl - cl)).any id = true := by
    refine List.any_eq_true.2 ⟨_, List.mem_map.2 ⟨j - cl, List.mem_range.2 (by omega), rfl⟩, ?_⟩
    rwa [Nat.add_sub_cancel' hj]
  simp only [deserRecord, hread, if_neg (by omega : ¬e - t.p < 2), if_neg (Nat.not_lt.2 hleast), if_neg hcl,
    if_neg (by omega : ¬e - (t.p + 2) < ceil8 cl), hany, if_true]
  rfl

end

/-! ## The table -/

/-- The record loop before the first record (R195). -/
def Parse.start : Parse := { p := 7, least := 0, code := emptyCode }

/-- DESER's tests of the table after its records (R195). -/
def tableRest (e cnt : Nat) (t : Parse) : Except Stop (CodeTable × Nat) :=
  if t.p ≠ e then raise 0x31#8 .corruptTable 10#8 t.p
  else if prefixFree t.code = false then raise 0x31#8 .corruptTable 11#8 e
  else .ok (t.code, cnt)

/-- The table's header passes DESER's tests (R195). -/
structure HeaderOk (src : Memory) (e : Nat) : Prop where
  room : 7 ≤ e
  version : readByte .src src 4 = 0x01#8
  count : memRead .src src 5 2 ≤ 256

theorem deserTable_eq {src : Memory} {e : Nat} (h : HeaderOk src e) :
    deserTable src e =
      deserRecords src e (memRead .src src 5 2) Parse.start >>= tableRest e (memRead .src src 5 2) := by
  obtain ⟨hroom, hversion, hcount⟩ := h
  simp only [deserTable, if_neg (by omega : ¬e - 4 < 3), hversion, Config.tblVer, ne_eq, not_true, if_false,
    if_neg (Nat.not_lt.2 hcount), Parse.start]
  cases deserRecords src e (memRead .src src 5 2) { p := 7, least := 0, code := emptyCode } <;> rfl

/-- The header of a table DESER accepts (R195). -/
theorem headerOk_of_deserTable {src : Memory} {e : Nat} {c : CodeTable × Nat} (h : deserTable src e = .ok c) :
    HeaderOk src e := by
  simp only [deserTable, raise] at h
  split at h
  · cases h
  split at h
  · cases h
  next hversion =>
    split at h
    · cases h
    · exact ⟨by omega, not_not.1 hversion, by omega⟩

theorem tableRest_eq_ok {e cnt : Nat} {t : Parse} {c : CodeTable × Nat} :
    tableRest e cnt t = .ok c ↔ t.p = e ∧ prefixFree t.code = true ∧ c = (t.code, cnt) := by
  by_cases hp : t.p = e
  · cases hfree : prefixFree t.code <;> simp [tableRest, raise, hp, hfree, eq_comm]
  · simp [tableRest, raise, hp]

/-! ## The whole rule -/

/-- The state DESER leaves (R195). -/
def restored (s : State) (code : CodeTable) (cnt : Nat) : State :=
  { s with
    code := code
    ncode := BitVec.ofNat 9 cnt
    bitLen := BitVec.ofNat 32 (memRead .src s.src (tableEnd s) 4)
    pay := writeBytes s.pay 0 (readBytes .src s.src (tableEnd s + 4) (payloadSize s))
    payLen := BitVec.ofNat 32 (payloadSize s)
    acc := 0#8
    status := s.status.payloadDropped.loaded }

/-- DESER's tests after the table, and its end (R195). -/
def payloadRest (s : State) (c : CodeTable × Nat) : Except Stop State :=
  if s.srcLen.toNat - tableEnd s < 4 then raise 0x31#8 .corruptTable 12#8 (tableEnd s)
  else if s.payCap.toNat < payloadSize s then raise 0x31#8 .capacityExceeded 2#8 0
  else .ok (restored s c.1 c.2)

theorem deserRule_of_overlong {s : State} (h : s.srcCap.toNat < s.srcLen.toNat) :
    deserRule s = .error (.raised (faultOf 0x31#8 .capacityExceeded 1#8 s.srcLen.toNat)) := by
  rw [deserRule, needSrcFits_of_lt _ h]

/-- DESER's rule when SRC fits, its parts in their order (R195). -/
theorem deserRule_of_fits {s : State} (h : s.srcLen.toNat ≤ s.srcCap.toNat) : deserRule s =
    if s.srcLen.toNat < 4 then raise 0x31#8 .corruptTable 1#8 s.srcLen.toNat
    else if s.srcLen.toNat - 4 < memRead .src s.src 0 4 then raise 0x31#8 .corruptTable 2#8 4
    else deserTable s.src (tableEnd s) >>= payloadRest s := by
  rw [deserRule, needSrcFits_of_le _ h]
  cases htable : deserTable s.src (tableEnd s) <;> rw [tableEnd] at htable <;> simp only [htable] <;> rfl

theorem deserRule_of_inside {s : State} (hfit : s.srcLen.toNat ≤ s.srcCap.toNat) (h : tableEnd s ≤ s.srcLen.toNat) :
    deserRule s = deserTable s.src (tableEnd s) >>= payloadRest s := by
  rw [tableEnd] at h
  rw [deserRule_of_fits hfit, if_neg (by omega), if_neg (by omega)]

theorem payloadRest_cut {s : State} (h : s.srcLen.toNat < tableEnd s + 4) (c : CodeTable × Nat) :
    payloadRest s c = .error (.raised (faultOf 0x31#8 .corruptTable 12#8 (tableEnd s))) := if_pos (by omega)

theorem payloadRest_over {s : State} (hlen : tableEnd s + 4 ≤ s.srcLen.toNat) (h : s.payCap.toNat < payloadSize s)
    (c : CodeTable × Nat) : payloadRest s c = .error (.raised (faultOf 0x31#8 .capacityExceeded 2#8 0)) :=
  (if_neg (by omega)).trans (if_pos h)

theorem payloadRest_fits {s : State} (hlen : tableEnd s + 4 ≤ s.srcLen.toNat) (h : payloadSize s ≤ s.payCap.toNat)
    (c : CodeTable × Nat) : payloadRest s c = .ok (restored s c.1 c.2) :=
  (if_neg (by omega)).trans (if_neg (Nat.not_lt.2 h))

theorem payloadRest_begin (s : State) (c : CodeTable × Nat) :
    payloadRest (begin s) c = payloadRest s c >>= fun t => .ok (begin t) := by
  obtain hcut | hlen := Nat.lt_or_ge s.srcLen.toNat (tableEnd s + 4)
  · rw [payloadRest_cut hcut, payloadRest_cut (s := begin s) hcut]
    rfl
  obtain hover | hfit := Nat.lt_or_ge s.payCap.toNat (payloadSize s)
  · rw [payloadRest_over hlen hover, payloadRest_over (s := begin s) hlen hover]
    rfl
  · rw [payloadRest_fits hlen hfit, payloadRest_fits (s := begin s) hlen hfit]
    rfl

/-- DESER's rule does not see BUSY. -/
theorem deserRule_begin (s : State) : deserRule (begin s) = deserRule s >>= fun t => .ok (begin t) := by
  obtain hover | hfit := Nat.lt_or_ge s.srcCap.toNat s.srcLen.toNat
  · rw [deserRule_of_overlong hover, deserRule_of_overlong (s := begin s) hover]
    rfl
  · rw [deserRule_of_fits hfit, deserRule_of_fits (s := begin s) hfit]
    simp only [begin_srcLen, begin_src, show tableEnd (begin s) = tableEnd s from rfl,
      funext (payloadRest_begin s)]
    split
    · rfl
    split
    · rfl
    · cases deserTable s.src (tableEnd s) <;> rfl

/-- A `raise` of DESER's rule is the fault DESER ends in. -/
theorem raises_deser {s : State} {r : Raised} (haccept : accepting s = true)
    (h : deserRule s = .error (.raised r)) : Raises .deser s r := by
  refine raises_of_rule (i := .deser) (by decide) rfl ⟨haccept, rfl⟩ ?_
  rw [ruleOf, deserRule_begin, h]
  rfl

/-- The whole result of DESER when its rule ends. -/
theorem exec_deser {s t : State} (haccept : accepting s = true) (h : deserRule s = .ok t) :
    exec .deser s = .next t := by
  have hidle := ((accepting_iff s).1 haccept).1
  obtain ⟨_, _, _, _, _, _, ht⟩ := deserRule_ok h
  have hrule : ruleOf .deser (begin s) = .ok (begin t) := by
    rw [ruleOf, deserRule_begin, h]
    rfl
  rw [exec_of_rule (i := .deser) (by decide) rfl ⟨haccept, rfl⟩ hrule, finish_begin t (by rw [ht]; exact hidle)]

end Sys2Proof.Machine
end

section
/-! PROOF. O40: DESER's tests, in their order (spec 44_container.md R195, R197, 60_exceptions.md R244, R248). -/

namespace Sys2Proof.Machine

/-! ## The header of the table -/

theorem memRead_two (sp : Space) (m : Memory) (a : Nat) :
    memRead sp m a 2 = 256 * (readByte sp m a).toNat + (readByte sp m (a + 1)).toNat := by
  simp [memRead, readBytes, bytesVal, List.range_succ]

theorem deserTable_short {src : Memory} {e : Nat} (h : e < 7) :
    deserTable src e = .error (.raised (faultOf 0x31#8 .corruptTable 3#8 4)) := if_pos (by omega)

theorem deserTable_version {src : Memory} {e : Nat} (hroom : 7 ≤ e) (h : readByte .src src 4 ≠ 0x01#8) :
    deserTable src e = .error (.raised (faultOf 0x31#8 .corruptTable 4#8 4)) :=
  (if_neg (by omega)).trans (if_pos h)

theorem deserTable_count {src : Memory} {e : Nat} (hroom : 7 ≤ e) (hversion : readByte .src src 4 = 0x01#8)
    (h : 256 < memRead .src src 5 2) :
    deserTable src e = .error (.raised (faultOf 0x31#8 .corruptTable 5#8 5)) :=
  (if_neg (by omega)).trans ((if_neg (not_not.2 hversion)).trans (if_pos h))

/-- A raise in the table is the rule's. -/
theorem deserRule_of_table {s : State} {r : Raised} (hfit : s.srcLen.toNat ≤ s.srcCap.toNat)
    (hin : tableEnd s ≤ s.srcLen.toNat) (h : deserTable s.src (tableEnd s) = .error (.raised r)) :
    deserRule s = .error (.raised r) := by
  rw [deserRule_of_inside hfit hin, h]
  rfl

/-! ## The table up to some well-formed records -/

section
variable {s : State} {recs : List (Byte × Bits)} (h : ParsedSoFar s recs)
include h

theorem ParsedSoFar.headerOk : HeaderOk s.src (tableEnd s) :=
  ⟨by have := h.header; rw [tableEnd]; omega, h.version, h.count⟩

theorem ParsedSoFar.reads : ReadsRecords s.src (tableEnd s) Parse.start recs :=
  ⟨⟨fun _ _ => Nat.zero_le _, h.ascending, h.lengths⟩, h.records, h.inside⟩

/-- A record that fails a test after well-formed ones decides the fault (R195, R260). -/
theorem ParsedSoFar.raises_record {r : Raised} (haccept : accepting s = true)
    (hmore : recs.length < memRead .src s.src 5 2)
    (hr : deserRecord s.src (tableEnd s) (Parse.start.after recs) = .error (.raised r)) : Raises .deser s r := by
  obtain ⟨k, hk⟩ := Nat.exists_eq_add_of_lt hmore
  have hloop : deserRecords s.src (tableEnd s) (memRead .src s.src 5 2) Parse.start = .error (.raised r) := by
    rw [hk, Nat.add_assoc, deserRecords_add h.reads, deserRecords_succ, hr]
    rfl
  refine raises_deser haccept (deserRule_of_table h.fits h.room ?_)
  rw [deserTable_eq h.headerOk, hloop]
  rfl

/-- After the table's last record DESER makes the tests of the whole table (R195). -/
theorem ParsedSoFar.deserTable_eq (hall : recs.length = memRead .src s.src 5 2) :
    deserTable s.src (tableEnd s) = tableRest (tableEnd s) recs.length (Parse.start.after recs) := by
  have hloop : deserRecords s.src (tableEnd s) recs.length Parse.start = .ok (Parse.start.after recs) :=
    deserRecords_add h.reads 0
  rw [Machine.deserTable_eq h.headerOk, ← hall, hloop]
  rfl

/-- The test that the records fill the table is the first of them (R195). -/
theorem ParsedSoFar.deserTable_leftover (hall : recs.length = memRead .src s.src 5 2)
    (hlt : 7 + (recordBytes recs).length < tableEnd s) :
    deserTable s.src (tableEnd s) =
      .error (.raised (faultOf 0x31#8 .corruptTable 10#8 (7 + (recordBytes recs).length))) :=
  (h.deserTable_eq hall).trans (if_pos hlt.ne)

variable (hall : recs.length = memRead .src s.src 5 2) (hend : 7 + (recordBytes recs).length = tableEnd s)
include hall hend

/-- A table that its records fill is refused when a code begins another (R196). -/
theorem ParsedSoFar.deserTable_not_prefixFree (hbad : ∃ r ∈ recs, ∃ q ∈ recs, r.1 ≠ q.1 ∧ r.2 <+: q.2) :
    deserTable s.src (tableEnd s) = .error (.raised (faultOf 0x31#8 .corruptTable 11#8 (tableEnd s))) := by
  have hfree : prefixFree (codeOfRecords recs) = false := by
    obtain ⟨r, hr, q, hq, hne, hpre⟩ := hbad
    rw [← Bool.not_eq_true, prefixFree_codeOfRecords h.ascending]
    exact fun hfree => hfree r hr q hq hne hpre
  exact (h.deserTable_eq hall).trans ((if_neg (not_not.2 hend)).trans (if_pos hfree))

/-- A table that its records fill is accepted when no code begins another (R195, R196). -/
theorem ParsedSoFar.deserTable_accepted (hfree : ∀ r ∈ recs, ∀ q ∈ recs, r.1 ≠ q.1 → ¬r.2 <+: q.2) :
    deserTable s.src (tableEnd s) = .ok (codeOfRecords recs, recs.length) := by
  rw [h.deserTable_eq hall, tableRest_eq_ok]
  exact ⟨hend, (prefixFree_codeOfRecords h.ascending).2 hfree, rfl⟩

/-- Past an accepted table DESER makes the tests of the payload (R195). -/
theorem ParsedSoFar.deserRule_accepted (hfree : ∀ r ∈ recs, ∀ q ∈ recs, r.1 ≠ q.1 → ¬r.2 <+: q.2) :
    deserRule s = payloadRest s (codeOfRecords recs, recs.length) := by
  rw [deserRule_of_inside h.fits h.room, h.deserTable_accepted hall hend hfree]
  rfl

end

/-- Settles O40: each clause is the branch of the rule that its premises select. -/
theorem deserRefusesMalformedPrefixes : Obligations.DeserRefusesMalformedPrefixes := by
  refine ⟨fun s haccept => ?_, fun s recs haccept h => ⟨fun hmore => ?_, fun hall => ?_⟩⟩
  · have hend : tableEnd s = 4 + memRead .src s.src 0 4 := rfl
    refine ⟨fun hover => ?_, fun hfit hn => ?_, fun hfit hn hsize => ?_, fun hfit hin hsize => ?_,
      fun hfit hin hsize hversion => ?_, fun hfit hin hsize hversion hcount => ?_⟩
    · exact raises_deser haccept (deserRule_of_overlong hover)
    · exact raises_deser haccept ((deserRule_of_fits hfit).trans (if_pos hn))
    · exact raises_deser haccept ((deserRule_of_fits hfit).trans ((if_neg (by omega)).trans (if_pos (by omega))))
    · exact raises_deser haccept (deserRule_of_table hfit (by omega) (deserTable_short (by omega)))
    · exact raises_deser haccept (deserRule_of_table hfit (by omega) (deserTable_version (by omega) hversion))
    · rw [← memRead_two] at hcount
      exact raises_deser haccept (deserRule_of_table hfit (by omega) (deserTable_count (by omega) hversion hcount))
  · have hleast (x : Nat) : x < (Parse.start.after recs).least ↔ ∃ r ∈ recs, x ≤ r.1.toNat :=
      (Parse.lt_least_after h.reads.wellFormed x).trans (or_iff_right (Nat.not_lt_zero x))
    refine ⟨fun hcut => ?_, fun hhead hsym => ?_, fun hhead hsym => ?_⟩
    · exact h.raises_record haccept hmore (deserRecord_header_cut hcut)
    · exact h.raises_record haccept hmore (deserRecord_not_ascending hhead ((hleast _).2 hsym))
    have hnext := Nat.not_lt.1 fun hlt => by
      obtain ⟨r, hr, hle⟩ := (hleast _).1 hlt
      exact absurd (hsym r hr) (Nat.not_lt.2 hle)
    refine ⟨fun hcl => ?_, fun hcl hcut => ?_, fun hcl hroom hset => ?_⟩
    · exact h.raises_record haccept hmore (deserRecord_empty_code hhead hnext hcl)
    · exact h.raises_record haccept hmore (deserRecord_code_cut hhead hnext rfl hcl hcut)
    · exact h.raises_record haccept hmore (deserRecord_pad_set hhead hnext rfl hcl hroom hset)
  · refine ⟨fun hlt => ?_, fun hend hbad => ?_, fun hend hfree => ⟨fun hcut => ?_, fun hlen hover => ?_⟩⟩
    · exact raises_deser haccept (deserRule_of_table h.fits h.room (h.deserTable_leftover hall hlt))
    · exact raises_deser haccept
        (deserRule_of_table h.fits h.room (h.deserTable_not_prefixFree hall hend hbad))
    · exact raises_deser haccept ((h.deserRule_accepted hall hend hfree).trans (payloadRest_cut hcut _))
    · exact raises_deser haccept ((h.deserRule_accepted hall hend hfree).trans (payloadRest_over hlen hover _))

end Sys2Proof.Machine
end

section
/-! SUPPORT. DESER on a container of a codebook (spec 30_encoding.md R110, 44_container.md R195). -/

namespace Sys2Proof.Machine

theorem holds_of_srcBytes {s : State} {bs : List Byte} (h : srcBytes s = bs) :
    s.srcLen.toNat = bs.length ∧ Holds .src s.src 0 bs := by
  subst h
  exact ⟨(readBytes_length _ _ _ _).symm, holds_readBytes _ _ _ _⟩

/-- Where the parts of a container stand in SRC (R110). -/
structure ContainerIn (s : State) (table : List Byte) (bitLen : Nat) (payload : List Byte) : Prop where
  tableEnd_eq : tableEnd s = 4 + table.length
  srcLen_eq : s.srcLen.toNat = tableEnd s + 4 + payload.length
  table : Holds .src s.src 4 table
  bitLen : Holds .src s.src (tableEnd s) (bigEndian 4 bitLen)
  payload : Holds .src s.src (tableEnd s + 4) payload

theorem containerIn_of_srcBytes {s : State} {table payload : List Byte} {bitLen : Nat}
    (h : srcBytes s = containerBytes table bitLen payload) : ContainerIn s table bitLen payload := by
  obtain ⟨hlen, hbytes⟩ := holds_of_srcBytes h
  rw [containerBytes_length] at hlen
  simp only [containerBytes, holds_append, List.length_append, bigEndian_length, Nat.zero_add] at hbytes
  obtain ⟨⟨⟨hsize, htable⟩, hbit⟩, hpay⟩ := hbytes
  have hend : tableEnd s = 4 + table.length := by
    rw [tableEnd, hsize.memRead_eq (by have := s.srcLen.isLt; omega)]
  exact ⟨hend, hend ▸ hlen, htable, hend ▸ hbit, hend ▸ hpay⟩

section
variable {s : State} {code : CodeTable} {bitLen : Nat} {payload : List Byte}
  (h : ContainerIn s (tableBytes code (numValid code)) bitLen payload)
include h

/-- The records of a container's codebook fill its table (R112). -/
theorem ContainerIn.records_fill :
    (recordsOf code).length = memRead .src s.src 5 2 ∧ 7 + (recordBytes (recordsOf code)).length = tableEnd s := by
  have htable := h.table
  rw [tableBytes_eq, holds_cons, holds_append] at htable
  have hle := numValid_le code
  rw [htable.2.1.memRead_eq (by omega), h.tableEnd_eq, tableBytes_length, recordsOf_length]
  exact ⟨rfl, by omega⟩

/-- The table of a codebook of codes of 1 to 255 bits passes DESER's tests up to its last record (R195). -/
theorem ContainerIn.parsedSoFar (hfit : s.srcLen.toNat ≤ s.srcCap.toNat)
    (hlengths : ∀ x, x < 256 → (entryAt code x).valid = true →
      1 ≤ (entryAt code x).bits.length ∧ (entryAt code x).bits.length ≤ 255) : ParsedSoFar s (recordsOf code) := by
  obtain ⟨hcount, hend⟩ := h.records_fill
  have htable := h.table
  rw [tableBytes_eq, holds_cons, holds_append, bigEndian_length] at htable
  obtain ⟨hversion, _, hrecords⟩ := htable
  have hsize : tableEnd s = 4 + memRead .src s.src 0 4 := rfl
  have hlen := h.srcLen_eq
  refine ⟨hfit, by omega, by omega, hversion, ?_, hrecords, by omega, recordsOf_ascending code, fun r hr => ?_⟩
  · rw [← hcount, recordsOf_length]
    exact numValid_le code
  · obtain ⟨hvalid, hbits⟩ := mem_recordsOf.1 hr
    rw [hbits]
    exact hlengths _ r.1.isLt hvalid

/-- DESER restores the codebook a container holds (R195). -/
theorem ContainerIn.deserRule_eq (hfit : s.srcLen.toNat ≤ s.srcCap.toNat) (hcode : CodeOk code)
    (hpay : payload.length ≤ s.payCap.toNat) : deserRule s = .ok (restored s code (numValid code)) := by
  obtain ⟨hcount, hend⟩ := h.records_fill
  have hfree : ∀ r ∈ recordsOf code, ∀ q ∈ recordsOf code, r.1 ≠ q.1 → ¬r.2 <+: q.2 := by
    intro r hr q hq hne
    obtain ⟨hvr, hr⟩ := mem_recordsOf.1 hr
    obtain ⟨hvq, hq⟩ := mem_recordsOf.1 hq
    rw [hr, hq]
    exact hcode.prefix_free _ _ r.1.isLt q.1.isLt (fun heq => hne (BitVec.eq_of_toNat_eq heq)) hvr hvq
  have hlen := h.srcLen_eq
  rw [(h.parsedSoFar hfit hcode.lengths).deserRule_accepted hcount hend hfree, codeOfRecords_recordsOf hcode.empties,
    recordsOf_length]
  exact payloadRest_fits (by omega) (by rw [payloadSize]; omega) _

end

/-- The bit length DESER restores (R195). -/
theorem ContainerIn.restored_bitLen {s : State} {table payload : List Byte} {bitLen : Nat}
    (h : ContainerIn s table bitLen payload) (hbit : bitLen < 2 ^ 32) (code : CodeTable) (cnt : Nat) :
    (restored s code cnt).bitLen.toNat = bitLen := by
  rw [restored, h.bitLen.memRead_eq hbit, BitVec.toNat_ofNat, Nat.mod_eq_of_lt hbit]

theorem ContainerIn.payloadSize_eq {s : State} {table payload : List Byte} {bitLen : Nat}
    (h : ContainerIn s table bitLen payload) : payloadSize s = payload.length := by
  rw [payloadSize, h.srcLen_eq]
  omega

end Sys2Proof.Machine
end

section
/-! PROOF. O38: DESER restores the codebook, the bit length and the payload of a container (spec 44_container.md R195,
R199 a). -/

namespace Sys2Proof.Machine

/-- Settles O38: a codebook's records are read back as that codebook, and the payload as it stands. -/
theorem deserRestoresWhatAContainerHolds : Obligations.DeserRestoresWhatAContainerHolds := by
  intro s code bitLen payload haccept hfit hcode hbit hsrc hpay
  have h := containerIn_of_srcBytes hsrc
  have hrule := h.deserRule_eq hfit hcode hpay
  have hbytes := h.payload
  have hcount := numValid_le code
  rw [Holds, ← h.payloadSize_eq] at hbytes
  refine ⟨_, exec_deser haccept hrule, rfl, ?_, h.restored_bitLen hbit _ _, ?_, ?_, fun a ha => ?_, rfl⟩
  · exact Nat.mod_eq_of_lt (by omega)
  · rw [restored, h.payloadSize_eq]
    exact toNat_ofNat_of_le hpay
  · exact (deserRule_payload hrule).trans hbytes
  · refine readByte_writeBytes_out _ _ _ _ _ (.inr ?_)
    rw [readBytes_length, h.payloadSize_eq]
    omega

end Sys2Proof.Machine
end

section
/-! PROOF. O41: DESER refuses every table that is not prefix-free (spec 44_container.md R195, R196). -/

namespace Sys2Proof.Machine

/-- Settles O41: the two codes are records of the table, and its other tests pass. -/
theorem deserRefusesTablesThatAreNotPrefixFree : Obligations.DeserRefusesTablesThatAreNotPrefixFree := by
  intro s code bitLen x y payload haccept hfit hsrc hlengths hx hy hxy hvx hvy hpre
  have h := containerIn_of_srcBytes hsrc
  obtain ⟨hcount, hend⟩ := h.records_fill
  have hparsed := h.parsedSoFar hfit hlengths
  have hmem {z : Nat} (hz : z < 256) (hvalid : (entryAt code z).valid = true) :
      (BitVec.ofNat 8 z, (entryAt code z).bits) ∈ recordsOf code :=
    List.mem_map.2 ⟨z, (mem_validSyms code z).2 ⟨hz, hvalid⟩, rfl⟩
  have hne : BitVec.ofNat 8 x ≠ BitVec.ofNat 8 y := fun heq => hxy (by
    have := congrArg BitVec.toNat heq
    rwa [BitVec.toNat_ofNat, BitVec.toNat_ofNat, Nat.mod_eq_of_lt hx, Nat.mod_eq_of_lt hy] at this)
  rw [← h.tableEnd_eq]
  exact raises_deser haccept (deserRule_of_table hfit hparsed.room
    (hparsed.deserTable_not_prefixFree hcount hend ⟨_, hmem hx hvx, _, hmem hy hvy, hne, hpre⟩))

end Sys2Proof.Machine
end

section
/-! PROOF. O39: SER after DESER reproduces the container (spec 30_encoding.md R114, 44_container.md R199 b). -/

namespace Sys2Proof.Machine

/-- The table DESER accepts is the serialization of the codebook it leaves (R114). -/
theorem holds_of_deserTable {src : Memory} {e cnt : Nat} {code : CodeTable}
    (h : deserTable src e = .ok (code, cnt)) :
    Holds .src src 4 (tableBytes code cnt) ∧ 4 + (tableBytes code cnt).length = e := by
  have hheader := headerOk_of_deserTable h
  rw [deserTable_eq hheader] at h
  obtain ⟨t, hloop, hrest⟩ := bind_eq_ok h
  obtain ⟨hend, _, hc⟩ := tableRest_eq_ok.1 hrest
  obtain ⟨recs, hlen, hrecs, rfl⟩ := (deserRecords_eq_ok hheader.room).1 hloop
  obtain ⟨rfl, rfl⟩ := Prod.mk.inj hc
  have hrecords : recordsOf (Parse.start.after recs).code = recs := recordsOf_codeOfRecords hrecs.wellFormed.ascending
  have hend : 7 + (recordBytes recs).length = e := hend
  rw [tableBytes_length, tableBytes_eq, hrecords, holds_cons, holds_append, bigEndian_length]
  exact ⟨⟨hheader.version, holds_memRead _ _ _ _, hrecs.bytes⟩, by omega⟩

/-- DESER ends without a fault only at the end of its rule. -/
theorem deserRule_of_exec {s t : State} (haccept : accepting s = true) (h : exec .deser s = .next t)
    (herr : t.status.err = false) : deserRule s = .ok t := by
  have hcases := h
  rw [exec_eq_command .deser (by decide)] at hcases
  obtain ⟨hdrop, _⟩ | ⟨_, u, hu, _⟩ | ⟨_, r, _, rfl⟩ := command_cases hcases
  · simp [hdrop] at haccept
  · have hrule := (runRule_ok hu).2.2
    rw [ruleOf, deserRule_begin] at hrule
    obtain ⟨v, hv, _⟩ := bind_eq_ok hrule
    rw [hv, Host.Outcome.next.inj ((exec_deser haccept hv).symm.trans h)]
  · cases herr

/-- What SER writes after DESER is what DESER read (R199 b). -/
theorem serContainer_of_deserRule {s t : State} (h : deserRule s = .ok t) : serContainer t = srcBytes s := by
  have hpay := deserRule_payload h
  obtain ⟨_, hlen, _, code, cnt, htable, rfl⟩ := deserRule_ok h
  obtain ⟨hbytes, hend⟩ := holds_of_deserTable htable
  have hcount := (deserTable_ok htable).2.2
  have hbit : memRead .src s.src (tableEnd s) 4 < 2 ^ 32 := memRead_lt _ _ _ _
  have hsize : memRead .src s.src 0 4 = (tableBytes code cnt).length := by rw [tableEnd] at hend; omega
  rw [serContainer, hpay]
  simp only [BitVec.toNat_ofNat]
  rw [Nat.mod_eq_of_lt (by omega), Nat.mod_eq_of_lt hbit]
  have hcontainer : Holds .src s.src 0 (containerBytes (tableBytes code cnt) (memRead .src s.src (tableEnd s) 4)
      (readBytes .src s.src (tableEnd s + 4) (payloadSize s))) := by
    simp only [containerBytes, holds_append, List.length_append, bigEndian_length, Nat.zero_add, hend]
    exact ⟨⟨⟨hsize ▸ holds_memRead _ _ _ _, hbytes⟩, holds_memRead _ _ _ _⟩, holds_readBytes _ _ _ _⟩
  rw [srcBytes, ← hcontainer, containerBytes_length, readBytes_length, payloadSize, hend]
  congr 1
  omega

/-- Settles O39: the canonical form of the table makes SER write back the bytes DESER read. -/
theorem serAfterDeserReproducesTheContainer : Obligations.SerAfterDeserReproducesTheContainer := by
  intro s t haccept hexec herr hfit
  have hrule := deserRule_of_exec haccept hexec herr
  have hcontainer := serContainer_of_deserRule hrule
  have hlen := congrArg List.length hcontainer
  rw [srcBytes, readBytes_length] at hlen
  have hready : Ready .ser t ∧ t.dstCap = s.dstCap := by
    obtain ⟨_, _, _, _, _, _, rfl⟩ := deserRule_ok hrule
    exact ⟨⟨haccept, rfl⟩, rfl⟩
  obtain ⟨u, hser, hdstLen, hdst, _, hu⟩ := (serWritesTheContainer t hready.1).1 (by
    rw [hready.2]
    exact hlen.trans_le hfit)
  refine ⟨u, hser, by rw [hu]; exact herr, BitVec.eq_of_toNat_eq (hdstLen.trans hlen), hdst.trans hcontainer⟩

end Sys2Proof.Machine
end

section
/-! SUPPORT. No rule sees BUSY (spec 30_encoding.md R101 steps 3 and 7), so a command answers what its rule answers in
the idle block. -/

namespace Sys2Proof.Machine

/-! ## The rules -/

/-- A rule that runs alike with BUSY set and clear, and leaves BUSY alone. -/
def BlindToBusy (f : State → Except Stop State) : Prop := ∀ s, f (begin s) = f s >>= fun t => .ok (begin t)

theorem BlindToBusy.comp {f g : State → Except Stop State} (hf : BlindToBusy f) (hg : BlindToBusy g) :
    BlindToBusy fun s => f s >>= g := by
  intro s
  change (f (begin s) >>= g) = (f s >>= g) >>= fun t => .ok (begin t)
  rw [hf s]
  cases f s with
  | error x => rfl
  | ok t => exact hg t

theorem pkPush_blind (op : Byte) (c : Bits) : BlindToBusy (pkPush op c) := by
  intro s
  rw [pkPush, pkPush, pkBits_begin, begin_bitLen, begin_payCap]
  split
  · rfl
  · split <;> rfl

theorem countRule_blind : BlindToBusy countRule := by
  intro s
  rw [countRule_eq, countRule_eq, show needSrcFits 0x10#8 (begin s) = needSrcFits 0x10#8 s from rfl]
  cases needSrcFits 0x10#8 s <;> rfl

theorem buildRule_blind : BlindToBusy buildRule := by
  intro s
  by_cases hsome : leafSyms s.freq = []
  · rw [buildRule_of_uncounted hsome, buildRule_of_uncounted (s := begin s) hsome]
    rfl
  · rw [buildRule_of_counted hsome, buildRule_of_counted (s := begin s) hsome]
    rfl

theorem walkRule_blind : BlindToBusy walkRule := by
  intro s
  rw [walkRule, walkRule, begin_node, begin_root]
  cases walkTree s.node s.root.toNat <;> rfl

theorem upinitRule_blind : BlindToBusy upinitRule := by
  intro s
  obtain hlt | hle := Nat.lt_or_ge s.payLen.toNat (ceil8 s.bitLen.toNat)
  · rw [upinitRule_of_lt hlt, upinitRule_of_lt (s := begin s) hlt]
    rfl
  · rw [upinitRule_of_le hle, upinitRule_of_le (s := begin s) hle]
    rfl

theorem upgetRule_blind (n : BitVec 6) : BlindToBusy (upgetRule n) := by
  intro s
  obtain hlt | hle := Nat.lt_or_ge s.bitLen.toNat (s.upPos.toNat + n.toNat)
  · rw [upgetRule_of_lt hlt, upgetRule_of_lt (s := begin s) hlt]
    rfl
  · rw [upgetRule_of_le hle, upgetRule_of_le (s := begin s) hle]
    rfl

theorem encodeLoop_blind (bs : List Byte) (i : Nat) : BlindToBusy (encodeLoop bs i) := by
  induction bs generalizing i with
  | nil => exact fun _ => rfl
  | cons b rest ih =>
    intro s
    rw [encodeLoop, encodeLoop, begin_code, pkPush_blind]
    split
    · cases pkPush 0x28#8 (entryAt s.code b.toNat).bits s with
      | error x => rfl
      | ok t => exact ih (i + 1) t
    · rfl

theorem encodeRule_blind : BlindToBusy encodeRule := by
  intro s
  rw [encodeRule_eq, encodeRule_eq, show needSrcFits 0x28#8 (begin s) = needSrcFits 0x28#8 s from rfl,
    show srcBytes (begin s) = srcBytes s from rfl, show encodeStart (begin s) = begin (encodeStart s) from rfl,
    encodeLoop_blind]
  cases needSrcFits 0x28#8 s with
  | error x => rfl
  | ok _ => cases encodeLoop (srcBytes s) 0 (encodeStart s) <;> rfl

theorem decodeRule_blind : BlindToBusy decodeRule := by
  intro s
  rw [decodeRule_eq, decodeRule_eq, show decodeBits (begin s) = decodeBits s from rfl, begin_bitLen, begin_payLen]
  split
  · cases decodeBits s <;> rfl
  · rfl

theorem serRule_blind : BlindToBusy serRule := by
  intro s
  obtain hlt | hle := Nat.lt_or_ge s.dstCap.toNat (serContainer s).length
  · rw [serRule_of_lt hlt, serRule_of_lt (s := begin s) hlt]
    rfl
  · rw [serRule_of_le hle, serRule_of_le (s := begin s) hle]
    rfl

theorem compressMiddle_blind : BlindToBusy compressMiddle := by
  intro s
  rw [compressMiddle_eq, compressMiddle_eq, begin_srcLen]
  split
  · rfl
  · exact buildRule_blind.comp (walkRule_blind.comp encodeRule_blind) s

theorem compressRule_blind : BlindToBusy compressRule := by
  rw [funext compressRule_eq]
  exact countRule_blind.comp (compressMiddle_blind.comp serRule_blind)

theorem decompressRule_blind : BlindToBusy decompressRule := by
  rw [funext decompressRule_eq]
  exact BlindToBusy.comp deserRule_begin decodeRule_blind

theorem ruleOf_blind {i : Instr} (hi : i ≠ .srst) : BlindToBusy (ruleOf i) := by
  cases i with
  | srst => exact absurd rfl hi
  | nop | pkinit | pkflush => exact fun _ => rfl
  | count => exact countRule_blind
  | build => exact buildRule_blind
  | walk => exact walkRule_blind
  | pkput n => exact fun s => pkPush_blind 0x21#8 (putOperand n s.pkData) s
  | upinit => exact upinitRule_blind
  | upget n => exact upgetRule_blind n
  | encode => exact encodeRule_blind
  | decode => exact decodeRule_blind
  | ser => exact serRule_blind
  | deser => exact deserRule_begin
  | compress => exact compressRule_blind
  | decompress => exact decompressRule_blind

/-! ## The answers -/

/-- SRST apart, no rule writes BUSY (R32). -/
theorem ruleOf_busyFlag {i : Instr} {s t : State} (hi : i ≠ .srst) (h : ruleOf i s = .ok t) :
    t.status.busy = s.status.busy := by
  rw [ruleOf_status h]
  cases i with
  | srst => exact absurd rfl hi
  | compress =>
    simp only [flagsAfter]
    split <;> rfl
  | nop | count | build | walk | pkinit | pkput | pkflush | upinit | upget | encode | decode | ser | deser
  | decompress => rfl

/-- A block that takes commands still does when a rule ends. -/
theorem accepting_of_rule {i : Instr} {s t : State} (hi : i ≠ .srst) (haccept : accepting s = true)
    (h : ruleOf i s = .ok t) : accepting t = true := by
  rw [accepting_iff, ruleOf_busyFlag hi h, ruleOf_errFlag hi h]
  exact (accepting_iff s).1 haccept

theorem begin_of_rule_error {i : Instr} {s : State} {x : Stop} (hi : i ≠ .srst)
    (h : ruleOf i s = .error x) : ruleOf i (begin s) = .error x := by
  rw [ruleOf_blind hi, h]
  rfl

section
variable {i : Instr} {s : State} (hi : i ≠ .srst) (hw : i.wf = true) (hready : Ready i s)
include hi hw hready

/-- The whole result of a command whose rule ends. -/
theorem exec_of_rule_ok {t : State} (h : ruleOf i s = .ok t) : exec i s = .next t := by
  have hbegin : ruleOf i (begin s) = .ok (begin t) := by
    rw [ruleOf_blind hi, h]
    rfl
  have hidle := ((accepting_iff t).1 (accepting_of_rule hi hready.1 h)).1
  rw [exec_of_rule hi hw hready hbegin, finish_begin t hidle]

/-- The whole result of a command whose rule raises. -/
theorem exec_of_rule_raised {r : Raised} (h : ruleOf i s = .error (.raised r)) :
    exec i s = .next (faultEntry i.opcode r s) := by
  rw [exec_eq_command i hi]
  exact command_raised hw hready (begin_of_rule_error hi h)

theorem raises_of_rule_raised {r : Raised} (h : ruleOf i s = .error (.raised r)) : Raises i s r :=
  ⟨_, exec_of_rule_raised hi hw hready h, faultEntry_latched _ _ _⟩

/-- A command that is taken and answers a next state: its rule ended there, or raised. -/
theorem rule_of_exec {t : State} (h : exec i s = .next t) :
    ruleOf i s = .ok t ∨ ∃ r, ruleOf i s = .error (.raised r) ∧ t = faultEntry i.opcode r s := by
  cases hrule : ruleOf i s with
  | ok u =>
    cases (exec_of_rule_ok hi hw hready hrule).symm.trans h
    exact .inl rfl
  | error x =>
    cases x with
    | raised r =>
      cases (exec_of_rule_raised hi hw hready hrule).symm.trans h
      exact .inr ⟨r, rfl, rfl⟩
    | stuck f =>
      have hp : prerequisite i (begin s).status = true := by simpa using hready.2
      rw [exec_eq_command i hi] at h
      simp [command, hready.1, runRule_eq i (ruleOf i) (begin s) hw hp, begin_of_rule_error hi hrule] at h

end

end Sys2Proof.Machine
end

section
/-! PROOF. O43, O44: a composite is the run of its stages (spec 45_codec.md R212, R213, R216, R217). -/

namespace Sys2Proof.Machine

/-- The commands run so far, as stages of one rule that ends in x, have left state t: the state that rule leaves, or one
with the fault it raises latched. -/
inductive StagesEnd (x : Except Stop State) (t : State) : Prop
  | ok (rule : x = .ok t) (taken : accepting t = true)
  | fault (r : Raised) (rule : x = .error (.raised r)) (flag : t.status.err = true)
      (record : t.err = { op := r.op, cmd := t.err.cmd, sub := r.sub, code := causeCode r.cause })
      (info : t.errInfo = r.info)

/-- One more command: after a fault it is dropped (R101 step 2), else it runs its rule, or raises. -/
theorem StagesEnd.next {x : Except Stop State} {t u : State} {i : Instr} (h : StagesEnd x t) (hi : i ≠ .srst)
    (hw : i.wf = true) (hp : x = .ok t → prerequisite i t.status = true) (hexec : exec i t = .next u) :
    StagesEnd (x >>= ruleOf i) u := by
  cases h with
  | ok rule taken =>
    have hbind : x >>= ruleOf i = ruleOf i t := by
      rw [rule]
      rfl
    rw [hbind]
    obtain hok | ⟨r, hraise, rfl⟩ := rule_of_exec hi hw ⟨taken, hp rule⟩ hexec
    · exact .ok hok (accepting_of_rule hi taken hok)
    · exact .fault r hraise rfl rfl rfl
  | fault r rule flag record info =>
    have hdrop : accepting t = false := (not_accepting_iff t).2 (.inr flag)
    rw [exec_eq_command i hi, command_dropped _ _ _ hdrop] at hexec
    cases hexec
    refine .fault r ?_ flag record info
    rw [rule]
    rfl

/-- A command whose rule is the run of the stages leaves the state they leave, and faults when one of them does, with
its own opcode in ERR.CMD. -/
theorem StagesEnd.composite {s t : State} {i : Instr} (h : StagesEnd (ruleOf i s) t) (hi : i ≠ .srst)
    (hw : i.wf = true) (hready : Ready i s) :
    ∃ u, exec i s = .next u ∧ (t.status.err = false → u = t) ∧
      (t.status.err = true → u.status.err = true ∧ u.err = { t.err with cmd := i.opcode } ∧ u.errInfo = t.errInfo) := by
  cases h with
  | ok rule taken =>
    have herr := ((accepting_iff t).1 taken).2
    exact ⟨t, exec_of_rule_ok hi hw hready rule, fun _ => rfl, fun hfault => absurd hfault (by simp [herr])⟩
  | fault r rule flag record info =>
    refine ⟨_, exec_of_rule_raised hi hw hready rule, fun hok => absurd hok (by simp [flag]),
      fun _ => ⟨rfl, ?_, info.symm⟩⟩
    rw [record]
    rfl

/-- The flags after two stages that end are those the second one leaves. -/
theorem status_of_bind {i : Instr} {x : Except Stop State} {t : State} (h : x >>= ruleOf i = .ok t) :
    ∃ s, t.status = flagsAfter i s := by
  obtain ⟨s, _, hs⟩ := bind_eq_ok h
  exact ⟨s, ruleOf_status hs⟩

/-- A stage that ends leaves the prerequisites its flags meet. -/
theorem prerequisite_of_bind {i j : Instr} {x : Except Stop State} {t : State} (h : x >>= ruleOf i = .ok t)
    (hflags : ∀ s, prerequisite j (flagsAfter i s) = true) : prerequisite j t.status = true := by
  obtain ⟨s, hs⟩ := status_of_bind h
  rw [hs, hflags]

/-- For an input that is not empty the rule of COMPRESS is its five stages (R212, R213). -/
theorem compressRule_eq_stages {s : State} (hlen : s.srcLen ≠ 0#32) :
    compressRule s = (((countRule s >>= buildRule) >>= walkRule) >>= encodeRule) >>= serRule := by
  rw [compressRule_eq]
  cases hcount : countRule s with
  | error x => rfl
  | ok t =>
    obtain ⟨_, rfl⟩ := countRule_ok hcount
    change compressMiddle _ >>= serRule = _
    rw [compressMiddle_eq, if_neg hlen]
    change ((buildRule _ >>= fun t => walkRule t >>= encodeRule) >>= serRule) =
      ((buildRule _ >>= walkRule) >>= encodeRule) >>= serRule
    cases buildRule { s with freq := (srcBytes s).foldl countByte zeroFreq, status := s.status.clearTree } <;> rfl

/-- Settles O43: each stage leaves the next one's prerequisites set, and after a fault the rest are dropped. -/
theorem compressIsItsFiveStages : Obligations.CompressIsItsFiveStages := by
  intro s t₁ t₂ t₃ t₄ t₅ haccept hlen hcount hbuild hwalk hencode hser
  have hstart : StagesEnd (.ok s) s := .ok rfl haccept
  have h₁ : StagesEnd (countRule s) t₁ := hstart.next (i := .count) (by decide) rfl (fun _ => rfl) hcount
  have h₂ := h₁.next (i := .build) (by decide) rfl (fun _ => rfl) hbuild
  have h₃ := h₂.next (i := .walk) (by decide) rfl (prerequisite_of_bind (i := .build) · fun _ => rfl) hwalk
  have h₄ := h₃.next (i := .encode) (by decide) rfl (prerequisite_of_bind (i := .walk) · fun _ => rfl) hencode
  have h₅ := h₄.next (i := .ser) (by decide) rfl (fun hok => by
    obtain ⟨u, hu, he⟩ := bind_eq_ok hok
    obtain ⟨_, hflags⟩ := status_of_bind hu
    rw [ruleOf_status he, flagsAfter, hflags]
    rfl) hser
  have hrule : ruleOf .compress s = _ := compressRule_eq_stages hlen
  exact StagesEnd.composite (i := .compress) (hrule ▸ h₅) (by decide) rfl ⟨haccept, rfl⟩

/-- Settles O44: DESER leaves DECODE's prerequisites set, and after its fault DECODE is dropped. -/
theorem decompressIsItsTwoStages : Obligations.DecompressIsItsTwoStages := by
  intro s t₁ t₂ haccept hdeser hdecode
  have hstart : StagesEnd (.ok s) s := .ok rfl haccept
  have h₁ : StagesEnd (deserRule s) t₁ := hstart.next (i := .deser) (by decide) rfl (fun _ => rfl) hdeser
  have h₂ := h₁.next (i := .decode) (by decide) rfl
    (prerequisite_of_bind (i := .deser) (x := .ok s) · fun _ => rfl) hdecode
  have hrule : ruleOf .decompress s = _ := decompressRule_eq s
  exact StagesEnd.composite (i := .decompress) (hrule ▸ h₂) (by decide) rfl ⟨haccept, rfl⟩

end Sys2Proof.Machine
end

section
/-! SUPPORT. The loop of ENCODE on a covered sequence that fits, whatever follows it (spec 45_codec.md R206), and the
state ENCODE leaves, by name. -/

namespace Sys2Proof.Machine

theorem encodeAll_append (code : CodeTable) (bs cs : List Byte) :
    encodeAll code (bs ++ cs) = encodeAll code bs ++ encodeAll code cs := List.flatMap_append

@[simp] theorem encodeAll_nil (code : CodeTable) : encodeAll code [] = [] := rfl

theorem encodeAll_cons (code : CodeTable) (b : Byte) (bs : List Byte) :
    encodeAll code (b :: bs) = (entryAt code b.toNat).bits ++ encodeAll code bs := rfl

theorem encodeAll_length (code : CodeTable) (bs : List Byte) :
    (encodeAll code bs).length = (bs.map fun b => (entryAt code b.toNat).bits.length).sum := List.length_flatMap

/-- One byte that has a code (R206). -/
theorem encodeLoop_cons {b : Byte} {rest : List Byte} {i : Nat} {s : State}
    (h : (entryAt s.code b.toNat).valid = true) :
    encodeLoop (b :: rest) i s = pkPush 0x28#8 (entryAt s.code b.toNat).bits s >>= encodeLoop rest (i + 1) := by
  rw [encodeLoop, if_pos h]
  cases pkPush 0x28#8 (entryAt s.code b.toNat).bits s <;> rfl

/-- A byte without a code (R206). -/
theorem encodeLoop_uncovered {b : Byte} {rest : List Byte} {i : Nat} {s : State}
    (h : (entryAt s.code b.toNat).valid = false) :
    encodeLoop (b :: rest) i s = .error (.raised (faultOf 0x28#8 .corruptTable 13#8 i)) := by
  rw [encodeLoop, if_neg (by simp [h])]
  rfl

/-- The loop gets through covered bytes whose codes fit, and goes on with what follows them. -/
theorem encodeLoop_append {bs : List Byte} (rest : List Byte) (i : Nat) {s : State} (hcov : Covers s.code bs)
    (hmax : s.bitLen.toNat + (encodeAll s.code bs).length ≤ 2 ^ 32 - 1)
    (hcap : ceil8 (s.bitLen.toNat + (encodeAll s.code bs).length) ≤ s.payCap.toNat) :
    encodeLoop (bs ++ rest) i s = encodeLoop rest (i + bs.length) ((encodeAll s.code bs).foldl pkBit s) := by
  induction bs generalizing i s with
  | nil => rfl
  | cons b bs ih =>
    obtain ⟨hb, hbs⟩ := List.forall_mem_cons.1 hcov
    rw [encodeAll_cons] at hmax hcap ⊢
    rw [List.length_append] at hmax hcap
    rw [ceil8_eq] at hcap
    have hlen := pkBits_length (entryAt s.code b.toNat).bits s (by omega)
    have hpush := pkPush_eq_ok 0x28#8 (entryAt s.code b.toNat).bits s (by omega) (by rw [ceil8_eq]; omega)
    have hrest := ih (i + 1) (s := (entryAt s.code b.toNat).bits.foldl pkBit s) (by rwa [pkBits_code])
      (by rw [hlen, pkBits_code]; omega) (by rw [hlen, pkBits_code, pkBits_payCap, ceil8_eq]; omega)
    rw [pkBits_code] at hrest
    rw [List.cons_append, encodeLoop_cons hb, hpush, List.foldl_append, List.length_cons, Nat.add_comm bs.length 1,
      ← Nat.add_assoc, ← hrest]
    rfl

theorem encodeStart_bitLen (s : State) : (encodeStart s).bitLen.toNat = 0 := rfl

/-- From the start of ENCODE, BITLEN counts the bits pushed (R206). -/
theorem encodeStart_pkBits_bitLen (s : State) {c : Bits} (h : c.length ≤ 2 ^ 32 - 1) :
    (c.foldl pkBit (encodeStart s)).bitLen.toNat = c.length := by
  rw [pkBits_length c _ (by rw [encodeStart_bitLen]; omega), encodeStart_bitLen, Nat.zero_add]

/-- What the sequence of codes must meet to be packed (R206): SRC fits, every byte has a code, L_MAX and PAY_CAP. -/
structure Encodable (s : State) (code : CodeTable) (bs : List Byte) : Prop where
  source : s.srcLen.toNat ≤ s.srcCap.toNat
  covered : Covers code bs
  size : (encodeAll code bs).length ≤ 2 ^ 32 - 1
  room : ceil8 (encodeAll code bs).length ≤ s.payCap.toNat

theorem Encodable.congr {s t : State} {code : CodeTable} {bs : List Byte} (h : Encodable s code bs)
    (hsource : Part.source.Same s t) : Encodable t code bs := by
  obtain ⟨_, hlen, hsrcCap, _, hpayCap⟩ := hsource
  exact ⟨by rw [hlen, hsrcCap]; exact h.source, h.covered, h.size, by rw [hpayCap]; exact h.room⟩

/-- ENCODE gets through an encodable beginning of its input (R206). -/
theorem Encodable.encodeRule_eq {s : State} {bs rest : List Byte} (h : Encodable s s.code bs)
    (hsrc : srcBytes s = bs ++ rest) :
    encodeRule s = encodeLoop rest bs.length ((encodeAll s.code bs).foldl pkBit (encodeStart s)) >>= fun t =>
      .ok { pkFlush t with status := t.status.setPay } := by
  obtain ⟨hfit, hcov, hmax, hcap⟩ := h
  rw [Machine.encodeRule_eq, needSrcFits_of_le _ hfit, hsrc]
  have hloop := encodeLoop_append (s := encodeStart s) rest 0 hcov
    (by rw [encodeStart_bitLen, Nat.zero_add]; exact hmax) (by rw [encodeStart_bitLen, Nat.zero_add]; exact hcap)
  rw [Nat.zero_add] at hloop
  rw [hloop]
  rfl

/-- The state ENCODE leaves (R206). -/
def encoded (s : State) : State :=
  { pkFlush ((encodeAll s.code (srcBytes s)).foldl pkBit (encodeStart s)) with
    status := s.status.payloadDropped.setPay }

theorem Encodable.encodeRule_ends {s : State} (h : Encodable s s.code (srcBytes s)) :
    encodeRule s = .ok (encoded s) := by
  obtain ⟨t, ht⟩ : ∃ t, encodeRule s = .ok t := ⟨_, h.encodeRule_eq (List.append_nil _).symm⟩
  rw [ht, (encodeRule_ok ht).2.2]
  rfl

/-- What ENCODE leaves as it was. -/
theorem encoded_frame (s : State) : encoded s = { s with
    pay := (encoded s).pay, payLen := (encoded s).payLen, bitLen := (encoded s).bitLen, acc := 0#8
    status := s.status.payloadDropped.setPay } := by
  rw [encoded, pkBits_frame]
  rfl

/-- ENCODE writes no byte past the payload (R206). -/
theorem readByte_encoded {s : State} (hmax : (encodeAll s.code (srcBytes s)).length ≤ 2 ^ 32 - 1) {a : Nat}
    (ha : ceil8 (encodeAll s.code (srcBytes s)).length ≤ a) :
    readByte .pay (encoded s).pay a = readByte .pay s.pay a := by
  rw [ceil8_eq] at ha
  have hlen := encodeStart_pkBits_bitLen s hmax
  exact (readByte_pkFlush _ (by rw [hlen]; omega)).trans
    (pkBits_pay _ (encodeStart s) a (by rw [encodeStart_bitLen]; omega) (by rw [encodeStart_bitLen]; omega))

end Sys2Proof.Machine
end

section
/-! PROOF. O33: ENCODE packs the concatenated codes (spec 45_codec.md R206, 43_bitpack.md R173). -/

namespace Sys2Proof.Machine

/-- Settles O33: the loop pushes every code, and pk_flush leaves the bytes of what was pushed. -/
theorem encodePacksTheConcatenatedCodes : Obligations.EncodePacksTheConcatenatedCodes := by
  intro s hready hfit hcov hmax hcap
  have hrule := Encodable.encodeRule_ends ⟨hfit, hcov, hmax, hcap⟩
  obtain ⟨hbitLen, hpayLen, hbytes⟩ := encodeRule_payload hrule
  refine ⟨encoded s, exec_of_rule_ok (i := .encode) (by decide) rfl hready hrule, ?_, ?_, hbytes, fun a ha => ?_,
    encoded_frame s⟩
  · rw [hbitLen, encodeAll_length]
  · rw [hpayLen, hbitLen, ceil8_eq]
  · exact readByte_encoded hmax (hpayLen ▸ ha)

end Sys2Proof.Machine
end

section
/-! PROOF. O34: ENCODE faults at the first byte that has no code or does not fit (spec 45_codec.md R206,
60_exceptions.md R244, R248). -/

namespace Sys2Proof.Machine

theorem encodeRule_of_lt {s : State} (h : s.srcCap.toNat < s.srcLen.toNat) :
    encodeRule s = .error (.raised (faultOf 0x28#8 .capacityExceeded 1#8 s.srcLen.toNat)) := by
  rw [encodeRule_eq, needSrcFits_of_lt _ h]
  rfl

/-- A raise at the byte after an encodable beginning of the input is ENCODE's (R206). -/
theorem Encodable.raises {s : State} {before after : List Byte} {c : Byte} {r : Raised} (h : Encodable s s.code before)
    (hready : Ready .encode s) (hsrc : srcBytes s = before ++ c :: after)
    (hraise : encodeLoop (c :: after) before.length ((encodeAll s.code before).foldl pkBit (encodeStart s)) =
      .error (.raised r)) : Raises .encode s r := by
  refine raises_of_rule_raised (i := .encode) (by decide) rfl hready ?_
  rw [ruleOf, h.encodeRule_eq hsrc, hraise]
  rfl

/-- Settles O34: after the bytes that fit, the loop tests the next byte's code, then L_MAX, then PAY_CAP. -/
theorem encodeFaultsAtTheFirstBadByte : Obligations.EncodeFaultsAtTheFirstBadByte := by
  refine ⟨fun s hready hover =>
    raises_of_rule_raised (i := .encode) (by decide) rfl hready (encodeRule_of_lt hover), ?_⟩
  intro s before after c hready hfit hsrc hcov hmax hcap
  have h : Encodable s s.code before := ⟨hfit, hcov, hmax, hcap⟩
  have hlen := encodeStart_pkBits_bitLen s hmax
  have hcode : ((encodeAll s.code before).foldl pkBit (encodeStart s)).code = s.code := pkBits_code _ _
  have hpayCap : ((encodeAll s.code before).foldl pkBit (encodeStart s)).payCap = s.payCap := pkBits_payCap _ _
  refine ⟨fun hnone => ?_, fun hvalid hsize => ?_, fun hvalid hsize hroom => ?_⟩
  · exact h.raises hready hsrc (encodeLoop_uncovered (by rw [hcode, hnone]))
  · refine h.raises hready hsrc ?_
    rw [encodeLoop_cons (by rw [hcode, hvalid]), hcode, pkPush_of_size_limit _ (by rwa [hlen]), hlen]
    rfl
  · refine h.raises hready hsrc ?_
    rw [encodeLoop_cons (by rw [hcode, hvalid]), hcode,
      pkPush_of_capacity _ (by rwa [hlen]) (by rwa [hlen, hpayCap])]
    rfl

end Sys2Proof.Machine
end

section
/-! SUPPORT. The reverse codebook, and the loop of DECODE on the codes of a sequence, whatever follows them (spec
10_state.md R52, 45_codec.md R208, R209). -/

namespace Sys2Proof.Machine

/-! ## The reverse codebook -/

theorem revFrom_some {cand : Bits} {l : List CodeEntry} {k : Nat} {b : Byte} (h : revFrom cand l k = some b) :
    ∃ j e, l[j]? = some e ∧ b = BitVec.ofNat 8 (k + j) ∧ e.valid = true ∧ e.bits = cand := by
  induction l generalizing k with
  | nil => cases h
  | cons e rest ih =>
    rw [revFrom] at h
    split at h
    next hcode =>
      cases h
      simp only [Bool.and_eq_true, beq_iff_eq] at hcode
      exact ⟨0, e, rfl, rfl, hcode⟩
    · obtain ⟨j, e', hj, hb, hcode⟩ := ih h
      exact ⟨j + 1, e', hj, by rw [hb, Nat.add_comm j 1, Nat.add_assoc], hcode⟩

theorem revFrom_none {cand : Bits} {l : List CodeEntry} {k : Nat} (h : revFrom cand l k = none) :
    ∀ e ∈ l, e.valid = true → e.bits ≠ cand := by
  induction l generalizing k with
  | nil => exact fun e he => absurd he List.not_mem_nil
  | cons e rest ih =>
    rw [revFrom] at h
    split at h
    · cases h
    next hcode =>
      simp only [Bool.and_eq_true, beq_iff_eq, not_and] at hcode
      exact List.forall_mem_cons.2 ⟨hcode, ih h⟩

/-- What rev gives has the candidate as its code (R209). -/
theorem rev_some {code : CodeTable} {cand : Bits} {b : Byte} (h : rev code cand = some b) :
    (entryAt code b.toNat).valid = true ∧ (entryAt code b.toNat).bits = cand := by
  obtain ⟨j, e, hj, rfl, hcode⟩ := revFrom_some h
  rw [toList_eq_map_entryAt, List.getElem?_map, Option.map_eq_some_iff] at hj
  obtain ⟨x, hx, rfl⟩ := hj
  obtain ⟨hlt, rfl⟩ := List.getElem?_eq_some_iff.1 hx
  rw [List.length_range] at hlt
  rw [List.getElem_range] at hcode
  rwa [Nat.zero_add, BitVec.toNat_ofNat, Nat.mod_eq_of_lt hlt]

/-- A code is found, and by R44 it is no other symbol's (R209). -/
theorem CodeOk.rev_code {code : CodeTable} (hok : CodeOk code) {b : Byte}
    (hvalid : (entryAt code b.toNat).valid = true) : rev code (entryAt code b.toNat).bits = some b := by
  cases hrev : rev code (entryAt code b.toNat).bits with
  | none =>
    refine absurd rfl (revFrom_none hrev (entryAt code b.toNat) ?_ hvalid)
    rw [toList_eq_map_entryAt]
    exact List.mem_map_of_mem (List.mem_range.2 b.isLt)
  | some c =>
    obtain ⟨hvalid', hbits⟩ := rev_some hrev
    by_contra hne
    have hne' : c.toNat ≠ b.toNat := fun h => hne (congrArg some (BitVec.eq_of_toNat_eq h))
    exact hok.prefix_free _ _ c.isLt b.isLt hne' hvalid' hvalid (hbits ▸ List.prefix_rfl)

/-- No beginning of a code short of the whole is a code (R44, R209). -/
theorem CodeOk.rev_beginning {code : CodeTable} (hok : CodeOk code) {b : Byte}
    (hvalid : (entryAt code b.toNat).valid = true) {p q : Bits} (hq : q ≠ [])
    (hbits : (entryAt code b.toNat).bits = p ++ q) : rev code p = none := by
  cases hrev : rev code p with
  | none => rfl
  | some c =>
    obtain ⟨hvalid', hp⟩ := rev_some hrev
    exfalso
    by_cases hcb : c = b
    · subst hcb
      exact hq (List.self_eq_append_right.1 (hp.symm.trans hbits))
    · have hne : c.toNat ≠ b.toNat := fun h => hcb (BitVec.eq_of_toNat_eq h)
      exact hok.prefix_free _ _ c.isLt b.isLt hne hvalid' hvalid (by rw [hp, hbits]; exact List.prefix_append p q)

/-! ## The loop of DECODE -/

/-- Bits that complete no code go into the candidate buffer (R208). -/
theorem decodeLoop_silent {code : CodeTable} {cap : Nat} {bits cand : Bits} {out : List Byte} (rest : Bits)
    (h : ∀ p, p <+: bits → p ≠ [] → rev code (cand ++ p) = none) :
    decodeLoop code cap (bits ++ rest) cand out = decodeLoop code cap rest (cand ++ bits) out := by
  induction bits generalizing cand with
  | nil => rw [List.nil_append, List.append_nil]
  | cons b bits ih =>
    have hb := h [b] (by simp) (by simp)
    have hrest := ih (cand := cand ++ [b]) fun p hp _ => by
      rw [List.append_assoc]
      exact h (b :: p) (List.cons_prefix_cons.2 ⟨rfl, hp⟩) (by simp)
    rw [List.cons_append, decodeLoop, hb]
    simpa using hrest

/-- The code of one symbol: its last bit completes it, and no bit before (R208). -/
theorem CodeOk.decodeLoop_symbol {code : CodeTable} (hok : CodeOk code) {b : Byte}
    (hvalid : (entryAt code b.toNat).valid = true) (cap : Nat) (rest : Bits) (out : List Byte) :
    decodeLoop code cap ((entryAt code b.toNat).bits ++ rest) [] out =
      if out.length < cap then decodeLoop code cap rest [] (out ++ [b]) else raise 0x29#8 .capacityExceeded 3#8 0 := by
  have hlen := (hok.lengths _ b.isLt hvalid).1
  have hsplit := List.dropLast_append_getLast (List.ne_nil_of_length_pos hlen)
  have hrev := hok.rev_code hvalid
  generalize hlast : (entryAt code b.toNat).bits.getLast (List.ne_nil_of_length_pos hlen) = x at hsplit
  generalize hinit : (entryAt code b.toNat).bits.dropLast = init at hsplit
  have hsilent : ∀ p, p <+: init → p ≠ [] → rev code ([] ++ p) = none := by
    rintro p ⟨q, rfl⟩ _
    exact hok.rev_beginning hvalid (q := q ++ [x]) (by simp) (by rw [← hsplit, List.append_assoc]; rfl)
  rw [← hsplit] at hrev ⊢
  rw [List.append_assoc, decodeLoop_silent _ hsilent, List.nil_append, List.singleton_append, decodeLoop, hrev]

/-- The codes of a sequence that fits DST emit that sequence (R208, R211). -/
theorem CodeOk.decodeLoop_encodeAll {code : CodeTable} (hok : CodeOk code) {bs out : List Byte} (hcov : Covers code bs)
    {cap : Nat} (hroom : out.length + bs.length ≤ cap) (rest : Bits) :
    decodeLoop code cap (encodeAll code bs ++ rest) [] out = decodeLoop code cap rest [] (out ++ bs) := by
  induction bs generalizing out with
  | nil => simp
  | cons b bs ih =>
    obtain ⟨hb, hbs⟩ := List.forall_mem_cons.1 hcov
    rw [List.length_cons] at hroom
    rw [encodeAll_cons, List.append_assoc, hok.decodeLoop_symbol hb, if_pos (by omega),
      ih hbs (by rw [List.length_append, List.length_singleton]; omega), List.append_assoc, List.singleton_append]

end Sys2Proof.Machine
end

section
/-! PROOF. O35: DECODE inverts the encoding of a sequence (spec 45_codec.md R208, R211). -/

namespace Sys2Proof.Machine

theorem decodeRule_of_lt {s : State} (h : s.payLen.toNat < ceil8 s.bitLen.toNat) :
    decodeRule s = .error (.raised (faultOf 0x29#8 .truncatedStream 1#8 s.payLen.toNat)) := by
  rw [decodeRule_eq, if_neg (Nat.not_le.2 h)]
  rfl

/-- The rule of DECODE when PAY holds the bits: its end is that of its loop (R208). -/
theorem decodeRule_of_le {s : State} (h : ceil8 s.bitLen.toNat ≤ s.payLen.toNat) :
    decodeRule s = decodeBits s >>= fun out => .ok (decodedTo s out) := by
  rw [decodeRule_eq, if_pos h]

/-- DECODE of a payload that begins with the codes of a sequence that fits DST goes on with the bits after them. -/
theorem CodeOk.decodeBits_eq {s : State} (hok : CodeOk s.code) {out : List Byte} {left : Bits}
    (hcov : Covers s.code out) (hbits : bitsRead .pay s.pay 0 0 s.bitLen.toNat = encodeAll s.code out ++ left)
    (hroom : out.length ≤ s.dstCap.toNat) :
    decodeBits s = decodeLoop s.code s.dstCap.toNat left [] out := by
  rw [decodeBits, hbits, hok.decodeLoop_encodeAll hcov (by simpa using hroom), List.nil_append]

/-- The rule of DECODE on the codes of a sequence that fits DST (R211). -/
theorem CodeOk.decodeRule_ends {s : State} (hok : CodeOk s.code) {out : List Byte} (hcov : Covers s.code out)
    (hlen : ceil8 s.bitLen.toNat ≤ s.payLen.toNat)
    (hbits : bitsRead .pay s.pay 0 0 s.bitLen.toNat = encodeAll s.code out) (hroom : out.length ≤ s.dstCap.toNat) :
    decodeRule s = .ok (decodedTo s out) := by
  rw [decodeRule_of_le hlen, hok.decodeBits_eq hcov (left := []) (by rw [hbits, List.append_nil]) hroom]
  rfl

theorem decodedTo_dstLen {s : State} {out : List Byte} (h : out.length ≤ s.dstCap.toNat) :
    (decodedTo s out).dstLen.toNat = out.length := toNat_ofNat_of_le h

/-- DECODE writes no byte past the sequence it emits (R208). -/
theorem readByte_decodedTo (s : State) {out : List Byte} {a : Nat} (ha : out.length ≤ a) :
    readByte .dst (decodedTo s out).dst a = readByte .dst s.dst a :=
  readByte_writeBytes_out _ _ _ _ _ (.inr ((Nat.zero_add _).trans_le ha))

/-- Settles O35: the loop takes the codes one by one, and no bit is left over. -/
theorem decodeInvertsEncoding : Obligations.DecodeInvertsEncoding := by
  intro s out hready hok hcov hlen hbits hroom
  exact ⟨decodedTo s out,
    exec_of_rule_ok (i := .decode) (by decide) rfl hready (hok.decodeRule_ends hcov hlen hbits hroom),
    decodedTo_dstLen hroom, decodedTo_dstBytes hroom, fun a => readByte_decodedTo s, rfl⟩

end Sys2Proof.Machine
end

section
/-! PROOF. O36: the faults of DECODE, in the order it tests them (spec 45_codec.md R208, 60_exceptions.md R245). -/

namespace Sys2Proof.Machine

/-- A raise of DECODE's loop is DECODE's (R208). -/
theorem raises_decode {s : State} {r : Raised} (hready : Ready .decode s) (hlen : ceil8 s.bitLen.toNat ≤ s.payLen.toNat)
    (h : decodeBits s = .error (.raised r)) : Raises .decode s r := by
  refine raises_of_rule_raised (i := .decode) (by decide) rfl hready ?_
  rw [ruleOf, decodeRule_of_le hlen, h]
  rfl

/-- The codes of more symbols than DST holds: the first one past its end does not fit (R208). -/
theorem CodeOk.decodeLoop_overflow {code : CodeTable} (hok : CodeOk code) {bs : List Byte} (hcov : Covers code bs)
    {cap : Nat} (hover : cap < bs.length) (rest : Bits) :
    decodeLoop code cap (encodeAll code bs ++ rest) [] [] =
      .error (.raised (faultOf 0x29#8 .capacityExceeded 3#8 0)) := by
  have hsplit : bs = bs.take cap ++ bs[cap] :: bs.drop (cap + 1) := by
    rw [List.cons_getElem_drop_succ, List.take_append_drop]
  have hfull : (bs.take cap).length = cap := List.length_take_of_le hover.le
  rw [hsplit, encodeAll_append, encodeAll_cons, List.append_assoc, List.append_assoc,
    hok.decodeLoop_encodeAll (fun b hb => hcov b (List.mem_of_mem_take hb)) (by rw [hfull]; simp), List.nil_append,
    hok.decodeLoop_symbol (hcov _ (List.getElem_mem hover)), if_neg (by omega)]
  rfl

/-- Bits at the end that begin with no code are left over (R208). -/
theorem decodeLoop_leftover {code : CodeTable} {left : Bits} (hleft : left ≠ [])
    (hnone : ∀ x, x < 256 → (entryAt code x).valid = true → ¬(entryAt code x).bits <+: left) (cap : Nat)
    (out : List Byte) :
    decodeLoop code cap left [] out = .error (.raised (faultOf 0x29#8 .truncatedStream 2#8 left.length)) := by
  have hsilent : ∀ p, p <+: left → p ≠ [] → rev code ([] ++ p) = none := by
    intro p hp _
    cases hrev : rev code ([] ++ p) with
    | none => rfl
    | some b =>
      obtain ⟨hvalid, hbits⟩ := rev_some hrev
      exact absurd (hbits ▸ hp) (hnone _ b.isLt hvalid)
  have hloop := decodeLoop_silent (cap := cap) (out := out) [] hsilent
  rw [List.append_nil] at hloop
  rw [hloop, List.nil_append, decodeLoop, if_neg hleft]
  rfl

/-- Settles O36: up_init tests PAY_LEN, the loop the room for each symbol, and its end the candidate buffer. -/
theorem decodeFaultsInOrder : Obligations.DecodeFaultsInOrder := by
  intro s hready hok
  refine ⟨fun hshort => raises_of_rule_raised (i := .decode) (by decide) rfl hready (decodeRule_of_lt hshort), ?_⟩
  intro out left hlen hcov hbits
  refine ⟨fun hover => raises_decode hready hlen ?_, fun hroom hleft hnone => raises_decode hready hlen ?_⟩
  · rw [decodeBits, hbits]
    exact hok.decodeLoop_overflow hcov hover left
  · rw [hok.decodeBits_eq hcov hbits hroom]
    exact decodeLoop_leftover hleft hnone _ _

end Sys2Proof.Machine
end

section
/-! SUPPORT. What SER leaves, and what COMPRESS leaves on an input that fits (spec 44_container.md R191, 45_codec.md
R212 to R214). -/

namespace Sys2Proof.Machine

/-! ## SER -/

/-- The state SER leaves (R191). -/
def serialized (s : State) : State :=
  { s with dst := writeBytes s.dst 0 (serContainer s), dstLen := BitVec.ofNat 32 (serContainer s).length }

theorem serialized_dstLen {s : State} (h : (serContainer s).length ≤ s.dstCap.toNat) :
    (serialized s).dstLen.toNat = (serContainer s).length := toNat_ofNat_of_le h

theorem serialized_dstBytes {s : State} (h : (serContainer s).length ≤ s.dstCap.toNat) :
    dstBytes (serialized s) = serContainer s := by
  rw [dstBytes, serialized_dstLen h]
  exact readBytes_writeBytes _ _ _ _

/-- SER writes no byte past the container (R191). -/
theorem readByte_serialized (s : State) {a : Nat} (ha : (serContainer s).length ≤ a) :
    readByte .dst (serialized s).dst a = readByte .dst s.dst a :=
  readByte_writeBytes_out _ _ _ _ _ (.inr ((Nat.zero_add _).trans_le ha))

/-! ## COMPRESS when it ends -/

/-- The state COUNT leaves (R141). -/
def countedOf (s : State) : State :=
  { s with freq := (srcBytes s).foldl countByte zeroFreq, status := s.status.clearTree }

/-- COMPRESS is COUNT, its middle stages, and SER (R212). -/
theorem compressRule_of_stages {s u : State} (hfit : s.srcLen.toNat ≤ s.srcCap.toNat)
    (hmiddle : compressMiddle (countedOf s) = .ok u) (hser : (serContainer u).length ≤ u.dstCap.toNat) :
    compressRule s = .ok (serialized u) := by
  have hcount : countRule s = .ok (countedOf s) := countRule_of_le hfit
  rw [compressRule_eq, hcount]
  change compressMiddle (countedOf s) >>= serRule = _
  rw [hmiddle]
  exact serRule_of_le hser

theorem compressRule_freq {s t : State} (h : compressRule s = .ok t) :
    t.freq = (srcBytes s).foldl countByte zeroFreq := by
  obtain ⟨u, v, hcount, hmiddle, hser⟩ := compressRule_ok h
  have hfreq : t.freq = u.freq :=
    ((compressMiddle_writes hmiddle).trans (serRule_writes hser)) .freq (by simp [writes])
  rw [hfreq, (countRule_ok hcount).2]

/-- The flags COMPRESS leaves (R212). -/
theorem flagsAfter_compress (s : State) : flagsAfter .compress s = { s.status with
    treeValid := decide (s.srcLen ≠ 0#32), codeValid := true, payValid := true, pkOpen := false, upOpen := false } := by
  by_cases hlen : s.srcLen = 0#32
  · simp [flagsAfter, hlen, Status.clearTree, Status.emptyPacked]
  · simp [flagsAfter, hlen, Status.clearTree, Status.setTree, Status.walked, Status.payloadDropped, Status.setPay]

/-- The middle stages of COMPRESS on the empty input write no byte of PAY (R214). -/
theorem compressEmpty_frame (s : State) : compressEmpty s = { s with
    code := emptyCode, ncode := 0#9, nsym := 0#9, nnode := 0#10, root := 0#9, bitLen := 0#32, payLen := 0#32, acc := 0#8
    status := s.status.emptyPacked } :=
  congrArg (fun n => { compressEmpty s with payLen := n }) (compressEmpty_payLen s)

/-- What ENCODE leaves as it was, of a run that ends. -/
theorem encodeRule_frame {s t : State} (h : encodeRule s = .ok t) : t = { s with
    pay := t.pay, payLen := t.payLen, bitLen := t.bitLen, acc := 0#8, status := s.status.payloadDropped.setPay } := by
  obtain ⟨_, _, ht⟩ := encodeRule_ok h
  rw [show t = encoded s from ht]
  exact encoded_frame s

/-- What the middle stages of COMPRESS leave as it was (R212). -/
theorem compressMiddle_frame {s t : State} (h : compressMiddle s = .ok t) : t = { s with
    node := t.node, nsym := t.nsym, nnode := t.nnode, root := t.root, code := t.code, ncode := t.ncode
    bitLen := t.bitLen, pay := t.pay, payLen := t.payLen, acc := 0#8, status := t.status } := by
  obtain ⟨_, rfl⟩ | ⟨_, u, v, hbuild, hwalk, hencode⟩ := compressMiddle_ok h
  · rfl
  · obtain ⟨_, rfl⟩ := buildRule_ok hbuild
    obtain ⟨_, _, rfl⟩ := walkRule_ok hwalk
    rw [encodeRule_frame hencode]

/-- What COMPRESS leaves as it was (R212). -/
theorem compressRule_frame {s t : State} (h : compressRule s = .ok t) : t = { s with
    freq := t.freq, node := t.node, nsym := t.nsym, nnode := t.nnode, root := t.root, code := t.code
    ncode := t.ncode, bitLen := t.bitLen, pay := t.pay, payLen := t.payLen, acc := 0#8, dst := t.dst
    dstLen := t.dstLen, status := flagsAfter .compress s } := by
  rw [← compressRule_status h]
  obtain ⟨u, v, hcount, hmiddle, hser⟩ := compressRule_ok h
  obtain ⟨_, rfl⟩ := countRule_ok hcount
  obtain ⟨_, rfl⟩ := serRule_ok hser
  rw [compressMiddle_frame hmiddle]

/-! ## The middle stages on an input that fits -/

theorem srcBytes_length (s : State) : (srcBytes s).length = s.srcLen.toNat := readBytes_length _ _ _ _

theorem srcBytes_eq_nil_iff (s : State) : srcBytes s = [] ↔ s.srcLen = 0#32 := by
  rw [← List.length_eq_zero_iff, srcBytes_length]
  exact (BitVec.toNat_eq (y := 0#32)).symm

/-- Some symbol of a sequence that is not empty is counted. -/
theorem leafSyms_countedState {bs : List Byte} (hbs : bs ≠ []) (hlen : bs.length < 2 ^ 32) :
    leafSyms (countedState bs).freq ≠ [] := by
  obtain ⟨b, hb⟩ := List.exists_mem_of_ne_nil bs hbs
  exact (leafSyms_ne_nil_iff _).2 ⟨b.toNat, b.isLt, countedState_freq_ne_zero hlen hb⟩

/-- The tree BUILD makes is that of the counts alone (R153). -/
theorem built_sameTree {s₁ s₂ : State} (hfreq : s₂.freq = s₁.freq) (hsome : leafSyms s₁.freq ≠ []) :
    SameTree (built s₁) (built s₂) := by
  have halike := buildRule_alike hfreq
  rw [buildRule_of_counted hsome, buildRule_of_counted (hfreq ▸ hsome)] at halike
  cases halike with
  | ok h => exact h

/-- The state BUILD and WALK leave, with the codebook WALK makes (R148, R161). -/
def codedWith (s : State) (code : CodeTable) : State :=
  { built s with code := code, ncode := (built s).nsym, status := (built s).status.walked }

/-- The codebook of a byte sequence is what BUILD and WALK make of its counts, in any state (R213). -/
theorem walkRule_of_huffmanCode {s : State} {bs : List Byte} {code : CodeTable} (hbs : bs ≠ [])
    (hlen : bs.length < 2 ^ 32) (hfreq : s.freq = bs.foldl countByte zeroFreq) (hcode : huffmanCode bs = some code) :
    buildRule s = .ok (built s) ∧ (built s).nsym.toNat = numValid code ∧
      walkRule (built s) = .ok (codedWith s code) := by
  have hsome := leafSyms_countedState hbs hlen
  have hsome' : leafSyms s.freq ≠ [] := hfreq ▸ hsome
  have hsame : SameTree (built (countedState bs)) (built s) := built_sameTree hfreq hsome
  rw [huffmanCode_eq_walkTree hbs hsome, ← walkTree_congr hsame (built_tree hsome).1] at hcode
  obtain ⟨htree, _⟩ := built_tree hsome'
  obtain ⟨code', hwalk, hw⟩ := walkTree_spec htree
  obtain rfl : code' = code := Option.some.inj (hwalk.symm.trans hcode)
  exact ⟨buildRule_of_counted hsome', (hw.numValid_eq htree).symm, by rw [walkRule, hwalk, codedWith]⟩

/-- From s, a state t with a codebook and the packed encoding of SRC[0..SRC_LEN), and the rest of PAY as it was
(R206). -/
structure HoldsEncoding (s t : State) (code : CodeTable) : Prop where
  codebook : t.code = code
  count : t.ncode.toNat = numValid code
  bitLen : t.bitLen.toNat = (encodeAll code (srcBytes s)).length
  payload : payBytes t = bytesOf (encodeAll code (srcBytes s))
  beyond : ∀ a, ceil8 (encodeAll code (srcBytes s)).length ≤ a → readByte .pay t.pay a = readByte .pay s.pay a

theorem compressEmpty_holdsEncoding {s : State} (hsrc : srcBytes s = []) :
    HoldsEncoding s (compressEmpty s) emptyCode := by
  refine ⟨rfl, emptyCode_numValid.symm, by rw [hsrc]; rfl, ?_, fun _ _ => rfl⟩
  rw [hsrc, payBytes, compressEmpty_payLen]
  rfl

theorem compressMiddle_of_empty {s : State} (hlen : s.srcLen = 0#32) : compressMiddle s = .ok (compressEmpty s) := by
  rw [compressMiddle_eq, if_pos hlen]

/-- The middle stages of COMPRESS, from the counts of an input that fits (R212). -/
theorem compressMiddle_ends {s : State} {code : CodeTable} (hfreq : s.freq = (srcBytes s).foldl countByte zeroFreq)
    (hcode : huffmanCode (srcBytes s) = some code) (h : Encodable s code (srcBytes s)) :
    ∃ t, compressMiddle s = .ok t ∧ HoldsEncoding s t code := by
  by_cases hsrc : srcBytes s = []
  · rw [hsrc] at hcode
    obtain rfl : emptyCode = code := Option.some.inj hcode
    exact ⟨_, compressMiddle_of_empty ((srcBytes_eq_nil_iff s).1 hsrc), compressEmpty_holdsEncoding hsrc⟩
  · obtain ⟨hbuild, hnsym, hwalk⟩ := walkRule_of_huffmanCode hsrc (srcBytes_length_lt s) hfreq hcode
    have hencode := Encodable.encodeRule_ends (s := codedWith s code) (h.congr ⟨rfl, rfl, rfl, rfl, rfl⟩)
    obtain ⟨hbitLen, _, hpayload⟩ := encodeRule_payload hencode
    obtain ⟨hcodebook, hcount⟩ := encodeRule_writes hencode .code (by simp [writes])
    refine ⟨_, ?_, hcodebook, ?_, hbitLen, hpayload, fun a => readByte_encoded (s := codedWith s code) h.size⟩
    · rw [compressMiddle_eq, if_neg fun hlen => hsrc ((srcBytes_eq_nil_iff s).2 hlen), hbuild]
      change walkRule (built s) >>= encodeRule = _
      rw [hwalk]
      exact hencode
    · rw [hcount]
      exact hnsym

end Sys2Proof.Machine
end

section
/-! PROOF. O42: COMPRESS of the empty input writes the 11-byte container (spec 45_codec.md R212, R214). -/

namespace Sys2Proof.Machine

theorem recordsOf_emptyCode : recordsOf emptyCode = [] := by
  rw [← List.length_eq_zero_iff, recordsOf_length, emptyCode_numValid]

/-- The container of the empty codebook and the empty payload (R214). -/
theorem serContainer_compressEmpty (s : State) :
    serContainer (compressEmpty s) = [0#8, 0#8, 0#8, 3#8, 1#8, 0#8, 0#8, 0#8, 0#8, 0#8, 0#8] := by
  rw [serContainer, payBytes, compressEmpty_payLen, compressEmpty_code, tableBytes_eq, recordsOf_emptyCode]
  change containerBytes (1#8 :: (bigEndian 2 0 ++ [])) 0 [] = _
  decide

/-- Settles O42: with no byte to code, SER writes a table without records and no payload. -/
theorem compressOfEmptyInput : Obligations.CompressOfEmptyInput := by
  intro s haccept hlen hroom
  have hcontainer := serContainer_compressEmpty (countedOf s)
  have hser : (serContainer (compressEmpty (countedOf s))).length ≤ (compressEmpty (countedOf s)).dstCap.toNat := by
    rw [hcontainer]
    exact hroom
  have hrule := compressRule_of_stages (by simp [hlen]) (compressMiddle_of_empty hlen) hser
  refine ⟨_, exec_of_rule_ok (i := .compress) (by decide) rfl ⟨haccept, rfl⟩ hrule, ?_, ?_, fun x hx => ⟨?_, ?_⟩,
    fun a ha => ?_, ?_⟩
  · rw [serialized_dstBytes hser, hcontainer]
  · rw [serialized, hcontainer]
    rfl
  · rw [compressRule_freq hrule, (srcBytes_eq_nil_iff s).2 hlen]
    exact zeroFreq_entry x hx
  · exact emptyCode_entry x hx
  · exact readByte_serialized _ (by rw [hcontainer]; exact ha)
  · rw [serialized, hcontainer, compressEmpty_frame]
    rfl

end Sys2Proof.Machine
end

section
/-! PROOF. O46: COMPRESS writes the container of the Huffman codebook and the packed encoding (spec 45_codec.md R206,
R212, 30_encoding.md R110). -/

namespace Sys2Proof.Machine

/-- The container of a codebook and the packed encoding of a sequence (R110). -/
def encodedContainer (code : CodeTable) (bs : List Byte) : List Byte :=
  containerBytes (tableBytes code (numValid code)) (encodeAll code bs).length (bytesOf (encodeAll code bs))

/-- From s, the state t has written the container of the encoding of SRC[0..SRC_LEN), and the rest of DST as it was. -/
structure WritesContainer (s t : State) (code : CodeTable) : Prop where
  output : dstBytes t = encodedContainer code (srcBytes s)
  dstLen : t.dstLen.toNat = (encodedContainer code (srcBytes s)).length
  beyond : ∀ a, (encodedContainer code (srcBytes s)).length ≤ a → readByte .dst t.dst a = readByte .dst s.dst a

/-- COMPRESS of an input that fits ends, with its encoding packed in PAY and the container in DST (R212). -/
theorem compressRule_ends {s : State} {code : CodeTable} (hcode : huffmanCode (srcBytes s) = some code)
    (h : Encodable s code (srcBytes s)) (hroom : (encodedContainer code (srcBytes s)).length ≤ s.dstCap.toNat) :
    ∃ t, compressRule s = .ok t ∧ HoldsEncoding s t code ∧ WritesContainer s t code := by
  obtain ⟨u, hmiddle, hu⟩ := compressMiddle_ends (s := countedOf s) rfl hcode (h.congr ⟨rfl, rfl, rfl, rfl, rfl⟩)
  obtain ⟨hcodebook, hcount, hbitLen, hpayload, hbeyond⟩ := hu
  have hcontainer : serContainer u = encodedContainer code (srcBytes s) := by
    rw [serContainer, hcodebook, hcount, hbitLen, hpayload]
    rfl
  have hwrites := compressMiddle_writes hmiddle
  obtain ⟨_, _, _, hdstCap, _⟩ := hwrites .source (by simp)
  obtain ⟨hdst, _⟩ := hwrites .dst (by simp)
  have hser : (serContainer u).length ≤ u.dstCap.toNat := by
    rw [hcontainer, hdstCap]
    exact hroom
  refine ⟨_, compressRule_of_stages h.source hmiddle hser, ⟨hcodebook, hcount, hbitLen, hpayload, hbeyond⟩, ?_, ?_,
    fun a ha => ?_⟩
  · rw [serialized_dstBytes hser, hcontainer]
  · rw [serialized_dstLen hser, hcontainer]
  · rw [readByte_serialized u (hcontainer ▸ ha), hdst]
    rfl

/-- The codebook of an input covers it (R213). -/
theorem covers_of_huffmanCode {bs : List Byte} {code : CodeTable} (hlen : bs.length < 2 ^ 32)
    (hcode : huffmanCode bs = some code) : CodeOk code ∧ Covers code bs := by
  obtain ⟨code', hcode', hok⟩ := everySequenceHasACodebook bs hlen
  cases hcode'.symm.trans hcode
  exact hok

/-- Settles O46: the codebook is that of the counts, ENCODE packs the input with it, and SER writes the container. -/
theorem compressWritesTheHuffmanContainer : Obligations.CompressWritesTheHuffmanContainer := by
  intro s code haccept hfit hcode b c hmax hcap hroom
  obtain ⟨_, hcov⟩ := covers_of_huffmanCode (srcBytes_length_lt s) hcode
  obtain ⟨t, hrule, hpay, hdst⟩ := compressRule_ends hcode ⟨hfit, hcov, hmax, hcap⟩ hroom
  have herr := ((accepting_iff t).1 (accepting_of_rule (i := .compress) (by decide) haccept hrule)).2
  refine ⟨t, exec_of_rule_ok (i := .compress) (by decide) rfl ⟨haccept, rfl⟩ hrule, herr, hdst.output, hdst.dstLen,
    hpay.codebook, hpay.count, hpay.bitLen, hpay.payload, hdst.beyond, hpay.beyond, ?_⟩
  rw [← flagsAfter_compress]
  exact compressRule_frame hrule

end Sys2Proof.Machine
end

section
/-! PROOF. O47: DECOMPRESS of a container of an encoding recovers the sequence (spec 45_codec.md R208, R211, R216). -/

namespace Sys2Proof.Machine

/-- Settles O47: DESER restores the codebook and the payload, and DECODE inverts the encoding. -/
theorem decompressRecoversTheSequence : Obligations.DecompressRecoversTheSequence := by
  intro s code out haccept hfit hok hcov b hmax hcap hroom hsrc
  obtain ⟨t, hdeser, hcodebook, _, hbitLen, hpayLen, hpayload, hbeyond, ht⟩ :=
    deserRestoresWhatAContainerHolds s code b.length (bytesOf b) haccept hfit hok (by omega) hsrc
      (by rwa [bytesOf_length])
  rw [bytesOf_length] at hpayLen hbeyond
  have hready : Ready .decode t := by
    rw [ht]
    exact ⟨haccept, rfl⟩
  have hbits : bitsRead .pay t.pay 0 0 t.bitLen.toNat = encodeAll t.code out := by
    rw [payBytes, hpayLen] at hpayload
    rw [hbitLen, hcodebook]
    exact bitsRead_of_bytes _ _ _ _ hpayload
  obtain ⟨u, hdecode, hdstLen, hdst, hbeyond', hu⟩ := decodeInvertsEncoding t out hready (by rwa [hcodebook])
    (by rwa [hcodebook]) (by rw [hbitLen, hpayLen]) hbits (by rwa [ht])
  have herr : u.status.err = false := by
    rw [hu]
    exact ((accepting_iff t).1 hready.1).2
  obtain ⟨v, hdecompress, hv, _⟩ := decompressIsItsTwoStages s t u haccept hdeser hdecode
  obtain rfl := hv herr
  refine ⟨v, hdecompress, herr, hdst, hdstLen, ?_, ?_, fun a ha => ?_, fun a ha => ?_, ?_⟩
  · rw [hu, ← hcodebook]
  · rw [hu, ← hbitLen]
  · rw [hbeyond' a ha, ht]
  · rw [← hbeyond a ha, hu]
  · rw [hu, ht]

end Sys2Proof.Machine
end

section
/-! PROOF. O48: the round trip (spec 45_codec.md R218). -/

namespace Sys2Proof.Machine

/-- Settles O48: what COMPRESS wrote is a container of a codebook and of the input's encoding, which DECOMPRESS
inverts. -/
theorem compressThenDecompressIsIdentity : Obligations.CompressThenDecompressIsIdentity := by
  intro s code haccept hfit hdstFit hcode b c hmax hcap hroom hsrcRoom
  obtain ⟨hok, hcov⟩ := covers_of_huffmanCode (srcBytes_length_lt s) hcode
  obtain ⟨t, hcompress, herr, hdst, hdstLen, _, _, _, _, _, _, ht⟩ :=
    compressWritesTheHuffmanContainer s code haccept hfit hcode hmax hcap hroom
  refine ⟨t, hcompress, herr, fun u hu hsrc => ?_⟩
  have haccept' : accepting u = true := by
    rw [hu, ht]
    exact haccept
  have hsrcFit : u.srcLen.toNat ≤ u.srcCap.toNat := by
    rw [hu, ht]
    exact hdstLen.trans_le hsrcRoom
  have hlen := srcBytes_length s
  obtain ⟨v, hdecompress, herr', hout, hlen', _⟩ := decompressRecoversTheSequence u code (srcBytes s) haccept' hsrcFit
    hok hcov hmax (by rw [hu, ht]; exact hcap) (by rw [hu, ht, hlen]; exact hdstFit) (hsrc.trans hdst)
  exact ⟨v, hdecompress, herr', BitVec.eq_of_toNat_eq (hlen'.trans hlen), hout⟩

end Sys2Proof.Machine
end

section
/-! PROOF. O49: copies of one byte compress to zero bits under the code "0" (spec 41_tree_builder.md R152,
42_codebook.md R162, 45_codec.md R215). -/

namespace Sys2Proof.Machine

/-! ## The tree and the codebook of one symbol -/

/-- A tree of counts that are zero but for one symbol is that symbol's leaf (R152). -/
theorem TreeOk.one_leaf {s : State} (ht : TreeOk s) {z : Byte}
    (hothers : ∀ x, x < 256 → x ≠ z.toNat → entryAt s.freq x = 0#32) :
    s.nsym = 1#9 ∧ s.nnode = 1#10 ∧ (entryAt s.node 0).leaf = true ∧ (entryAt s.node 0).sym = z := by
  have hsome := ht.some_leaf
  have hsize := ht.size
  have hsym : ∀ k, k < s.nsym.toNat → (entryAt s.node k).sym.toNat = z.toNat := by
    intro k hk
    by_contra hne
    obtain ⟨hcount, hweight⟩ := ht.counts k hk
    rw [hothers _ (entryAt s.node k).sym.isLt hne] at hcount
    exact hweight (BitVec.eq_of_toNat_eq hcount)
  have hone : s.nsym.toNat = 1 := by
    by_contra hne
    have hlt := ht.ascending 0 1 (by omega) (by omega)
    rw [hsym 0 (by omega), hsym 1 (by omega)] at hlt
    exact hlt.false
  refine ⟨BitVec.eq_of_toNat_eq hone, BitVec.eq_of_toNat_eq ?_, (ht.leaves 0 hsome).1,
    BitVec.eq_of_toNat_eq (hsym 0 hsome)⟩
  rw [hsize, hone]
  rfl

/-- The codebook of a tree that is one leaf gives its symbol the code "0", and is that of one record (R162). -/
theorem WalkedCode.one_record {s : State} {code : CodeTable} (hw : WalkedCode s code) {z : Byte} (hnsym : s.nsym = 1#9)
    (hsym : (entryAt s.node 0).sym = z) : code = codeOfRecords [(z, [false])] := by
  refine table_ext _ _ fun x hx => ?_
  change _ = entryAt (putEntry emptyCode z.toNat { valid := true, bits := [false] }) x
  rw [entryAt_putEntry _ _ _ _ z.isLt]
  obtain ⟨_, _, hentry⟩ := hw.leaves 0 (by simp [hnsym])
  rw [hsym, hnsym] at hentry
  split
  next hxz => rw [hxz, hentry]; rfl
  next hxz =>
    rw [emptyCode_entry x hx]
    refine hw.others x hx fun k hk => ?_
    obtain rfl : k = 0 := by simpa [hnsym] using hk
    rw [hsym]
    exact Ne.symm hxz

section
variable (z : Byte) {k : Nat} (hk : 1 ≤ k) (hlen : k < 2 ^ 32)

include hlen in
/-- The counts of copies of z are zero but for z. -/
theorem counts_replicate (x : Nat) (hx : x < 256) (hne : x ≠ z.toNat) :
    entryAt ((List.replicate k z).foldl countByte zeroFreq) x = 0#32 := by
  refine BitVec.eq_of_toNat_eq ?_
  rw [entryAt_histogram _ (by simpa using hlen) x hx, List.countP_replicate, if_neg (by simpa using hne.symm)]
  rfl

include hk hlen

/-- The codebook of copies of z (R215). -/
theorem huffmanCode_replicate : huffmanCode (List.replicate k z) = some (codeOfRecords [(z, [false])]) := by
  have hbs : List.replicate k z ≠ [] := by simp; omega
  have hsome := leafSyms_countedState hbs (by simpa using hlen)
  obtain ⟨htree, _⟩ := built_tree hsome
  obtain ⟨hnsym, _, _, hsym⟩ := htree.one_leaf (counts_replicate z hlen)
  obtain ⟨code, hwalk, hw⟩ := walkTree_spec htree
  rw [huffmanCode_eq_walkTree hbs hsome, hwalk, hw.one_record hnsym hsym]

end

/-! ## The encoding -/

theorem entryAt_one_record (z : Byte) :
    entryAt (codeOfRecords [(z, [false])]) z.toNat = { valid := true, bits := [false] } :=
  entryAt_putEntry_same _ _ _ z.isLt

theorem recordsOf_one_record (z : Byte) : recordsOf (codeOfRecords [(z, [false])]) = [(z, [false])] :=
  recordsOf_codeOfRecords (List.pairwise_singleton _ _)

theorem numValid_one_record (z : Byte) : numValid (codeOfRecords [(z, [false])]) = 1 := by
  rw [← recordsOf_length, recordsOf_one_record]
  rfl

/-- The table with the one record of z (R112, R215). -/
theorem tableBytes_one_record (z : Byte) :
    tableBytes (codeOfRecords [(z, [false])]) 1 = [1#8, 0#8, 1#8, z, 1#8, 0#8] := by
  have hcount : bigEndian 2 1 = [0#8, 1#8] := by decide
  have hbits : bytesOf [false] = [0#8] := by decide
  rw [tableBytes_eq, recordsOf_one_record, recordBytes_singleton, hcount, hbits]
  rfl

theorem encodeAll_replicate (z : Byte) (k : Nat) :
    encodeAll (codeOfRecords [(z, [false])]) (List.replicate k z) = List.replicate k false := by
  rw [encodeAll, List.flatMap_replicate, entryAt_one_record, List.flatten_replicate_singleton]

/-- Zero bits are packed into zero bytes (R9). -/
theorem bytesOf_replicate_false (k : Nat) : bytesOf (List.replicate k false) = List.replicate (ceil8 k) 0#8 := by
  refine List.ext_getElem (by simp) fun i h₁ _ => ?_
  rw [bytesOf_getElem, List.getElem_replicate]
  refine byte_ext _ _ fun j hj => ?_
  rw [groupByte_getLsbD _ _ _ hj]
  simp

/-- The container of copies of z (R215). -/
theorem encodedContainer_replicate (z : Byte) (k : Nat) :
    encodedContainer (codeOfRecords [(z, [false])]) (List.replicate k z) =
      [0#8, 0#8, 0#8, 6#8, 1#8, 0#8, 1#8, z, 1#8, 0#8] ++ bigEndian 4 k ++ List.replicate (ceil8 k) 0#8 := by
  have hsize : bigEndian 4 6 = [0#8, 0#8, 0#8, 6#8] := by decide
  rw [encodedContainer, numValid_one_record, tableBytes_one_record, encodeAll_replicate, bytesOf_replicate_false,
    List.length_replicate, containerBytes]
  simp only [List.length_cons, List.length_nil, Nat.zero_add, Nat.reduceAdd, hsize, List.cons_append, List.nil_append]

/-- Settles O49: the one leaf gets the code "0", so the copies encode to as many zero bits. -/
theorem compressOfOneRepeatedSymbol : Obligations.CompressOfOneRepeatedSymbol := by
  intro s z k haccept hk hlen hfit hsrc hcap hroom
  have hlt : k < 2 ^ 32 := hlen ▸ s.srcLen.isLt
  have hcode : huffmanCode (srcBytes s) = some (codeOfRecords [(z, [false])]) := by
    rw [hsrc, huffmanCode_replicate z hk hlt]
  have hbits := encodeAll_replicate z k
  have hcontainer := encodedContainer_replicate z k
  rw [← hsrc] at hbits hcontainer
  obtain ⟨_, hcov⟩ := covers_of_huffmanCode (srcBytes_length_lt s) hcode
  have h : Encodable s (codeOfRecords [(z, [false])]) (srcBytes s) := by
    refine ⟨by rwa [hlen], hcov, ?_, ?_⟩ <;> rw [hbits, List.length_replicate]
    · omega
    · exact hcap
  obtain ⟨t, hrule, hpay, hdst⟩ := compressRule_ends hcode h (by
    rw [hcontainer]
    simp only [List.length_append, List.length_cons, List.length_nil, bigEndian_length, List.length_replicate]
    omega)
  obtain ⟨htree, _⟩ := (compressRule_tree hrule).2 fun hzero => by
    simp [hzero] at hlen
    omega
  obtain ⟨hnsym, hnnode, hleaf, hsym⟩ := htree.one_leaf (z := z) (by
    rw [compressRule_freq hrule, hsrc]
    exact counts_replicate z hlt)
  have herr := ((accepting_iff t).1 (accepting_of_rule (i := .compress) (by decide) haccept hrule)).2
  refine ⟨t, exec_of_rule_ok (i := .compress) (by decide) rfl ⟨haccept, rfl⟩ hrule, herr, hnsym, hnnode, hleaf, hsym,
    ?_, ?_, ?_, ?_⟩
  · rw [hpay.codebook, entryAt_one_record]
  · rw [hpay.bitLen, hbits, List.length_replicate]
  · rw [hpay.payload, hbits, bytesOf_replicate_false]
  · rw [hdst.output, hcontainer]

end Sys2Proof.Machine
end

section
/-! SUPPORT. No rule gets stuck, WALK on a node memory that is no tree apart (spec 20_memory.md R80, 42_codebook.md R164,
R165): every loop of a rule ends, or raises. -/

namespace Sys2Proof.Machine

/-- A rule, or a part of one, that ends or raises (R80, R250): it does not stop on a fault of the model. -/
def NeverStuck {α : Type} (x : Except Stop α) : Prop := ∀ f, x ≠ .error (.stuck f)

theorem neverStuck_ok {α : Type} (a : α) : NeverStuck (.ok a : Except Stop α) := fun _ => nofun

theorem neverStuck_raise {α : Type} {op : Byte} {cause : Cause} {sub : Byte} {info : Nat} :
    NeverStuck (raise op cause sub info : Except Stop α) := fun _ => nofun

/-- A test, and what follows on each side of it. -/
theorem NeverStuck.ite {α : Type} {c : Prop} [Decidable c] {x y : Except Stop α} (hx : NeverStuck x)
    (hy : NeverStuck y) : NeverStuck (if c then x else y) := by
  split
  · exact hx
  · exact hy

/-- Parts that run in order: a later part is asked only about what the earlier ones leave. -/
theorem NeverStuck.bind {α β : Type} {x : Except Stop α} {f : α → Except Stop β} (hx : NeverStuck x)
    (hf : ∀ a, x = .ok a → NeverStuck (f a)) : NeverStuck (x >>= f) := by
  cases x with
  | ok a => exact hf a rfl
  | error e =>
    rintro g ⟨⟩
    exact hx g rfl

/-! ## The parts of the rules -/

theorem needSrcFits_neverStuck (op : Byte) (s : State) : NeverStuck (needSrcFits op s) :=
  .ite (neverStuck_ok _) neverStuck_raise

theorem pkPush_neverStuck (op : Byte) (c : Bits) (s : State) : NeverStuck (pkPush op c s) :=
  .ite neverStuck_raise (.ite neverStuck_raise (neverStuck_ok _))

theorem encodeLoop_eq (b : Byte) (rest : List Byte) (i : Nat) (s : State) :
    encodeLoop (b :: rest) i s =
      if (entryAt s.code b.toNat).valid then
        pkPush 0x28#8 (entryAt s.code b.toNat).bits s >>= encodeLoop rest (i + 1)
      else raise 0x28#8 .corruptTable 13#8 i := by
  rw [encodeLoop]
  cases pkPush 0x28#8 (entryAt s.code b.toNat).bits s <;> rfl

theorem encodeLoop_neverStuck (bs : List Byte) (i : Nat) (s : State) : NeverStuck (encodeLoop bs i s) := by
  induction bs generalizing i s with
  | nil => exact neverStuck_ok s
  | cons b rest ih =>
    rw [encodeLoop_eq]
    exact .ite ((pkPush_neverStuck _ _ s).bind fun t _ => ih (i + 1) t) neverStuck_raise

theorem decodeLoop_neverStuck (code : CodeTable) (cap : Nat) (bits cand : Bits) (out : List Byte) :
    NeverStuck (decodeLoop code cap bits cand out) := by
  induction bits generalizing cand out with
  | nil => exact .ite (neverStuck_ok out) neverStuck_raise
  | cons b rest ih =>
    rw [decodeLoop]
    split
    · exact ih _ _
    · exact .ite (ih _ _) neverStuck_raise

theorem deserRecord_neverStuck (src : Memory) (e : Nat) (t : Parse) : NeverStuck (deserRecord src e t) :=
  .ite neverStuck_raise <| .ite neverStuck_raise <| .ite neverStuck_raise <| .ite neverStuck_raise <|
    .ite neverStuck_raise (neverStuck_ok _)

theorem deserRecords_neverStuck (src : Memory) (e cnt : Nat) (t : Parse) : NeverStuck (deserRecords src e cnt t) := by
  induction cnt generalizing t with
  | zero => exact neverStuck_ok t
  | succ cnt ih =>
    have hloop : deserRecords src e (cnt + 1) t = deserRecord src e t >>= deserRecords src e cnt := by
      rw [deserRecords]
      cases deserRecord src e t <;> rfl
    rw [hloop]
    exact (deserRecord_neverStuck src e t).bind fun t' _ => ih t'

theorem tableRest_neverStuck (e cnt : Nat) (t : Parse) : NeverStuck (tableRest e cnt t) :=
  .ite neverStuck_raise (.ite neverStuck_raise (neverStuck_ok _))

theorem deserTable_neverStuck (src : Memory) (e : Nat) : NeverStuck (deserTable src e) := by
  by_cases hhead : HeaderOk src e
  · rw [deserTable_eq hhead]
    exact (deserRecords_neverStuck _ _ _ _).bind fun t _ => tableRest_neverStuck _ _ t
  · obtain hshort | hroom := Nat.lt_or_ge e 7
    · rw [deserTable_short hshort]
      exact neverStuck_raise
    by_cases hversion : readByte .src src 4 = 0x01#8
    · rw [deserTable_count hroom hversion (Nat.lt_of_not_le fun hcount => hhead ⟨hroom, hversion, hcount⟩)]
      exact neverStuck_raise
    · rw [deserTable_version hroom hversion]
      exact neverStuck_raise

theorem payloadRest_neverStuck (s : State) (c : CodeTable × Nat) : NeverStuck (payloadRest s c) :=
  .ite neverStuck_raise (.ite neverStuck_raise (neverStuck_ok _))

/-! ## The rules -/

theorem countRule_neverStuck (s : State) : NeverStuck (countRule s) := by
  rw [countRule_eq]
  exact (needSrcFits_neverStuck _ s).bind fun _ _ => neverStuck_ok _

theorem buildRule_neverStuck (s : State) : NeverStuck (buildRule s) := by
  by_cases hsome : leafSyms s.freq = []
  · rw [buildRule_of_uncounted hsome]
    exact neverStuck_raise
  · rw [buildRule_of_counted hsome]
    exact neverStuck_ok _

/-- WALK of a tree ends (R164, R165). -/
theorem walkRule_neverStuck {s : State} (ht : TreeOk s) : NeverStuck (walkRule s) := by
  obtain ⟨code, hwalk, _⟩ := walkTree_spec ht
  rw [walkRule, hwalk]
  exact neverStuck_ok _

theorem upinitRule_neverStuck (s : State) : NeverStuck (upinitRule s) := by
  obtain hlt | hle := Nat.lt_or_ge s.payLen.toNat (ceil8 s.bitLen.toNat)
  · rw [upinitRule_of_lt hlt]
    exact neverStuck_raise
  · rw [upinitRule_of_le hle]
    exact neverStuck_ok _

theorem upgetRule_neverStuck (n : BitVec 6) (s : State) : NeverStuck (upgetRule n s) :=
  .ite (neverStuck_ok _) neverStuck_raise

theorem encodeRule_neverStuck (s : State) : NeverStuck (encodeRule s) := by
  rw [encodeRule_eq]
  exact (needSrcFits_neverStuck _ s).bind fun _ _ => (encodeLoop_neverStuck _ _ _).bind fun _ _ => neverStuck_ok _

theorem decodeRule_neverStuck (s : State) : NeverStuck (decodeRule s) := by
  rw [decodeRule_eq]
  exact .ite ((decodeLoop_neverStuck _ _ _ _ _).bind fun _ _ => neverStuck_ok _) neverStuck_raise

theorem serRule_neverStuck (s : State) : NeverStuck (serRule s) := .ite (neverStuck_ok _) neverStuck_raise

theorem deserRule_neverStuck (s : State) : NeverStuck (deserRule s) := by
  obtain hover | hfit := Nat.lt_or_ge s.srcCap.toNat s.srcLen.toNat
  · rw [deserRule_of_overlong hover]
    exact neverStuck_raise
  · rw [deserRule_of_fits hfit]
    exact .ite neverStuck_raise <| .ite neverStuck_raise <|
      (deserTable_neverStuck _ _).bind fun c _ => payloadRest_neverStuck s c

/-- The WALK stage of COMPRESS walks the tree its BUILD stage has made (R212). -/
theorem compressMiddle_neverStuck (s : State) : NeverStuck (compressMiddle s) := by
  rw [compressMiddle_eq]
  split
  · exact neverStuck_ok _
  · refine (buildRule_neverStuck s).bind fun t hbuild => ?_
    obtain ⟨htree, _⟩ := buildRule_tree hbuild
    exact (walkRule_neverStuck htree).bind fun u _ => encodeRule_neverStuck u

theorem compressRule_neverStuck (s : State) : NeverStuck (compressRule s) := by
  rw [compressRule_eq]
  exact (countRule_neverStuck s).bind fun t _ =>
    (compressMiddle_neverStuck t).bind fun u _ => serRule_neverStuck u

theorem decompressRule_neverStuck (s : State) : NeverStuck (decompressRule s) := by
  rw [decompressRule_eq]
  exact (deserRule_neverStuck s).bind fun t _ => decodeRule_neverStuck t

theorem ruleOf_neverStuck {i : Instr} {s : State} (htree : i = .walk → TreeOk s) : NeverStuck (ruleOf i s) := by
  cases i with
  | nop | srst | pkinit | pkflush => exact neverStuck_ok _
  | count => exact countRule_neverStuck s
  | build => exact buildRule_neverStuck s
  | walk => exact walkRule_neverStuck (htree rfl)
  | pkput n => exact pkPush_neverStuck _ _ s
  | upinit => exact upinitRule_neverStuck s
  | upget n => exact upgetRule_neverStuck n s
  | encode => exact encodeRule_neverStuck s
  | decode => exact decodeRule_neverStuck s
  | ser => exact serRule_neverStuck s
  | deser => exact deserRule_neverStuck s
  | compress => exact compressRule_neverStuck s
  | decompress => exact decompressRule_neverStuck s

end Sys2Proof.Machine
end

section
/-! PROOF. O55: every command ends, and every step of an idle block answers a state (spec 20_memory.md R80, 46_system.md
R236, 70_reset_and_hazards.md R300). -/

namespace Sys2Proof.Machine

/-- While no fault is latched, TREE_VALID = 1 says that a tree is there (R32, R42). -/
def TreeThere (s : State) : Prop := s.status.err = false → s.status.treeValid = true → TreeOk s

theorem TreeThere.advance {s : State} (h : TreeThere s) : TreeThere s.advance := fun herr hvalid =>
  (h herr hvalid).congr ⟨rfl, rfl, rfl, rfl⟩ rfl

/-- A command is dropped, or lacks an operand or a prerequisite, or runs its rule: it always ends (R80, R101). -/
theorem exec_ends {s : State} (hinv : TreeThere s) (i : Instr) : ∃ t, exec i s = .next t := by
  by_cases hi : i = .srst
  · rw [hi, exec_srst]
    split <;> exact ⟨_, rfl⟩
  cases haccept : accepting s with
  | false => exact ⟨s, by rw [exec_eq_command i hi, command_dropped _ _ _ haccept]⟩
  | true =>
    cases hw : i.wf with
    | false => exact ⟨_, by rw [exec_eq_command i hi, command, if_pos haccept, runRule, if_pos hw, raise]⟩
    | true =>
      cases hp : prerequisite i s.status with
      | false => exact ⟨_, by rw [exec_eq_command i hi, command_badSequence hw haccept hp]⟩
      | true =>
        have hready : Ready i s := ⟨haccept, hp⟩
        have htree : i = .walk → TreeOk s := by
          rintro rfl
          exact hinv ((accepting_iff s).1 haccept).2 hp
        match hrule : ruleOf i s with
        | .ok t => exact ⟨t, exec_of_rule_ok hi hw hready hrule⟩
        | .error (.raised r) => exact ⟨_, exec_of_rule_raised hi hw hready hrule⟩
        | .error (.stuck f) => exact absurd hrule (ruleOf_neverStuck htree f)

/-- A word that is no command ends too: in a fault entry, or dropped (R106). -/
theorem presentWord_ends {s : State} (hinv : TreeThere s) (w : Word) : ∃ t, presentWord w s = .next t := by
  cases hdecode : decodeWord w with
  | ok i =>
    rw [presentWord_of_ok hdecode]
    exact exec_ends hinv i
  | error e => exact ⟨_, presentWord_of_error hdecode s⟩

/-- No access of the host to an idle block is refused (R81). -/
theorem hostStep_ends {s : State} (hinv : TreeThere s) (hidle : s.status.busy = false) (op : HostOp) :
    ∃ t, hostStep op s = .next t := by
  cases op with
  | wr space index value =>
    simp only [hostStep, hidle]
    split
    · exact presentWord_ends hinv value
    · exact ⟨_, rfl⟩
  | rd space index =>
    simp only [hostStep, hidle]
    exact ⟨_, rfl⟩
  | reset => exact ⟨_, rfl⟩
  | resetDuring w => exact ⟨_, rfl⟩

/-- Settles O55: only WALK of a node memory that is no tree could fail to end, and WALK requires TREE_VALID. -/
theorem noCommandHangs : Obligations.NoCommandHangs := by
  intro s hinv
  refine ⟨exec_ends hinv, fun hidle => ?_⟩
  cases hop : s.script[s.index]? with
  | none => exact ⟨s, step_of_script_end hop⟩
  | some op =>
    simp only [step, hop]
    exact hostStep_ends (TreeThere.advance hinv) hidle op

end Sys2Proof.Machine
end

section
/-! PROOF. O8, O9: the accesses of the host to an idle block (spec 20_memory.md R83, 46_system.md R233, R234). -/

namespace Sys2Proof.Machine

/-- What a host write changes: the target it names, when the host may write there (R30, R40, R71, R233). -/
theorem hostWrite_frame (space : Space) (index : Nat) (value : Word) (s : State) : hostWrite space index value s =
    { s with
      srcLen := if space = .csr ∧ index = 0x14 then value else s.srcLen
      pkData := if space = .csr ∧ index = 0x34 then value else s.pkData
      status := if space = .freq ∧ index < 256 then s.status.clearTree else s.status
      freq := if space = .freq ∧ index < 256 then putEntry s.freq index value else s.freq
      src := if space = .src ∧ index < s.srcCap.toNat then writeByte s.src index (value.setWidth 8) else s.src } := by
  cases space with
  | csr =>
    by_cases hlen : index = 0x14
    · simp [hostWrite, hlen]
    · by_cases hdata : index = 0x34 <;> simp [hostWrite, hlen, hdata]
  | freq => by_cases hin : index < 256 <;> simp [hostWrite, hin]
  | src => by_cases hin : index < s.srcCap.toNat <;> simp [hostWrite, hin]
  | node | code | dst | pay => simp [hostWrite]

theorem entryAt_hostWrite_freq (space : Space) (index : Nat) (value : Word) (s : State) {k : Nat} (hk : k < 256) :
    entryAt (hostWrite space index value s).freq k =
      if space = .freq ∧ index = k then value else entryAt s.freq k := by
  simp only [hostWrite_frame]
  by_cases hin : space = .freq ∧ index < 256
  · obtain ⟨hspace, hlt⟩ := hin
    rw [if_pos ⟨hspace, hlt⟩, entryAt_putEntry _ _ _ _ hlt]
    simp only [hspace, true_and, eq_comm]
  · have hother : ¬(space = .freq ∧ index = k) := fun ⟨hspace, heq⟩ => hin ⟨hspace, heq ▸ hk⟩
    rw [if_neg hin, if_neg hother]

theorem readByte_hostWrite_src (space : Space) (index : Nat) (value : Word) (s : State) (a : Nat) :
    readByte .src (hostWrite space index value s).src a =
      if space = .src ∧ index < s.srcCap.toNat ∧ a = index then value.extractLsb' 0 8 else readByte .src s.src a := by
  simp only [hostWrite_frame, ← BitVec.setWidth_eq_extractLsb' (by decide : 8 ≤ 32)]
  by_cases hin : space = .src ∧ index < s.srcCap.toNat
  · obtain ⟨hspace, hlt⟩ := hin
    rw [if_pos ⟨hspace, hlt⟩, readByte_writeByte]
    simp only [hspace, hlt, true_and]
  · have hother : ¬(space = .src ∧ index < s.srcCap.toNat ∧ a = index) := fun ⟨hspace, hlt, _⟩ => hin ⟨hspace, hlt⟩
    rw [if_neg hin, if_neg hother]

section
variable {s : State} {space : Space} {index : Nat} (hidle : s.status.busy = false)
include hidle

theorem step_of_hostWrite {value : Word} (hcmd : ¬(space = .csr ∧ index = 0x04))
    (hop : s.script[s.index]? = some (.wr space index value)) :
    step s = .next (hostWrite space index value s.advance) := by
  simp [step, hop, hostStep, hcmd, hidle]

theorem step_of_hostRead (hop : s.script[s.index]? = some (.rd space index)) :
    step s = .next (recordRead space index s.advance) := by
  simp [step, hop, hostStep, hidle]

end

/-- The block shows the host the same values wherever the host is in its script. -/
theorem hostRead_advance (space : Space) (index : Nat) (u : Word) (s : State) :
    hostRead space index u s.advance = hostRead space index u s := by
  cases space <;> rfl

/-- Settles O8: the write's frame, read back entry by entry. -/
theorem hostWriteChangesOnlyItsTarget : Obligations.HostWriteChangesOnlyItsTarget := by
  intro s space i v hidle hcmd hop
  refine ⟨_, step_of_hostWrite hidle hcmd hop, ?_, ?_, ?_, fun k hk => entryAt_hostWrite_freq space i v s.advance hk,
    readByte_hostWrite_src space i v s.advance, ?_⟩ <;> rw [hostWrite_frame] <;> rfl

/-- Settles O9: the read is recorded, with the model's free value for what is unspecified. -/
theorem hostReadChangesNothing : Obligations.HostReadChangesNothing := by
  intro s space i hidle hop
  refine ⟨Config.freeBits 32 s.draws 0, ?_⟩
  rw [step_of_hostRead hidle hop, recordRead, hostRead_advance]
  rfl

end Sys2Proof.Machine
end

section
/-! PROOF. O13, O14: the system commands (spec 46_system.md R227, R228, 70_reset_and_hazards.md R281, R282). -/

namespace Sys2Proof.Machine

/-- Settles O13: NOP runs the empty rule, or is dropped. -/
theorem nopChangesNothing : Obligations.NopChangesNothing := by
  intro s _
  cases haccept : accepting s with
  | true => exact exec_of_rule_ok (i := .nop) (by decide) rfl ⟨haccept, rfl⟩ rfl
  | false => exact command_dropped .nop nopRule s haccept

/-- Settles O14: an idle block takes SRST, and the state it leaves is `resetBlock`'s, field by field. -/
theorem srstResetsAllButByteMemories : Obligations.SrstResetsAllButByteMemories := by
  intro s hidle
  have hexec : exec .srst s = .next (resetBlock s) := by rw [exec_srst, hidle, if_neg Bool.false_ne_true]
  have hstatus : statusWord Status.reset = 0#32 := by decide
  have herr : errWord ErrReg.reset = 0#32 := by decide
  exact ⟨_, hexec, rfl, rfl, rfl, rfl, rfl, rfl, rfl, rfl, rfl, rfl, rfl, hstatus, herr, rfl, zeroFreq_entry,
    rfl, rfl, rfl, rfl, rfl, rfl, rfl, rfl, rfl, rfl⟩

end Sys2Proof.Machine
end

section
/-! SUPPORT. The faults of R249: the table of the (code, sub-cause) pairs by opcode, and what the parts of the rules may
raise, one lemma a part (spec 60_exceptions.md R241 to R249). -/

namespace Sys2Proof.Machine

/-- The (code, sub-cause) pair of a raise (R241). -/
def Raised.pair (r : Raised) : Nat × Nat := ((causeCode r.cause).toNat, r.sub.toNat)

/-- A rule, or a part of one, that raises the listed pairs alone. -/
def RaisesOnly {α : Type} (l : List (Nat × Nat)) (x : Except Stop α) : Prop :=
  ∀ r, x = .error (.raised r) → r.pair ∈ l

section
variable {α β : Type} {l l' : List (Nat × Nat)}

theorem raisesOnly_ok (a : α) : RaisesOnly l (.ok a : Except Stop α) := fun _ => nofun

theorem raisesOnly_raise {op : Byte} {cause : Cause} {sub : Byte} {info : Nat}
    (h : ((causeCode cause).toNat, sub.toNat) ∈ l) : RaisesOnly l (raise op cause sub info : Except Stop α) := by
  rintro r ⟨⟩
  exact h

theorem RaisesOnly.mono {x : Except Stop α} (hx : RaisesOnly l x) (h : l ⊆ l') : RaisesOnly l' x :=
  fun r hr => h (hx r hr)

/-- A test, and what follows on each side of it. -/
theorem RaisesOnly.ite {c : Prop} [Decidable c] {x y : Except Stop α} (hx : c → RaisesOnly l x)
    (hy : ¬c → RaisesOnly l y) : RaisesOnly l (if c then x else y) := by
  split
  next hc => exact hx hc
  next hc => exact hy hc

/-- Parts that run in order: a later part is asked only about what the earlier ones leave. -/
theorem RaisesOnly.bind {x : Except Stop α} {f : α → Except Stop β} (hx : RaisesOnly l x)
    (hf : ∀ a, x = .ok a → RaisesOnly l (f a)) : RaisesOnly l (x >>= f) := by
  cases x with
  | ok a => exact hf a rfl
  | error e =>
    rintro r ⟨⟩
    exact hx r rfl

end

/-! ## The parts of the rules -/

theorem needSrcFits_raisesOnly (op : Byte) (s : State) : RaisesOnly [(7, 1)] (needSrcFits op s) :=
  .ite (fun _ => raisesOnly_ok _) fun _ => raisesOnly_raise (by decide)

theorem pkPush_raisesOnly (op : Byte) (c : Bits) (s : State) : RaisesOnly [(2, 0), (7, 2)] (pkPush op c s) :=
  .ite (fun _ => raisesOnly_raise (by decide)) fun _ =>
    .ite (fun _ => raisesOnly_raise (by decide)) fun _ => raisesOnly_ok _

/-- The loop of ENCODE raises CorruptTable(13) only on a byte without a code (R206). -/
theorem encodeLoop_raisesOnly {l : List (Nat × Nat)} (hpush : [(2, 0), (7, 2)] ⊆ l) {bs : List Byte} (i : Nat)
    {s : State} (hbad : ¬Covers s.code bs → (3, 13) ∈ l) : RaisesOnly l (encodeLoop bs i s) := by
  induction bs generalizing i s with
  | nil => exact raisesOnly_ok s
  | cons b rest ih =>
    rw [encodeLoop_eq]
    refine .ite (fun hvalid => ?_) fun hvalid => raisesOnly_raise (hbad fun hcov => hvalid (hcov b List.mem_cons_self))
    refine ((pkPush_raisesOnly _ _ s).mono hpush).bind fun t ht => ih (i + 1) fun hrest => hbad fun hcov => hrest ?_
    obtain ⟨_, _, rfl⟩ := pkPush_ok ht
    rw [pkBits_code]
    exact (List.forall_mem_cons.1 hcov).2

theorem decodeLoop_raisesOnly (code : CodeTable) (cap : Nat) (bits cand : Bits) (out : List Byte) :
    RaisesOnly [(4, 2), (7, 3)] (decodeLoop code cap bits cand out) := by
  induction bits generalizing cand out with
  | nil => exact .ite (fun _ => raisesOnly_ok out) fun _ => raisesOnly_raise (by decide)
  | cons b rest ih =>
    rw [decodeLoop]
    split
    · exact ih _ _
    · exact .ite (fun _ => ih _ _) fun _ => raisesOnly_raise (by decide)

/-- The sub-causes of CorruptTable that DESER raises (R195, R244). -/
def corruptPairs : List (Nat × Nat) := (List.range 12).map fun k => (3, k + 1)

theorem deserRecord_raisesOnly (src : Memory) (e : Nat) (t : Parse) : RaisesOnly corruptPairs (deserRecord src e t) :=
  .ite (fun _ => raisesOnly_raise (by decide)) fun _ => .ite (fun _ => raisesOnly_raise (by decide)) fun _ =>
    .ite (fun _ => raisesOnly_raise (by decide)) fun _ => .ite (fun _ => raisesOnly_raise (by decide)) fun _ =>
      .ite (fun _ => raisesOnly_raise (by decide)) fun _ => raisesOnly_ok _

theorem deserRecords_raisesOnly (src : Memory) (e cnt : Nat) (t : Parse) :
    RaisesOnly corruptPairs (deserRecords src e cnt t) := by
  induction cnt generalizing t with
  | zero => exact raisesOnly_ok t
  | succ cnt ih =>
    rw [deserRecords_succ]
    exact (deserRecord_raisesOnly src e t).bind fun t' _ => ih t'

theorem tableRest_raisesOnly (e cnt : Nat) (t : Parse) : RaisesOnly corruptPairs (tableRest e cnt t) :=
  .ite (fun _ => raisesOnly_raise (by decide)) fun _ =>
    .ite (fun _ => raisesOnly_raise (by decide)) fun _ => raisesOnly_ok _

theorem deserTable_raisesOnly (src : Memory) (e : Nat) : RaisesOnly corruptPairs (deserTable src e) := by
  by_cases hhead : HeaderOk src e
  · rw [deserTable_eq hhead]
    exact (deserRecords_raisesOnly _ _ _ _).bind fun t _ => tableRest_raisesOnly _ _ t
  · exact .ite (fun _ => raisesOnly_raise (by decide)) fun hroom => .ite (fun _ => raisesOnly_raise (by decide))
      fun hversion => .ite (fun _ => raisesOnly_raise (by decide)) fun hcount =>
        absurd ⟨by omega, not_not.1 hversion, by omega⟩ hhead

theorem payloadRest_raisesOnly (s : State) (c : CodeTable × Nat) : RaisesOnly [(3, 12), (7, 2)] (payloadRest s c) :=
  .ite (fun _ => raisesOnly_raise (by decide)) fun _ =>
    .ite (fun _ => raisesOnly_raise (by decide)) fun _ => raisesOnly_ok _

/-! ## The rules -/

theorem countRule_raisesOnly (s : State) : RaisesOnly [(7, 1)] (countRule s) := by
  rw [countRule_eq]
  exact (needSrcFits_raisesOnly _ s).bind fun _ _ => raisesOnly_ok _

theorem buildRule_raisesOnly (s : State) : RaisesOnly [(1, 0)] (buildRule s) :=
  .ite (fun _ => raisesOnly_raise (by decide)) fun _ => raisesOnly_ok _

theorem walkRule_raisesOnly (s : State) : RaisesOnly [] (walkRule s) := by
  unfold walkRule
  split
  · exact fun _ => nofun
  · exact raisesOnly_ok _

theorem upinitRule_raisesOnly (s : State) : RaisesOnly [(4, 1)] (upinitRule s) := by
  obtain hlt | hle := Nat.lt_or_ge s.payLen.toNat (ceil8 s.bitLen.toNat)
  · rw [upinitRule_of_lt hlt]
    exact raisesOnly_raise (by decide)
  · rw [upinitRule_of_le hle]
    exact raisesOnly_ok _

theorem upgetRule_raisesOnly (n : BitVec 6) (s : State) : RaisesOnly [(4, 3)] (upgetRule n s) :=
  .ite (fun _ => raisesOnly_ok _) fun _ => raisesOnly_raise (by decide)

/-- ENCODE raises CorruptTable(13) only when the codebook does not cover the input (R206). -/
theorem encodeRule_raisesOnly {l : List (Nat × Nat)} (hfaults : [(2, 0), (7, 1), (7, 2)] ⊆ l) {s : State}
    (hbad : ¬Covers s.code (srcBytes s) → (3, 13) ∈ l) : RaisesOnly l (encodeRule s) := by
  rw [encodeRule_eq]
  refine ((needSrcFits_raisesOnly _ s).mono (List.Subset.trans (by decide) hfaults)).bind fun _ _ => ?_
  have hloop := encodeLoop_raisesOnly (List.Subset.trans (by decide) hfaults) 0 (s := encodeStart s) hbad
  exact hloop.bind fun _ _ => raisesOnly_ok _

theorem decodeRule_raisesOnly (s : State) : RaisesOnly [(4, 1), (4, 2), (7, 3)] (decodeRule s) := by
  rw [decodeRule_eq]
  refine .ite (fun _ => ?_) fun _ => raisesOnly_raise (by decide)
  exact ((decodeLoop_raisesOnly _ _ _ _ _).mono (by decide)).bind fun _ _ => raisesOnly_ok _

theorem serRule_raisesOnly (s : State) : RaisesOnly [(7, 3)] (serRule s) :=
  .ite (fun _ => raisesOnly_ok _) fun _ => raisesOnly_raise (by decide)

theorem deserRule_raisesOnly (s : State) : RaisesOnly (corruptPairs ++ [(7, 1), (7, 2)]) (deserRule s) := by
  obtain hover | hfit := Nat.lt_or_ge s.srcCap.toNat s.srcLen.toNat
  · rw [deserRule_of_overlong hover]
    exact raisesOnly_raise (by decide)
  · rw [deserRule_of_fits hfit]
    refine .ite (fun _ => raisesOnly_raise (by decide)) fun _ =>
      .ite (fun _ => raisesOnly_raise (by decide)) fun _ => ?_
    exact ((deserTable_raisesOnly _ _).mono (by decide)).bind fun c _ => (payloadRest_raisesOnly s c).mono (by decide)

/-- The middle stages of COMPRESS work on the counts of the input: BUILD finds a counted symbol, and WALK's codebook
covers the input, so EmptyInput and CorruptTable(13) do not arise (R212, R213). -/
theorem compressMiddle_raisesOnly {s : State} (hfreq : s.freq = (srcBytes s).foldl countByte zeroFreq) :
    RaisesOnly [(2, 0), (7, 1), (7, 2)] (compressMiddle s) := by
  rw [compressMiddle_eq]
  refine .ite (fun _ => raisesOnly_ok _) fun hlen => ?_
  have hsrc : srcBytes s ≠ [] := mt (srcBytes_eq_nil_iff s).1 hlen
  obtain ⟨code, hcode, _, hcov⟩ := everySequenceHasACodebook (srcBytes s) (srcBytes_length_lt s)
  obtain ⟨hbuild, _, hwalk⟩ := walkRule_of_huffmanCode hsrc (srcBytes_length_lt s) hfreq hcode
  rw [hbuild]
  change RaisesOnly _ (walkRule (built s) >>= encodeRule)
  rw [hwalk]
  exact encodeRule_raisesOnly (s := codedWith s code) (List.Subset.refl _) fun hbad => absurd hcov hbad

theorem compressRule_raisesOnly (s : State) : RaisesOnly [(2, 0), (7, 1), (7, 2), (7, 3)] (compressRule s) := by
  rw [compressRule_eq]
  refine ((countRule_raisesOnly s).mono (by decide)).bind fun t hcount => ?_
  obtain ⟨_, rfl⟩ := countRule_ok hcount
  refine ((compressMiddle_raisesOnly rfl).mono (by decide)).bind fun u _ => ?_
  exact (serRule_raisesOnly u).mono (by decide)

theorem decompressRule_raisesOnly (s : State) :
    RaisesOnly (corruptPairs ++ [(4, 1), (4, 2), (7, 1), (7, 2), (7, 3)]) (decompressRule s) := by
  rw [decompressRule_eq]
  exact ((deserRule_raisesOnly s).mono (by decide)).bind fun t _ => (decodeRule_raisesOnly t).mono (by decide)

end Sys2Proof.Machine
end

section
/-! PROOF. O18: each command raises only the faults of its row (spec 60_exceptions.md R249). -/

namespace Sys2Proof.Machine

/-- The rows of R249, by opcode. -/
def faultTable : List (Nat × List (Nat × Nat)) :=
  [(0x00, [(5, 2)]), (0x01, [(5, 2)]), (0x20, [(5, 2)]), (0x10, [(5, 2), (7, 1)]), (0x11, [(1, 0), (5, 2)]),
    (0x12, [(5, 2), (6, 0)]), (0x21, [(2, 0), (5, 2), (5, 3), (6, 0), (7, 2)]), (0x22, [(5, 2), (6, 0)]),
    (0x23, [(4, 1), (5, 2), (6, 0)]), (0x24, [(4, 3), (5, 2), (5, 3), (6, 0)]),
    (0x28, [(2, 0), (3, 13), (5, 2), (6, 0), (7, 1), (7, 2)]),
    (0x29, [(4, 1), (4, 2), (5, 2), (6, 0), (7, 3)]), (0x30, [(5, 2), (6, 0), (7, 3)]),
    (0x31, corruptPairs ++ [(5, 2), (7, 1), (7, 2)]), (0x40, [(2, 0), (5, 2), (7, 1), (7, 2), (7, 3)]),
    (0x41, corruptPairs ++ [(4, 1), (4, 2), (5, 2), (7, 1), (7, 2), (7, 3)])]

/-- The row of an opcode; a reserved one raises IllegalCommand(1) alone (R246, R249). -/
def faultRow (opc : Byte) : List (Nat × Nat) := (faultTable.lookup opc.toNat).getD [(5, 1)]

/-! ## Words that decode -/

theorem ruleOf_raisesOnly (i : Instr) (s : State) : RaisesOnly (faultRow i.opcode) (ruleOf i s) := by
  cases i with
  | nop | srst | pkinit | pkflush => exact raisesOnly_ok _
  | count => exact (countRule_raisesOnly s).mono (by decide)
  | build => exact (buildRule_raisesOnly s).mono (by decide)
  | walk => exact (walkRule_raisesOnly s).mono (by decide)
  | pkput n => exact (pkPush_raisesOnly _ _ s).mono (l' := faultRow 0x21#8) (by decide)
  | upinit => exact (upinitRule_raisesOnly s).mono (by decide)
  | upget n => exact (upgetRule_raisesOnly n s).mono (l' := faultRow 0x24#8) (by decide)
  | encode => exact encodeRule_raisesOnly (by decide) fun _ => by decide
  | decode => exact (decodeRule_raisesOnly s).mono (by decide)
  | ser => exact (serRule_raisesOnly s).mono (by decide)
  | deser => exact (deserRule_raisesOnly s).mono (by decide)
  | compress => exact (compressRule_raisesOnly s).mono (by decide)
  | decompress => exact (decompressRule_raisesOnly s).mono (by decide)

/-- A command that can lack a prerequisite has BadSequence in its row (R247, R249). -/
theorem badSequence_mem_faultRow {i : Instr} {f : Status} (h : prerequisite i f = false) :
    (6, 0) ∈ faultRow i.opcode := by
  cases i with
  | nop | srst | count | build | pkinit | deser | compress | decompress => cases h
  | pkput n => exact (by decide : (6, 0) ∈ faultRow 0x21#8)
  | upget n => exact (by decide : (6, 0) ∈ faultRow 0x24#8)
  | walk | pkflush | upinit | encode | decode | ser => decide

theorem runRule_raisesOnly {i : Instr} (hw : i.wf = true) (s : State) :
    RaisesOnly (faultRow i.opcode) (runRule i (ruleOf i) s) :=
  .ite (fun hbad => absurd hw (by simp [hbad])) fun _ =>
    .ite (fun hp => raisesOnly_raise (badSequence_mem_faultRow hp)) fun _ => ruleOf_raisesOnly i s

/-- A command the block takes that leaves a fault latched has raised it (R250). -/
theorem exec_faulted {i : Instr} {s t : State} (haccept : accepting s = true) (h : exec i s = .next t)
    (herr : t.status.err = true) :
    ∃ r, runRule i (ruleOf i) (begin s) = .error (.raised r) ∧ t = faultEntry i.opcode r s := by
  by_cases hi : i = .srst
  · rw [hi, exec_srst, ((accepting_iff s).1 haccept).1] at h
    cases h
    cases herr
  rw [exec_eq_command i hi] at h
  obtain ⟨hdropped, _⟩ | ⟨_, u, hu, rfl⟩ | ⟨_, r, hr, rfl⟩ := command_cases h
  · exact absurd haccept (by simp [hdropped])
  · obtain ⟨_, _, hrule⟩ := runRule_ok hu
    have hflag : u.status.err = (begin s).status.err := ruleOf_errFlag hi hrule
    exact absurd (hflag.symm.trans herr) (by simp [((accepting_iff s).1 haccept).2])
  · exact ⟨r, hr, rfl⟩

theorem exec_faultRow {i : Instr} {s t : State} (hw : i.wf = true) (haccept : accepting s = true)
    (h : exec i s = .next t) (herr : t.status.err = true) :
    (t.err.code.toNat, t.err.sub.toNat) ∈ faultRow i.opcode := by
  obtain ⟨r, hraised, rfl⟩ := exec_faulted haccept h herr
  exact runRule_raisesOnly hw (begin s) r hraised

/-! ## Words that do not decode -/

/-- An opcode of no row of R104 has no row of R249 either. -/
theorem faultRow_of_reserved {opc : Byte} (h : opc ∉ formatZ.map Instr.opcode ++ [0x21#8, 0x24#8]) :
    faultRow opc = [(5, 1)] := by
  have hrows : ∀ p ∈ faultTable, BitVec.ofNat 8 p.1 ∈ formatZ.map Instr.opcode ++ [0x21#8, 0x24#8] := by decide
  have hnone : faultTable.lookup opc.toNat = none := by
    refine List.lookup_eq_none_iff.2 fun p hp => bne_iff_ne.2 fun heq => h ?_
    have hrow := hrows p hp
    rwa [← heq, BitVec.ofNat_toNat, BitVec.setWidth_eq] at hrow
  rw [faultRow, hnone, Option.getD_none]

/-- The sub-cause of a word that is no command stands in the row of its opcode (R106, R249). -/
theorem illegalCommand_mem_faultRow {w : Word} {e : DecodeError} (h : decodeWord w = .error e) :
    (5, e.sub.toNat) ∈ faultRow (opcField w) := by
  have hreserved : ∀ opc ∈ formatZ.map Instr.opcode ++ [0x21#8, 0x24#8], (5, 2) ∈ faultRow opc := by decide
  have hcount : ∀ opc ∈ [0x21#8, 0x24#8], (5, 3) ∈ faultRow opc := by decide
  by_cases hz : opcField w ∈ formatZ.map Instr.opcode
  · obtain ⟨i, hi, hrow⟩ := List.mem_map.1 hz
    rw [decodeWord_of_formatZ hi hrow.symm, decodeZ] at h
    split at h <;> cases h
    exact hreserved _ (List.mem_append_left _ hz)
  by_cases hn : opcField w ∈ [0x21#8, 0x24#8]
  · obtain ⟨f, hf⟩ := decodeWord_of_formatN hn
    rw [hf, decodeN] at h
    split at h
    · split at h <;> cases h
      exact hcount _ hn
    · cases h
      exact hreserved _ (List.mem_append_right _ hn)
  · cases (decodeWord_of_reserved hz hn).symm.trans h
    rw [faultRow_of_reserved (fun hrow => (List.mem_append.1 hrow).elim hz hn)]
    decide

/-- Every fault a word written to CMD latches stands in the row of its opcode (R249). -/
theorem presentWord_faultRow {w : Word} {s t : State} (haccept : accepting s = true) (h : presentWord w s = .next t)
    (herr : t.status.err = true) : (t.err.code.toNat, t.err.sub.toNat) ∈ faultRow (opcField w) := by
  cases hdecode : decodeWord w with
  | ok i =>
    rw [presentWord_of_ok hdecode] at h
    obtain ⟨hw, rfl⟩ := decodeWord_eq_ok_iff.1 hdecode
    rw [opcField_encode]
    exact exec_faultRow hw haccept h herr
  | error e =>
    rw [presentWord_of_error hdecode, illegalWord, if_pos haccept] at h
    cases h
    exact illegalCommand_mem_faultRow hdecode

/-- Settles O18: the rows of R249 bound what each rule raises, stage by stage, and the sub-causes of the decoder. -/
theorem eachCommandRaisesOnlyItsFaults : Obligations.EachCommandRaisesOnlyItsFaults :=
  fun _ _ _ haccept hnext herr => presentWord_faultRow haccept hnext herr

end Sys2Proof.Machine
end

section
/-! PROOF. O17: a command whose prerequisite flag is 0 raises BadSequence (spec 60_exceptions.md R247). -/

namespace Sys2Proof.Machine

/-- A command the block takes with a prerequisite flag at 0, as the statements say it (R101 step 5). -/
theorem raises_badSequence {i : Instr} {s : State} (hw : i.wf = true) (haccept : accepting s = true)
    (hp : prerequisite i s.status = false) : Raises i s (faultOf i.opcode .badSequence 0#8 (encode i).toNat) := by
  have hi : i ≠ .srst := by
    rintro rfl
    cases hp
  exact ⟨_, by rw [exec_eq_command i hi, command_badSequence hw haccept hp], faultEntry_latched _ _ _⟩

/-- The word of a command of format N, as a number (R103). -/
theorem formatN_toNat (opc : Byte) (n : BitVec 6) :
    (opc ++ (0#18 ++ n) : Word).toNat = opc.toNat * 2 ^ 24 + n.toNat := by
  have hn : n.toNat < 2 ^ 24 := n.isLt.trans (by decide)
  rw [BitVec.toNat_append, BitVec.toNat_append, ← Nat.shiftLeft_add_eq_or_of_lt (by simpa using hn), Nat.shiftLeft_eq]
  simp

/-- The commands without a prerequisite have no BadSequence in their rows (R247, R249). -/
theorem badSequence_not_mem_faultRow :
    ∀ i ∈ [Instr.nop, .srst, .count, .build, .pkinit, .deser, .compress, .decompress],
      i.wf = true ∧ ∀ p ∈ faultRow i.opcode, p.1 ≠ 6 := by decide

/-- Settles O17: R101 step 5 tests the prerequisite before the rule runs; a command without one does not raise
BadSequence, for its row of R249 does not list it. -/
theorem missingPrerequisiteRaisesBadSequence : Obligations.MissingPrerequisiteRaisesBadSequence := by
  intro s haccept
  refine ⟨raises_badSequence (i := .walk) rfl haccept, raises_badSequence (i := .encode) rfl haccept,
    fun n hw hp => ?_, raises_badSequence (i := .pkflush) rfl haccept, raises_badSequence (i := .upinit) rfl haccept,
    fun n hw hp => ?_, fun hp => ?_, fun i hi t hnext herr hcode => ?_⟩
  · have hraise := raises_badSequence hw haccept hp
    rwa [show (encode (.pkput n)).toNat = 0x21000000 + n.toNat from formatN_toNat 0x21#8 n] at hraise
  · have hraise := raises_badSequence hw haccept hp
    rwa [show (encode (.upget n)).toNat = 0x24000000 + n.toNat from formatN_toNat 0x24#8 n] at hraise
  · have hboth : (s.status.codeValid && s.status.payValid) = false := Bool.and_eq_false_iff.2 hp
    exact ⟨raises_badSequence (i := .ser) rfl haccept hboth, raises_badSequence (i := .decode) rfl haccept hboth⟩
  · obtain ⟨hw, hrow⟩ := badSequence_not_mem_faultRow i hi
    exact hrow _ (exec_faultRow hw haccept hnext herr) (congrArg BitVec.toNat hcode)

end Sys2Proof.Machine
end

section
/-! PROOF. O19: every fault latches its record and keeps the source and the capacities (spec 60_exceptions.md R250,
R253). -/

namespace Sys2Proof.Machine

/-- Settles O19: a command that leaves a fault latched has made the fault entry, with its own opcode. -/
theorem faultKeepsSourceAndLatchesRecord : Obligations.FaultKeepsSourceAndLatchesRecord := by
  intro i s t haccept hnext herr
  obtain ⟨r, _, rfl⟩ := exec_faulted haccept hnext herr
  exact ⟨rfl, causeCode_ne_zero r.cause, rfl, rfl, rfl, rfl, rfl, rfl, rfl, rfl⟩

end Sys2Proof.Machine
end

section
/-! PROOF. O6: a dropped command word changes nothing (spec 30_encoding.md R101 steps 1 and 2,
60_exceptions.md R252). -/

namespace Sys2Proof.Machine

/-- A block that is BUSY drops every word; one with a fault latched drops every word but SRST's. -/
theorem presentWord_dropped {w : Word} {s : State} (h : accepting s = false)
    (hword : s.status.busy = true ∨ w ≠ 0x01000000#32) : presentWord w s = .next s := by
  cases hdecode : decodeWord w with
  | ok i =>
    rw [presentWord_of_ok hdecode]
    by_cases hi : i = .srst
    · subst hi
      have hbusy := hword.resolve_right (not_not.2 (encode_of_decodeWord hdecode).symm)
      rw [exec_srst, if_pos hbusy]
    · rw [exec_eq_command i hi, command_dropped _ _ _ h]
  | error e => rw [presentWord_of_error hdecode, illegalWord, if_neg (by simp [h])]

/-- Settles O6: the host moves on, and the word is dropped. -/
theorem droppedCommandWordsChangeNothing : Obligations.DroppedCommandWordsChangeNothing := by
  refine ⟨fun s w herr _ hop hword => ?_, fun s w hbusy hop => ?_⟩
  · rw [step_of_cmdWrite hop]
    exact presentWord_dropped ((not_accepting_iff s.advance).2 (.inr herr)) (.inr hword)
  · rw [step_of_cmdWrite hop]
    exact presentWord_dropped ((not_accepting_iff s.advance).2 (.inl hbusy)) (.inl hbusy)

end Sys2Proof.Machine
end

section
/-! PROOF. O15: a hardware reset does what SRST does, and forgets DST and PAY when it interrupts a command (spec
70_reset_and_hazards.md R280, R282, R285). -/

namespace Sys2Proof.Machine

theorem step_of_reset {s : State} (h : s.script[s.index]? = some .reset) : step s = .next (hardReset s.advance) := by
  simp [step, h, hostStep]

theorem step_of_resetDuring {s : State} {w : Word} (h : s.script[s.index]? = some (.resetDuring w)) :
    step s = .next (resetDuring w s.advance) := by
  simp [step, h, hostStep]

theorem exec_srst_idle {s : State} (hidle : s.status.busy = false) : exec .srst s = .next (resetBlock s) := by
  rw [exec_srst, hidle, if_neg Bool.false_ne_true]

/-- Settles O15: an idle block takes the plain reset SRST makes; a word it takes, or a command that runs, is
abandoned. -/
theorem hardwareResetDoesWhatSrstDoes : Obligations.HardwareResetDoesWhatSrstDoes := by
  refine fun s => ⟨fun hidle hop => ?_, fun w hidle hop => ?_, fun hbusy hop => ?_⟩
  · rw [step_of_reset hop, hardReset, if_neg (by simp [hidle])]
    exact (exec_srst_idle (s := s.advance) hidle).symm
  · refine ⟨_, resetBlock s.advance, step_of_resetDuring hop, exec_srst_idle (s := s.advance) hidle, fun herr => ?_,
      fun herr => ?_⟩
    · exact resetDuring_dropped w s.advance hidle herr
    · exact resetDuring_taken w s.advance ((accepting_iff s.advance).2 ⟨hidle, herr⟩)
  · refine ⟨_, resetBlock s.advance, step_of_reset hop, exec_srst_idle rfl, ?_⟩
    rw [hardReset, if_pos (by simp [hbusy])]
    rfl

end Sys2Proof.Machine
end

section
/-! PROOF. O16, O56: the reset state (spec 70_reset_and_hazards.md R281). Its capacities, its tables of zeros and its
memories in canonical form are the model's (log entries 1, 3 and 4). -/

namespace Sys2Proof.Machine

/-- Settles O16: field by field; FREQ is the zero table. -/
theorem resetStateValues : Obligations.ResetStateValues := by
  have hstatus : statusWord Status.reset = 0#32 := by decide
  have herr : errWord ErrReg.reset = 0#32 := by decide
  exact ⟨rfl, rfl, rfl, rfl, rfl, rfl, rfl, rfl, rfl, rfl, rfl, hstatus, herr, rfl, zeroFreq_entry⟩

theorem reset_capsInv : CapsInv State.reset := ⟨by decide, by decide, by decide, by decide⟩

/-- Settles O56: no fault, no session, no valid table, no byte written. -/
theorem resetMeetsTheInvariants : Obligations.ResetMeetsTheInvariants := by
  have hlatch : LatchInv State.reset := resetBlock_latchInv State.reset
  have hbuffers : BufferInv State.reset := ⟨rfl, rfl, rfl, fun _ => reset_sessionOk rfl rfl rfl⟩
  exact ⟨hlatch, reset_capsInv, ⟨rfl, rfl, rfl⟩, hbuffers, fun _ hvalid => Bool.noConfusion hvalid,
    fun _ hvalid => Bool.noConfusion hvalid⟩

end Sys2Proof.Machine
end
